-- ==== Sys2Proof/Word.lean ====
section
/-! DEFINITION. The words, bytes, addresses and transaction records every other file speaks of. -/

namespace Sys2Proof

/-- A command word of `CW64` (R67) and the width of the result register (R22). -/
abbrev Word := BitVec 64

/-- A byte: a bus byte, a duty value, a register index, an operand field (`u8` of R11). -/
abbrev Byte := BitVec 8

/-- A device address, 0..127 (R11, R47). -/
abbrev Addr7 := BitVec 7

/-- A colour index: the 8-bit operand of `LED.COLOR` and the stored colour (R17, R25). -/
abbrev ColorIx := BitVec 8

/-- A PWM channel identifier, 0..15 (R29, R30). -/
abbrev ChannelId := BitVec 4

/-- The two independent buses (R49). -/
inductive BusId
  | bus0
  | bus1
  deriving DecidableEq, Repr

/-- One record of `bus.log` (R50). -/
inductive Transaction
  /-- `W(b, a, bs, ack)`: a write-direction transaction carrying `bs`, and whether a device acknowledged. -/
  | write (bus : BusId) (addr : Addr7) (bytes : List Byte) (ack : Bool)
  /-- `R(b, a, n, bs)`: a read request for `n` bytes; `none` is the record's `⊥`, the bytes never arrived. -/
  | read (bus : BusId) (addr : Addr7) (count : Nat) (answer : Option (List Byte))
  deriving DecidableEq, Repr

end Sys2Proof
end

