-- ==== Sys2Proof/Config.lean ====
section
/-! DEFINITION. What an implementation fixes: the parameters of R10, every row a field of one record of plain data, the
constraints a valid instantiation meets (92_eei_decisions.md, summary; log 20), and the uninterpreted constants of the
environment (R52). -/

namespace Sys2Proof

/-- One triple of `COLOR_TABLE` (R27): the duty values of the red, green and blue channel. -/
structure Duty where
  r : Byte
  g : Byte
  b : Byte
  deriving DecidableEq, Repr

/-- One colour: its name (`COLOR_NAME`, R28) and its duty triple (`COLOR_TABLE`, R27). -/
structure ColorEntry where
  name : String
  duty : Duty
  deriving DecidableEq, Repr

/-- The parameters left open by the document (R10; 92_eei_decisions.md, "Parameters left open").
The machine holds one such record, no command writes it, and a statement about every state is a statement about every
value of it (log 1). -/
structure Config where
  /-- `COLOR_TABLE` and `COLOR_NAME`, by index; `COLOR_COUNT` is the length (R27, R28). -/
  colors : List ColorEntry
  /-- The colour index codes (R10). -/
  red : ColorIx
  green : ColorIx
  blue : ColorIx
  pink : ColorIx
  cyan : ColorIx
  aqua : ColorIx
  white : ColorIx
  black : ColorIx
  /-- The LedMode codes of `LED.MODE` (R10, R24, R84). Every code but the last three means OFF. -/
  ledOff : Byte
  ledOn : Byte
  ledBlink : Byte
  ledCycle : Byte
  /-- `CYCLE_ORDER` (R10, R18); `CYCLE_LEN` is its length. -/
  cycleOrder : List ColorIx
  /-- `BLINK_A`, `BLINK_B` (R10, R18). -/
  blinkA : ColorIx
  blinkB : ColorIx
  /-- `OFF_BLANKS` (R10, R84). -/
  offBlanks : Bool
  /-- `TICK_MAX` (R10, R14). -/
  tickMax : Nat
  /-- `TIMER_PERIOD` in milliseconds; read by no rule (R32, R160). -/
  timerPeriodMs : Nat
  /-- `PWM_RES`, the width of a duty value; read by no rule (R29, R30). -/
  pwmRes : Nat
  /-- `PWM_CHANNELS`: the channel identifiers are those below it (R10, R74). -/
  pwmChannels : Nat
  /-- The number of buses; read by no rule, since a bus id is one bit (R34, R49, R70). -/
  busCount : Nat
  /-- `PWM_FREQ`; the spec gives no number, `none` leaves it open; read by no rule (R29). -/
  pwmFreq : Option Nat
  /-- `SETTLE_DELAY`; the spec gives no number, `none` leaves it open; without state effect (R118). -/
  settleDelay : Option Nat
  /-- `SCAN_FIRST`, `SCAN_LAST` (R47, R102). -/
  scanFirst : Nat
  scanLast : Nat
  /-- `BUS_MAX_BYTES` (R54, R99, R101). -/
  busMaxBytes : Nat
  /-- `BUS_TIMEOUT`; none, and read by no rule (R103, R126). -/
  busTimeout : Option Nat
  /-- `KNOWN_DEVICES` (R38): address and label. -/
  knownDevices : List (Addr7 × String)
  /-- `UNKNOWN_LABEL` (R38). -/
  unknownLabel : String
  /-- `BusOK(0)` and `BusOK(1)` (R55). -/
  busOk0 : Bool
  busOk1 : Bool
  /-- `MOTOR_BUS` (R110). -/
  motorBus : BusId
  /-- `MOTOR_ADDR` (R111). -/
  motorAddr : Addr7
  /-- The motor device's register map (R111). -/
  regSpeed1 : Byte
  regSpeed2 : Byte
  regEnc1 : Byte
  regEnc2 : Byte
  regVersion : Byte
  regMode : Byte
  regCommand : Byte
  /-- `CMD_RESET_ENC` (R111). -/
  cmdResetEnc : Byte
  /-- `MODE_SINGLE`, `MODE_COMBINED` (R111). -/
  modeSingle : Byte
  modeCombined : Byte
  /-- `STOP_SPEED` (R117). -/
  stopSpeed : Byte
  deriving DecidableEq, Repr

/-- `COLOR_COUNT` (R10). -/
def Config.colorCount (c : Config) : Nat := c.colors.length

/-- The constraints a valid instantiation must meet (92_eei_decisions.md, the last paragraph; `MOTOR_ADDR < 128` is in its
type). -/
abbrev Config.MeetsSpec (c : Config) : Prop :=
  8 ≤ c.colorCount ∧ c.colorCount ≤ 256 ∧
  c.white.toNat < c.colorCount ∧ c.black.toNat < c.colorCount ∧
  (∀ x ∈ c.cycleOrder, x.toNat < c.colorCount) ∧
  c.blinkA.toNat < c.colorCount ∧ c.blinkB.toNat < c.colorCount ∧
  c.cycleOrder.Nodup ∧ 1 ≤ c.cycleOrder.length ∧ c.blinkA ≠ c.blinkB ∧
  (∀ e ∈ c.colors, e.name.toList.length ≤ 8 ∧ e.name.toList.all (fun ch => ch.toNat < 128) = true) ∧
  c.regEnc1.toNat + 3 ≤ 255 ∧ c.regEnc2.toNat + 3 ≤ 255 ∧ 1 ≤ c.tickMax

/-- What the encoding, the types and the rules ask of the parameters that list says nothing of (log 20): distinct mode codes,
addresses of 7 bits, identifiers of 4 bits, reads of four bytes (R54, R114), and the three values no type can vary. -/
abbrev Config.FitsEncoding (c : Config) : Prop :=
  [c.ledOff, c.ledOn, c.ledBlink, c.ledCycle].Nodup ∧
  c.scanFirst ≤ c.scanLast ∧ c.scanLast ≤ 127 ∧
  c.pwmChannels ≤ 16 ∧ 4 ≤ c.busMaxBytes ∧
  c.pwmRes = 8 ∧ c.busCount = 2 ∧ c.busTimeout = none

/-- A valid instantiation of the parameters. -/
abbrev Config.Valid (c : Config) : Prop := c.MeetsSpec ∧ c.FitsEncoding

/-- The default colour table and names (R27, R28). -/
def Config.defaultColors : List ColorEntry :=
  [⟨"RED", ⟨0, 255, 255⟩⟩, ⟨"GREEN", ⟨255, 0, 255⟩⟩, ⟨"BLUE", ⟨255, 255, 0⟩⟩, ⟨"PINK", ⟨0, 255, 0⟩⟩,
   ⟨"CYAN", ⟨255, 0, 0⟩⟩, ⟨"AQUA", ⟨255, 0, 128⟩⟩, ⟨"WHITE", ⟨0, 0, 0⟩⟩, ⟨"BLACK", ⟨255, 255, 255⟩⟩]

/-- The defaults of R10. `pwmFreq` and `settleDelay` have none there. -/
def Config.default : Config where
  colors := Config.defaultColors
  red := 0
  green := 1
  blue := 2
  pink := 3
  cyan := 4
  aqua := 5
  white := 6
  black := 7
  ledOff := 0
  ledOn := 1
  ledBlink := 2
  ledCycle := 3
  cycleOrder := [0, 2, 1, 3, 4]
  blinkA := 0
  blinkB := 7
  offBlanks := true
  tickMax := 2147483647
  timerPeriodMs := 1000
  pwmRes := 8
  pwmChannels := 16
  busCount := 2
  pwmFreq := none
  settleDelay := none
  scanFirst := 8
  scanLast := 119
  busMaxBytes := 4
  busTimeout := none
  knownDevices := [(0x58, "MD25")]
  unknownLabel := "Unknown"
  busOk0 := true
  busOk1 := true
  motorBus := .bus1
  motorAddr := 0x58
  regSpeed1 := 0
  regSpeed2 := 1
  regEnc1 := 2
  regEnc2 := 6
  regVersion := 13
  regMode := 15
  regCommand := 16
  cmdResetEnc := 0x20
  modeSingle := 0
  modeCombined := 2
  stopSpeed := 128

/-- `BusOK(b)` (R55). -/
def Config.busOk (c : Config) : BusId → Bool
  | .bus0 => c.busOk0
  | .bus1 => c.busOk1

/-- The largest byte count `CW64` admits (R70, R74). -/
def Config.encodedMaxBytes : Nat := 4

/-- The environment oracle for writes (R52): does a device on this bus acknowledge a write to this address carrying
these bytes, given the log so far. Uninterpreted: the block assumes nothing about `Env`.
The first argument is the count of transactions ever issued, the free choice R52 allows (log 5, log 6). -/
opaque Config.envAck : Nat → BusId → Addr7 → List Byte → List Transaction → Bool

/-- The environment oracle for reads (R52): the bytes a device supplies to a request for this many bytes, or `none`
when the request is never satisfied. Uninterpreted; the first argument as for `Config.envAck` (log 5, log 6). -/
opaque Config.envRead : Nat → BusId → Addr7 → Nat → List Transaction → Option (List Byte)

/-- How many answers of `Config.envRead` a blocking spin takes before it hangs in its polls, if none of them ends it: part of
the free choice of R52, since it says how an environment without end is cut into one step and what follows (log 8).
Uninterpreted; the arguments are the count of transactions ever issued and the log. -/
opaque Config.envPolls : Nat → List Transaction → Nat

end Sys2Proof
end

