-- ==== Sys2Proof/Syntax.lean ====
section
/-! DEFINITION. The seventeen commands of `CW64` (R69), one constructor each, operands as R70 and R71 give them. -/

namespace Sys2Proof

/-- The side operand of `MOT.ENC`: LEFT = 0, RIGHT = 1 (R70). -/
inductive Side
  | left
  | right
  deriving DecidableEq, Repr

/-- The selector of the spin commands: LEFT = 0, RIGHT = 1, BOTH = 2 (R70). -/
inductive Selector
  | left
  | right
  | both
  deriving DecidableEq, Repr

/-- A command. The colour index and the mode code stay raw bytes: every value has a meaning (R74, fallback). -/
inductive Instr
  /-- `LED.CFG idR, idG, idB, pinR, pinG, pinB` (R81). -/
  | ledCfg (idR idG idB : ChannelId) (pinR pinG pinB : Byte)
  /-- `LED.COLOR c` (R83). -/
  | ledColor (color : ColorIx)
  /-- `LED.MODE m` (R84). -/
  | ledMode (mode : Byte)
  /-- `LED.UPDATE` (R86). -/
  | ledUpdate
  /-- `LED.GETC` (R89). -/
  | ledGetc
  /-- `LED.GETN` (R90). -/
  | ledGetn
  /-- `BUS.CFG bus, sda, scl, clk` (R97). -/
  | busCfg (bus : BusId) (sda scl : Byte) (clk : BitVec 32)
  /-- `BUS.WR bus, addr, reg, n, value` (R99). -/
  | busWr (bus : BusId) (addr : Addr7) (reg : Byte) (n : BitVec 3) (value : BitVec 32)
  /-- `BUS.RD bus, addr, reg, n` (R101). -/
  | busRd (bus : BusId) (addr : Addr7) (reg : Byte) (n : BitVec 3)
  /-- `BUS.SCAN bus` (R102). -/
  | busScan (bus : BusId)
  /-- `MOT.VER` (R112). -/
  | motVer
  /-- `MOT.RSTENC` (R113). -/
  | motRstenc
  /-- `MOT.ENC side` (R114). -/
  | motEnc (side : Side)
  /-- `MOT.MODE m` (R115). -/
  | motMode (mode : Byte)
  /-- `MOT.SPIN sel, speed` (R116). -/
  | motSpin (sel : Selector) (speed : Byte)
  /-- `MOT.STOP sel` (R117). -/
  | motStop (sel : Selector)
  /-- `MOT.SPIND sel, speed, dist` (R118). -/
  | motSpind (sel : Selector) (speed : Byte) (dist : BitVec 32)
  deriving DecidableEq, Repr

end Sys2Proof
end

