-- ==== Sys2Proof/WellFormed.lean ====
section
/-! DEFINITION. The operand conditions R74 puts in its class "refused" that the operand types do not already exclude. -/

namespace Sys2Proof

/-- The three channel ids of `LED.CFG` are pairwise distinct (R74, R81). -/
def idsDistinct (idR idG idB : ChannelId) : Bool :=
  idR != idG && idR != idB && idG != idB

/-- The byte count of `BUS.WR` and `BUS.RD` is at least 1 and at most a bound: that of the encoding in a word (R70, R74),
`BUS_MAX_BYTES` in the command (R54, R101). -/
def byteCountLegal (bound : Nat) (n : BitVec 3) : Bool :=
  decide (1 ≤ n.toNat) && decide (n.toNat ≤ bound)

/-- The value of `BUS.WR` fits its byte count: `value < 2^(8n)` (R15, R74). -/
def valueFits (n : BitVec 3) (value : BitVec 32) : Bool :=
  decide (value.toNat < 2 ^ (8 * n.toNat))

/-- A command R74 does not refuse for its operands. -/
def Instr.wellFormed : Instr → Bool
  | .ledCfg idR idG idB _ _ _ => idsDistinct idR idG idB
  | .ledColor _ => true
  | .ledMode _ => true
  | .ledUpdate => true
  | .ledGetc => true
  | .ledGetn => true
  | .busCfg _ _ _ _ => true
  | .busWr _ _ _ n value => byteCountLegal Config.encodedMaxBytes n && valueFits n value
  | .busRd _ _ _ n => byteCountLegal Config.encodedMaxBytes n
  | .busScan _ => true
  | .motVer => true
  | .motRstenc => true
  | .motEnc _ => true
  | .motMode _ => true
  | .motSpin _ _ => true
  | .motStop _ => true
  | .motSpind _ _ _ => true

end Sys2Proof
end

