-- ==== Sys2Proof/Decode.lean ====
section
/-! DEFINITION. The decoder of `CW64` (R67 to R75), total on 64-bit words, rejecting by name; after it the encoder,
written from the same tables. A command word is one 64-bit value and has no byte order (R67; log 14). -/

namespace Sys2Proof

/-- Why the decoder rejects a word: the first two reasons of R132, in its order of checking. -/
inductive Reject
  /-- `RF_UNDEF_OP`: the opcode is not in the table of R69 (R73). -/
  | undefOp
  /-- `RF_RESERVED`: a reserved field is non-zero, or an operand is outside its legal range (R72, R74). -/
  | reserved
  deriving DecidableEq, Repr

/-- The field `op`, `w[63:56]` (R67). -/
def opOf (w : Word) : Byte := w.extractLsb' 56 8

/-- A bus id field of one bit (R70). -/
def busOfBit (x : BitVec 1) : BusId := if x = 0#1 then .bus0 else .bus1

/-- A side field of one bit: LEFT = 0, RIGHT = 1 (R70). -/
def sideOfBit (x : BitVec 1) : Side := if x = 0#1 then .left else .right

/-- A selector field of two bits: LEFT = 0, RIGHT = 1, BOTH = 2; 3 is refused (R70, R74). -/
def selectorOfBits (x : BitVec 2) : Option Selector :=
  if x = 0#2 then some .left
  else if x = 1#2 then some .right
  else if x = 2#2 then some .both
  else none

/-- One row of the opcode map: the table of R69, and the operand fields of `opcode_table.json` (R70, R71). -/
structure Row where
  op : Byte
  pattern : Word
  mask : Word
  operands : Word → Option Instr

/-- The StatusIndicator rows of R69. -/
def ledRows : List Row :=
  [ ⟨0x10, 0x1000000000000000, 0xFFF0F0F0FF000000, fun w =>
      some (.ledCfg (w.extractLsb' 48 4) (w.extractLsb' 40 4) (w.extractLsb' 32 4)
        (w.extractLsb' 0 8) (w.extractLsb' 8 8) (w.extractLsb' 16 8))⟩,
    ⟨0x11, 0x1100000000000000, 0xFF00FFFFFFFFFFFF, fun w => some (.ledColor (w.extractLsb' 48 8))⟩,
    ⟨0x12, 0x1200000000000000, 0xFF00FFFFFFFFFFFF, fun w => some (.ledMode (w.extractLsb' 48 8))⟩,
    ⟨0x13, 0x1300000000000000, 0xFFFFFFFFFFFFFFFF, fun _ => some .ledUpdate⟩,
    ⟨0x14, 0x1400000000000000, 0xFFFFFFFFFFFFFFFF, fun _ => some .ledGetc⟩,
    ⟨0x15, 0x1500000000000000, 0xFFFFFFFFFFFFFFFF, fun _ => some .ledGetn⟩ ]

/-- The RegisterBus rows of R69; `a[7]` is the bus and `a[6:0]` the address of BUS.WR and BUS.RD (R71). -/
def busRows : List Row :=
  [ ⟨0x20, 0x2000000000000000, 0xFFFE000000000000, fun w =>
      some (.busCfg (busOfBit (w.extractLsb' 48 1)) (w.extractLsb' 40 8) (w.extractLsb' 32 8)
        (w.extractLsb' 0 32))⟩,
    ⟨0x21, 0x2100000000000000, 0xFF0000F800000000, fun w =>
      some (.busWr (busOfBit (w.extractLsb' 55 1)) (w.extractLsb' 48 7) (w.extractLsb' 40 8)
        (w.extractLsb' 32 3) (w.extractLsb' 0 32))⟩,
    ⟨0x22, 0x2200000000000000, 0xFF0000F8FFFFFFFF, fun w =>
      some (.busRd (busOfBit (w.extractLsb' 55 1)) (w.extractLsb' 48 7) (w.extractLsb' 40 8)
        (w.extractLsb' 32 3))⟩,
    ⟨0x23, 0x2300000000000000, 0xFFFEFFFFFFFFFFFF, fun w =>
      some (.busScan (busOfBit (w.extractLsb' 48 1)))⟩ ]

/-- The MotorController client rows of R69. -/
def motRows : List Row :=
  [ ⟨0x30, 0x3000000000000000, 0xFFFFFFFFFFFFFFFF, fun _ => some .motVer⟩,
    ⟨0x31, 0x3100000000000000, 0xFFFFFFFFFFFFFFFF, fun _ => some .motRstenc⟩,
    ⟨0x32, 0x3200000000000000, 0xFFFEFFFFFFFFFFFF, fun w =>
      some (.motEnc (sideOfBit (w.extractLsb' 48 1)))⟩,
    ⟨0x33, 0x3300000000000000, 0xFF00FFFFFFFFFFFF, fun w => some (.motMode (w.extractLsb' 48 8))⟩,
    ⟨0x34, 0x3400000000000000, 0xFFFC00FFFFFFFFFF, fun w =>
      (selectorOfBits (w.extractLsb' 48 2)).map fun sel => .motSpin sel (w.extractLsb' 40 8)⟩,
    ⟨0x35, 0x3500000000000000, 0xFFFCFFFFFFFFFFFF, fun w =>
      (selectorOfBits (w.extractLsb' 48 2)).map fun sel => .motStop sel⟩,
    ⟨0x36, 0x3600000000000000, 0xFFFC00FF00000000, fun w =>
      (selectorOfBits (w.extractLsb' 48 2)).map fun sel =>
        .motSpind sel (w.extractLsb' 40 8) (w.extractLsb' 0 32)⟩ ]

/-- The opcode map of R69, seventeen rows. -/
def rows : List Row := ledRows ++ busRows ++ motRows

/-- What one row makes of a word: the mask check of R72, then the separate range checks of R74. -/
def Row.read (r : Row) (w : Word) : Except Reject Instr :=
  if w &&& r.mask = r.pattern then
    match r.operands w with
    | some i => if i.wellFormed then .ok i else .error .reserved
    | none => .error .reserved
  else .error .reserved

/-- The decoder (R69): look the opcode up, then read the word by its row. -/
def decode (w : Word) : Except Reject Instr :=
  match rows.find? (fun r => r.op == opOf w) with
  | some r => r.read w
  | none => .error .undefOp

/-- The instruction the decoder reads from a table word of `nbits` bits. -/
def decodeTableWord (nbits w : Nat) : Option Instr :=
  match decode (BitVec.ofNat 64 (w % 2 ^ nbits)) with
  | .ok i => some i
  | .error _ => none

/-- The five fields of a word side by side (R67). -/
def assemble (op a b c : Byte) (d : BitVec 32) : Word := op ++ a ++ b ++ c ++ d

/-- The one-bit code of a bus id (R70). -/
def BusId.code : BusId → BitVec 1
  | .bus0 => 0
  | .bus1 => 1

/-- The one-bit code of a side (R70). -/
def Side.code : Side → BitVec 1
  | .left => 0
  | .right => 1

/-- The two-bit code of a selector (R70). -/
def Selector.code : Selector → BitVec 2
  | .left => 0
  | .right => 1
  | .both => 2

/-- The word of a command (R67, R70, R71); reserved fields are zero (R72). -/
def encode : Instr → Word
  | .ledCfg idR idG idB pinR pinG pinB =>
      assemble 0x10 (0#4 ++ idR) (0#4 ++ idG) (0#4 ++ idB) (0#8 ++ pinB ++ pinG ++ pinR)
  | .ledColor color => assemble 0x11 color 0 0 0
  | .ledMode mode => assemble 0x12 mode 0 0 0
  | .ledUpdate => assemble 0x13 0 0 0 0
  | .ledGetc => assemble 0x14 0 0 0 0
  | .ledGetn => assemble 0x15 0 0 0 0
  | .busCfg bus sda scl clk => assemble 0x20 (0#7 ++ bus.code) sda scl clk
  | .busWr bus addr reg n value => assemble 0x21 (bus.code ++ addr) reg (0#5 ++ n) value
  | .busRd bus addr reg n => assemble 0x22 (bus.code ++ addr) reg (0#5 ++ n) 0
  | .busScan bus => assemble 0x23 (0#7 ++ bus.code) 0 0 0
  | .motVer => assemble 0x30 0 0 0 0
  | .motRstenc => assemble 0x31 0 0 0 0
  | .motEnc side => assemble 0x32 (0#7 ++ side.code) 0 0 0
  | .motMode mode => assemble 0x33 mode 0 0 0
  | .motSpin sel speed => assemble 0x34 (0#6 ++ sel.code) speed 0 0
  | .motStop sel => assemble 0x35 (0#6 ++ sel.code) 0 0 0
  | .motSpind sel speed dist => assemble 0x36 (0#6 ++ sel.code) speed 0 dist

end Sys2Proof
end

