-- ==== Sys2Proof/Machine/State.lean ====
section
/-! DEFINITION. The state of the block (10_state.md, R20 to R44), the parameters of a run beside it, the reasons a step
can stop (R132), and the state after reset (R42). Plain data throughout. -/

namespace Sys2Proof.Machine

/-- LedMode (R24): OFF = 0, ON = 1, BLINK = 2, CYCLE = 3. No command reads the code back. -/
inductive LedMode
  | off
  | on
  | blink
  | cycle
  deriving DecidableEq, Repr

/-- One LedChannel record `si.chan[k]` (R29). Its `freq` and `res_bits` are constants: `pwmFreq` and `pwmRes` of
the parameters. -/
structure LedChannel where
  id : ChannelId
  pin : Byte
  deriving DecidableEq, Repr

/-- One channel of the PWM register file (R30). `none` is the spec's own state "unwritten": no value, not 0 (R41). -/
structure PwmChannel where
  pin : Option Byte
  duty : Option Byte
  deriving DecidableEq, Repr

/-- A BusDeviceRecord (R35). -/
structure DevRecord where
  addr : Addr7
  label : String
  deriving DecidableEq, Repr

/-- The state of one bus, `rb[b]` (R34, R35, R36). `none` is "unwritten" (R41). -/
structure BusRegs where
  configured : Bool
  sda : Option Byte
  scl : Option Byte
  clk : Option (BitVec 32)
  dev : List DevRecord
  busy : Bool
  deriving DecidableEq, Repr

/-- One reference device of R66 (a fixture of the spec): where it sits, whether it is the reference motor device, its
pointer, and its 256 bytes as a canonical list of cells; an unlisted byte reads as 0 (log 19). -/
structure RefDevice where
  bus : BusId
  addr : Addr7
  motor : Bool
  ptr : Byte
  regs : List Host.Cell
  deriving DecidableEq, Repr

/-- The environment of a run (R52).
`answers` is a finite part of an arbitrary environment written out: the next acknowledge bits and the next read answers,
in the order they are asked for; when a list is used up the uninterpreted oracles of Config answer (log 5).
`reference` is `RefEnv(D)` of R66. -/
inductive Env
  | answers (acks : List Bool) (reads : List (Option (List Byte)))
  | reference (devs : List RefDevice)
  deriving DecidableEq, Repr

/-- What may happen next (R7, R68): a Host step, a firing of the timer, or the reset input. -/
inductive Event
  | host
  | timer
  | reset
  deriving DecidableEq, Repr

/-- Where the Host agent stands (R8). -/
inductive HostPhase
  /-- No command is in progress: the next Host step runs the command at `cp`. -/
  | ready
  /-- A command hangs in a read that is never answered (R54): the Host has no further step (log 7). -/
  | hung
  /-- `MOT.SPIND` hangs in its polls: answers go on coming and none reaches the distance (R118, R130; log 8). -/
  | polling (sel : Selector) (dist : BitVec 32)
  deriving DecidableEq, Repr

/-- The machine. The fields down to `busLog` are the block's (R20); `phase` is the Host agent's status; the rest are
parameters of a run, which no command writes (R21, R52, R10) and the model's own counter `envClock`. -/
@[ext]
structure State where
  /-- `cp` (R21). -/
  cp : Nat
  /-- `res`, 64 bits or unwritten (R22). -/
  res : Option Word
  /-- `si.configured` (R23). -/
  siConfigured : Bool
  /-- `si.mode` (R24). -/
  siMode : LedMode
  /-- `si.color` (R25). -/
  siColor : ColorIx
  /-- `si.ticks` (R26). -/
  siTicks : Nat
  /-- `si.chan[R]`, `si.chan[G]`, `si.chan[B]`, or unwritten (R29). -/
  chanR : Option LedChannel
  chanG : Option LedChannel
  chanB : Option LedChannel
  /-- `pwm[0..15]` (R30): a register for every identifier the encoding has; those at or above `PWM_CHANNELS` are never
  written. -/
  pwm : Vector PwmChannel 16
  /-- `tmr.armed` (R32). -/
  tmrArmed : Bool
  /-- `cs.held` (R33). -/
  csHeld : Bool
  /-- `irq.pending` (R33). -/
  irqPending : Bool
  /-- `rb[0]` and `rb[1]` (R34 to R36). -/
  rb0 : BusRegs
  rb1 : BusRegs
  /-- `bus.log`, in issue order (R37). -/
  busLog : List Transaction
  /-- The Host agent's status (R8). -/
  phase : HostPhase
  /-- The Host's command list `prog` (R7, R21; log 4). -/
  prog : List Word
  /-- Which agent moves at each coming step (R7; log 3). -/
  sched : List Event
  /-- The environment (R52; log 5). -/
  env : Env
  /-- How many transactions were ever issued: the free choice of the oracles (R52; log 6). -/
  envClock : Nat
  /-- The parameters (R10; log 1). -/
  cfg : Config
  deriving DecidableEq, Repr

/-- The one run-time limit of R132. -/
inductive Fault
  /-- `FT_TICK_OVERFLOW`: raised by the Timer step when `si.ticks` stands at `TICK_MAX` (R14, R88). Safe: the model
  stops where a counter of finite width would lose a tick. -/
  | tickOverflow
  deriving DecidableEq, Repr

/-- Why a Host step is refused (R8, R132). Every one is safe: the model stops where the spec gives no meaning. -/
inductive Refusal
  /-- A command whose meaning is not written yet; raised by no arm of `exec` once all have their meaning. -/
  | notModelled (mnemonic : String)
  /-- `RF_UNDEF_OP`: raised by the fetch when the decoder finds no row for the opcode (R73). -/
  | undefOp
  /-- `RF_RESERVED`: raised by the fetch when a reserved field or an operand range is violated (R72, R74), and by the
  meanings of LED.CFG, BUS.WR and BUS.RD on operands outside their legal range. -/
  | reserved
  /-- `RF_NOT_CONFIGURED`: raised by every command that needs `si.configured` or `rb[b].configured` and finds 0. -/
  | notConfigured
  /-- `RF_RECONFIG`: raised by a second LED.CFG, or a second BUS.CFG of the same bus. -/
  | reconfig
  /-- The run is over: the Host has no command at `cp` (R9). Raised by the Host step; no reason of R132 (log 9). -/
  | runOver
  deriving DecidableEq, Repr

/-- A bus after reset (R42). -/
def BusRegs.reset : BusRegs where
  configured := false
  sda := none
  scl := none
  clk := none
  dev := []
  busy := false

/-- The machine right after reset, every element as the table of R42 gives it; the parameters of the run are the
defaults (log 1), the empty command list (log 4), the empty schedule (log 3) and the uninterpreted environment (log 5). -/
def State.reset : State where
  cp := 0
  res := none
  siConfigured := false
  siMode := .off
  siColor := Config.default.white
  siTicks := 0
  chanR := none
  chanG := none
  chanB := none
  pwm := Vector.replicate 16 ⟨none, none⟩
  tmrArmed := false
  csHeld := false
  irqPending := false
  rb0 := BusRegs.reset
  rb1 := BusRegs.reset
  busLog := []
  phase := .ready
  prog := []
  sched := []
  env := .answers [] []
  envClock := 0
  cfg := Config.default

end Sys2Proof.Machine
end

