-- ==== Sys2Proof/Machine/Memory.lean ====
section
/-! DEFINITION. The byte memory of a reference device (R66): 256 bytes held as cells in one canonical form, addresses
strictly rising and no cell equal to what an unlisted address reads as. The block itself has no memory (R45). -/

namespace Sys2Proof.Machine

/-- A byte memory in list form. -/
abbrev Memory := List Host.Cell

/-- What an unlisted byte of a reference device reads as: the vectors' "other registers 0" (R66; log 19). -/
def Memory.unlisted : Byte := 0

/-- The byte at an address. -/
def Memory.read : Memory → Nat → Byte
  | [], _ => Memory.unlisted
  | (k, v) :: m, a => if k = a then v else Memory.read m a

/-- Store a byte, keeping the canonical form: storing what an unlisted address reads as removes the cell. -/
def Memory.write : Memory → Nat → Byte → Memory
  | [], a, v => if v = Memory.unlisted then [] else [(a, v)]
  | (k, w) :: m, a, v =>
      if a < k then
        if v = Memory.unlisted then (k, w) :: m else (a, v) :: (k, w) :: m
      else if a = k then
        if v = Memory.unlisted then m else (a, v) :: m
      else (k, w) :: Memory.write m a v

/-- The canonical form: strictly rising addresses, no cell that says what an unlisted address reads as. -/
abbrev Memory.wf (m : Memory) : Prop :=
  m.Pairwise (fun x y => x.1 < y.1) ∧ ∀ c ∈ m, c.2 ≠ Memory.unlisted

end Sys2Proof.Machine
end

