-- ==== Sys2Proof/Machine/Env.lean ====
section
/-! DEFINITION. How the environment answers transactions (R52), and the reference environment of R66. -/

namespace Sys2Proof.Machine

/-- An answer counts only when it holds exactly `n` bytes (R52: "fewer than `n` bytes" is never satisfied; log 18). -/
def exactly (n : Nat) : Option (List Byte) → Option (List Byte)
  | some bs => if bs.length = n then some bs else none
  | none => none

/-- The device sits at this place of the finite map `D` (R66). -/
def RefDevice.at (d : RefDevice) (b : BusId) (a : Addr7) : Bool := d.bus == b && d.addr == a

/-- Clear the four bytes of an encoder (R66). -/
def clearEncoder (regs : Memory) (base : Byte) : Memory :=
  (List.range 4).foldl (fun m i => Memory.write m (base.toNat + i) 0) regs

/-- Store one byte at the pointer and advance it, mod 256; on the motor device, storing `CMD_RESET_ENC` at
`REG_COMMAND` zeroes both encoders (R66). -/
def RefDevice.store (cfg : Config) (d : RefDevice) (v : Byte) : RefDevice :=
  let regs := Memory.write d.regs d.ptr.toNat v
  { d with
    regs :=
      if d.motor && d.ptr == cfg.regCommand && v == cfg.cmdResetEnc then
        clearEncoder (clearEncoder regs cfg.regEnc1) cfg.regEnc2
      else regs
    ptr := d.ptr + 1 }

/-- An acknowledged write `[r] ++ vs`: set the pointer, then store each byte; an empty write changes nothing (R66). -/
def RefDevice.receive (cfg : Config) (d : RefDevice) : List Byte → RefDevice
  | [] => d
  | r :: vs => vs.foldl (RefDevice.store cfg) { d with ptr := r }

/-- The next `n` bytes from the pointer, indices mod 256 (R66). -/
def RefDevice.supply (d : RefDevice) (n : Nat) : List Byte :=
  (List.range n).map fun i => Memory.read d.regs ((d.ptr.toNat + i) % 256)

/-- The pointer after a read of `n` bytes (R66). -/
def RefDevice.advance (d : RefDevice) (n : Nat) : RefDevice := { d with ptr := d.ptr + BitVec.ofNat 8 n }

/-- `Env.ack` (R52) with the environment after it: whether a device acknowledges a write of `bs` to `a` on `b`. -/
def Env.write (cfg : Config) (clock : Nat) (log : List Transaction) (b : BusId) (a : Addr7) (bs : List Byte) :
    Env → Bool × Env
  | .answers (k :: acks) reads => (k, .answers acks reads)
  | .answers [] reads => (Config.envAck clock b a bs log, .answers [] reads)
  | .reference devs =>
      (devs.any fun d => d.at b a, .reference (devs.map fun d => if d.at b a then d.receive cfg bs else d))

/-- `Env.read` (R52) with the environment after it: the `n` bytes supplied, or none. -/
def Env.read (clock : Nat) (log : List Transaction) (b : BusId) (a : Addr7) (n : Nat) :
    Env → Option (List Byte) × Env
  | .answers acks (x :: reads) => (exactly n x, .answers acks reads)
  | .answers acks [] => (exactly n (Config.envRead clock b a n log), .answers acks [])
  | .reference devs =>
      ((devs.find? fun d => d.at b a).map fun d => d.supply n,
       .reference (devs.map fun d => if d.at b a then d.advance n else d))

end Sys2Proof.Machine
end

