-- ==== Sys2Proof/Machine/Operands.lean ====
section
/-! DEFINITION. The arithmetic and lookups the command rules share (R12, R14 to R19, R27, R28, R38, R90, R111, R118). -/

namespace Sys2Proof.Machine

/-- `be_val(bs)`: the first byte is the most significant (R12, R15). -/
def beVal (bs : List Byte) : Nat := bs.foldl (fun acc b => acc * 256 + b.toNat) 0

/-- `be_bytes(v, n)`: the `n` bytes of `v`, most significant first (R12, R15). -/
def beBytes (v : Nat) : Nat → List Byte
  | 0 => []
  | n + 1 => BitVec.ofNat 8 (v / 256 ^ n) :: beBytes v n

/-- `s32(v)`: the signed reading of a 32-bit pattern (R12, R16). -/
def s32 (v : BitVec 32) : Int := v.toInt

/-- `zext_64(v)` of a value below 2^64 (R12). -/
def zext64 (v : Nat) : Word := BitVec.ofNat 64 v

/-- `sext_64(v)`: the 64-bit pattern of the same signed value (R12). -/
def sext64 (v : BitVec 32) : Word := BitVec.ofInt 64 (s32 v)

/-- The distance test of `MOT.SPIND`: `|s32(v)| ≥ dist` in unbounded integers (R19). -/
def reached (v dist : BitVec 32) : Bool := decide (dist.toNat ≤ (s32 v).natAbs)

/-- An answer that leaves a blocking spin short of its distance; one that reaches it does not count (R118; log 8). -/
def onlyShort (dist : BitVec 32) : Option (List Byte) → Option (List Byte)
  | some bs => if reached (BitVec.ofNat 32 (beVal bs)) dist then none else some bs
  | none => none

/-- `clamp(c)` (R17). -/
def clamp (cfg : Config) (c : ColorIx) : ColorIx :=
  if c.toNat < cfg.colorCount then c else cfg.white

/-- `COLOR_TABLE[c]` and `COLOR_NAME[c]` (R27, R28). Outside the table there is no entry; no rule looks there in a
valid configuration (log 13). -/
def colorEntry (cfg : Config) (c : ColorIx) : ColorEntry :=
  cfg.colors.getD c.toNat ⟨"", ⟨0, 0, 0⟩⟩

/-- `T(c)` (R27). -/
def duties (cfg : Config) (c : ColorIx) : Duty := (colorEntry cfg c).duty

/-- `cycleNext(c)` (R18): the member after `c`, wrapping after the last; the first member from outside the order. -/
def cycleNext (cfg : Config) (c : ColorIx) : ColorIx :=
  if c ∈ cfg.cycleOrder then
    cfg.cycleOrder.getD ((cfg.cycleOrder.idxOf c + 1) % cfg.cycleOrder.length) c
  else cfg.cycleOrder.headD c

/-- `blinkNext(c)` (R18). -/
def blinkNext (cfg : Config) (c : ColorIx) : ColorIx :=
  if c = cfg.blinkA then cfg.blinkB else cfg.blinkA

/-- `pack8(s)` (R90): the first character in the most significant byte, the rest filled with zero bytes. -/
def pack8 (s : String) : Word :=
  zext64 (beVal (((s.toList.map fun ch => BitVec.ofNat 8 ch.toNat) ++ List.replicate 8 0#8).take 8))

/-- `label(a)` (R38). -/
def label (cfg : Config) (a : Addr7) : String := (cfg.knownDevices.lookup a).getD cfg.unknownLabel

/-- The addresses `BUS.SCAN` probes, `SCAN_FIRST` to `SCAN_LAST`, ascending (R47, R102). -/
def scanAddrs (cfg : Config) : List Addr7 :=
  (List.range' cfg.scanFirst (cfg.scanLast + 1 - cfg.scanFirst)).map (BitVec.ofNat 7)

/-- A channel identifier names one of the `PWM_CHANNELS` channels (R10, R74). -/
def channelExists (cfg : Config) (ch : ChannelId) : Bool := decide (ch.toNat < cfg.pwmChannels)

/-- `encReg(side)` (R111). -/
def encReg (cfg : Config) : Side → Byte
  | .left => cfg.regEnc1
  | .right => cfg.regEnc2

/-- The encoder a blocking spin polls: the right one for RIGHT, the left one otherwise (R118). -/
def polledSide : Selector → Side
  | .left => .left
  | .right => .right
  | .both => .left

/-- The mode value a spin writes: single for one side, combined for both (R116). -/
def spinMode (cfg : Config) : Selector → Byte
  | .left => cfg.modeSingle
  | .right => cfg.modeSingle
  | .both => cfg.modeCombined

/-- The speed register a spin writes: 1 for LEFT and for BOTH, 2 for RIGHT (R116). -/
def spinReg (cfg : Config) : Selector → Byte
  | .left => cfg.regSpeed1
  | .right => cfg.regSpeed2
  | .both => cfg.regSpeed1

end Sys2Proof.Machine
end

