-- ==== Sys2Proof/Machine/Flags.lean ====
section
/-! DEFINITION. The block has no status flags, no condition codes and no error register (R40); no command computes one.
What stands in their place are the indications a model observes: the busy output (R68) and the LED output (R31). -/

namespace Sys2Proof.Machine

/-- The busy indication (R68): from acceptance of a command until its step is done; a hung command leaves it on. -/
def State.busyPort (s : State) : Bool := s.phase != .ready

/-- The duty register of the channel a colour component goes to; none when unwritten (R30, R31). -/
def State.dutyOf (s : State) : Option LedChannel → Option Byte
  | none => none
  | some ch => (s.pwm[ch.id.toNat]'ch.id.isLt).duty

/-- `LedOut` (R31): the red, green and blue duty, each a byte or unwritten. -/
def State.ledOut (s : State) : Option Byte × Option Byte × Option Byte :=
  (s.dutyOf s.chanR, s.dutyOf s.chanG, s.dutyOf s.chanB)

/-- The `LedOut` that shows a duty triple (R27, R31). -/
def shown (t : Duty) : Option Byte × Option Byte × Option Byte := (some t.r, some t.g, some t.b)

end Sys2Proof.Machine
end

