-- ==== Sys2Proof/Machine/Ops.lean ====
section
/-! DEFINITION. The operations every command and event is built from: ending a step, the result register, the PWM
registers, `apply`, the bus transactions and register accesses, the interrupt with its critical section, reset. -/

namespace Sys2Proof.Machine

/-- What a step answers (R8). -/
abbrev Result := Host.Outcome State Fault Refusal

/-- Go on from a next state; a fault or a refusal ends the step. -/
def Result.andThen (r : Result) (f : State → Result) : Result :=
  match r with
  | .next s => f s
  | .fault e => .fault e
  | .refused e => .refused e

/-! ### Ending a step -/

/-- `cp <- cp + 1`, implicit at the end of every done step (R12, R21). -/
def State.advance (s : State) : State := { s with cp := s.cp + 1 }

/-- The outcome `done` (R8). -/
def done (s : State) : Result := .next s.advance

/-- The outcome `hang` (R8): `cp` does not advance, the Host has no further step, the run goes on (log 7). -/
def hang (s : State) : Result := .next { s with phase := .hung }

/-! ### Registers -/

/-- `res <- v` (R12, R22). -/
def State.setRes (s : State) (v : Word) : State := { s with res := some v }

/-- The registers of a bus (R34). -/
def State.bus (s : State) : BusId → BusRegs
  | .bus0 => s.rb0
  | .bus1 => s.rb1

/-- Write the registers of a bus (R34). -/
def State.setBus (s : State) (b : BusId) (r : BusRegs) : State :=
  match b with
  | .bus0 => { s with rb0 := r }
  | .bus1 => { s with rb1 := r }

/-- One channel of the PWM register file (R30). -/
def State.pwmAt (s : State) (ch : ChannelId) : PwmChannel := s.pwm[ch.toNat]'ch.isLt

/-- Write one channel of the PWM register file (R30). -/
def State.setPwm (s : State) (ch : ChannelId) (p : PwmChannel) : State :=
  { s with pwm := s.pwm.set ch.toNat p ch.isLt }

/-- `pwm[ch].pin <- pin` (R81). -/
def State.setPin (s : State) (ch : ChannelId) (pin : Byte) : State :=
  s.setPwm ch { s.pwmAt ch with pin := some pin }

/-- `pwm[si.chan[k].id].duty <- d` (R82). An unwritten channel record names no register; no command reaches this with
one, since a configured block has all three (R41; log 13). -/
def State.setDuty (s : State) (chan : Option LedChannel) (d : Byte) : State :=
  match chan with
  | none => s
  | some ch => s.setPwm ch.id { s.pwmAt ch.id with duty := some d }

/-! ### The LED -/

/-- Write a triple to the three LED duty registers: red, green, blue (R82, R84). -/
def State.show (s : State) (t : Duty) : State :=
  ((s.setDuty s.chanR t.r).setDuty s.chanG t.g).setDuty s.chanB t.b

/-- `apply(c)` (R82): clamp the index, write the three duty registers, record the index. -/
def State.apply (s : State) (c : ColorIx) : State :=
  { s.show (duties s.cfg (clamp s.cfg c)) with siColor := clamp s.cfg c }

/-- The precondition of LED.COLOR, LED.MODE, LED.GETC and LED.GETN (R80). -/
def whenLedConfigured (s : State) (k : Result) : Result :=
  if s.siConfigured then k else .refused .notConfigured

/-! ### Bus transactions -/

/-- The precondition of every BUS and MOT command but BUS.CFG (R96, R110). -/
def whenBusConfigured (s : State) (b : BusId) (k : Result) : Result :=
  if (s.bus b).configured then k else .refused .notConfigured

/-- The environment's part in a write: no acknowledge from a bus that is not functional (R53, R55). -/
def State.envWrite (s : State) (b : BusId) (a : Addr7) (bs : List Byte) : Bool × Env :=
  if s.cfg.busOk b then s.env.write s.cfg s.envClock s.busLog b a bs else (false, s.env)

/-- The environment's part in a read: never an answer from a bus that is not functional (R54, R55). -/
def State.envRead (s : State) (b : BusId) (a : Addr7) (n : Nat) : Option (List Byte) × Env :=
  if s.cfg.busOk b then s.env.read s.envClock s.busLog b a n else (none, s.env)

/-- Append a transaction record to `bus.log` (R50), with the environment after it; the count of transactions goes up
(log 6). -/
def State.logged (s : State) (t : Transaction) (e : Env) : State :=
  { s with
    busLog := s.busLog ++ [t]
    env := e
    envClock := s.envClock + 1 }

/-- `rb[b].busy <- 1` (R54). -/
def State.markBusy (s : State) (b : BusId) : State := s.setBus b { s.bus b with busy := true }

/-- `BusWrite(b, a, bs)` (R53): the acknowledge bit, and the state with the record appended. -/
def busWrite (b : BusId) (a : Addr7) (bs : List Byte) (s : State) : Bool × State :=
  ((s.envWrite b a bs).1, s.logged (.write b a bs (s.envWrite b a bs).1) (s.envWrite b a bs).2)

/-- Take the environment's part in a read request: append the record, and with no answer leave the bus busy (R54). -/
def State.takeAnswer (s : State) (b : BusId) (a : Addr7) (n : Nat) (x : Option (List Byte)) (e : Env) :
    Option (List Byte) × State :=
  match x with
  | some bs => (some bs, s.logged (.read b a n (some bs)) e)
  | none => (none, (s.logged (.read b a n none) e).markBusy b)

/-- `BusRead(b, a, n)` (R54): the bytes, and the state with the record appended; with no answer the bus stays busy. -/
def busRead (b : BusId) (a : Addr7) (n : Nat) (s : State) : Option (List Byte) × State :=
  s.takeAnswer b a n (s.envRead b a n).1 (s.envRead b a n).2

/-- `RegWrite(b, a, r, n, v)` (R98): selector, then the value most significant byte first; the acknowledge is
discarded. -/
def regWrite (b : BusId) (a : Addr7) (r : Byte) (n v : Nat) (s : State) : State :=
  (busWrite b a (r :: beBytes v n) s).2

/-- `RegRead(b, a, r, n)` (R100): the selector write, its acknowledge discarded, then the read request. -/
def regRead (b : BusId) (a : Addr7) (r : Byte) (n : Nat) (s : State) : Option Nat × State :=
  let q := busRead b a n (busWrite b a [r] s).2
  (q.1.map beVal, q.2)

/-- Go on with the value of a register read, or hang (R54, R100). -/
def withRead (q : Option Nat × State) (k : Nat → State → Result) : Result :=
  match q.1 with
  | some v => k v q.2
  | none => hang q.2

/-- The probes of `BUS.SCAN` over a list of addresses (R102): the records found, and the state after them. -/
def scanOver (b : BusId) : List Addr7 → State → List DevRecord × State
  | [], s => ([], s)
  | a :: as, s =>
      let w := busWrite b a [] s
      let rest := scanOver b as w.2
      (if w.1 then ⟨a, label s.cfg a⟩ :: rest.1 else rest.1, rest.2)

/-! ### The motor device -/

/-- `MW(r, v)` (R111): one value byte to a register of the motor device. -/
def motorWrite (r v : Byte) (s : State) : State :=
  regWrite s.cfg.motorBus s.cfg.motorAddr r 1 v.toNat s

/-- `MR(r, n)` (R111). -/
def motorRead (r : Byte) (n : Nat) (s : State) : Option Nat × State :=
  regRead s.cfg.motorBus s.cfg.motorAddr r n s

/-- The two writes of a spin, mode then speed (R116). -/
def spinPair (sel : Selector) (speed : Byte) (s : State) : State :=
  motorWrite (spinReg s.cfg sel) speed (motorWrite s.cfg.regMode (spinMode s.cfg sel) s)

/-- `MOT.SPIND` hangs in its polls: the bus stays busy (R36, R118). -/
def State.stall (s : State) (sel : Selector) (dist : BitVec 32) : State :=
  { s.markBusy s.cfg.motorBus with phase := .polling sel dist }

/-- The polls of a blocking spin (R118), one and at most `n` more: when an answer reaches the distance the stop pair follows
and the command is done; a read that is never answered hangs; and when all of them fall short the command hangs in its
polls (log 8). -/
def spinPolls (sel : Selector) (dist : BitVec 32) (n : Nat) (s : State) : Result :=
  withRead (motorRead (encReg s.cfg (polledSide sel)) 4 s) fun v t =>
    if reached (BitVec.ofNat 32 v) dist then done (spinPair sel t.cfg.stopSpeed t)
    else
      match n with
      | 0 => .next (t.stall sel dist)
      | n + 1 => spinPolls sel dist n t

/-- How many polls after the first a blocking spin makes in its step if none ends it: every answer the environment holds
written out, and a free number of the uninterpreted ones; a reference device answers every poll alike (R66; log 8). -/
def State.pollsBeforeHang (s : State) : Nat :=
  match s.env with
  | .answers _ reads => Config.envPolls s.envClock s.busLog + reads.length
  | .reference _ => 0

/-- A Host turn while `MOT.SPIND` hangs in its polls (R118): one more poll, whose answer falls short, or never comes. The
command is never done (R8); an answer that reaches the distance is none of this environment's (log 8). -/
def pollAgain (sel : Selector) (dist : BitVec 32) (s : State) : Result :=
  let w := (busWrite s.cfg.motorBus s.cfg.motorAddr [encReg s.cfg (polledSide sel)] s).2
  let x := w.envRead s.cfg.motorBus s.cfg.motorAddr 4
  let q := w.takeAnswer s.cfg.motorBus s.cfg.motorAddr 4 (onlyShort dist x.1) x.2
  match q.1 with
  | some _ => .next q.2
  | none => hang q.2

/-! ### The interrupt and its critical section (the block's only exception; R133 to R137) -/

/-- `cs.held <- 1` (R61). -/
def State.enterCs (s : State) : State := { s with csHeld := true }

/-- `tick()` (R61, R88): the whole of the interrupt's entry, handler and return (R136, R137). It saves nothing and
touches `si.ticks` only, under the critical section; at `TICK_MAX` it faults instead of wrapping (R14; log 11). -/
def tick (s : State) : Result :=
  if s.cfg.tickMax ≤ s.siTicks then .fault .tickOverflow
  else
    let h := s.enterCs
    .next { h with siTicks := h.siTicks + 1, csHeld := false }

/-- A timer expiry (R61, R134): while the critical section is held it is latched in `irq.pending`, otherwise the
handler runs (log 12). -/
def timerExpiry (s : State) : Result :=
  if s.csHeld then .next { s with irqPending := true } else tick s

/-- The end of the main context's critical section (R61, R134): a latched expiry is served at once, which clears the
latch. -/
def leaveCs (s : State) : Result :=
  if s.irqPending then tick { s with csHeld := false, irqPending := false } else .next { s with csHeld := false }

/-- `drainOne()` (R61): the main context's decrement under the critical section. -/
def drainOne (s : State) : Result :=
  let h := s.enterCs
  leaveCs { h with siTicks := h.siTicks - 1 }

/-! ### Reset -/

/-- The reset input (R68, R145): every state element at its reset value. The devices are not reset (R146), and the
command list, the rest of the schedule and the parameters are no state of the block (R20; log 10). -/
def State.assertReset (s : State) : State :=
  { State.reset with
    siColor := s.cfg.white
    prog := s.prog
    sched := s.sched
    env := s.env
    envClock := s.envClock
    cfg := s.cfg }

end Sys2Proof.Machine
end

