-- ==== Sys2Proof/Machine/Bus.lean ====
section
/-! DEFINITION. The RegisterBus commands (41_register_bus.md). -/

namespace Sys2Proof.Machine

/-- `BUS.CFG` (R97): once per bus; the pins and the clock are stored unchecked, no transaction is issued. -/
def execBusCfg (b : BusId) (sda scl : Byte) (clk : BitVec 32) (s : State) : Result :=
  if (s.bus b).configured then .refused .reconfig
  else
    done (s.setBus b { s.bus b with
      sda := some sda
      scl := some scl
      clk := some clk
      configured := true })

/-- `BUS.WR` (R99): one write transaction; it always completes. -/
def execBusWr (b : BusId) (a : Addr7) (r : Byte) (n : BitVec 3) (value : BitVec 32) (s : State) : Result :=
  if byteCountLegal s.cfg.busMaxBytes n && valueFits n value then
    whenBusConfigured s b (done (regWrite b a r n.toNat value.toNat s))
  else .refused .reserved

/-- `BUS.RD` (R101): two transactions; the value zero-extended into `res`, or a hang. -/
def execBusRd (b : BusId) (a : Addr7) (r : Byte) (n : BitVec 3) (s : State) : Result :=
  if byteCountLegal s.cfg.busMaxBytes n then
    whenBusConfigured s b <|
      withRead (regRead b a r n.toNat s) fun v t => done (t.setRes (zext64 v))
  else .refused .reserved

/-- `BUS.SCAN` (R102): one zero-length write to each address of the range; the table replaced whole, the count in `res`. -/
def execBusScan (b : BusId) (s : State) : Result :=
  whenBusConfigured s b <|
    let r := scanOver b (scanAddrs s.cfg) s
    done ((r.2.setBus b { r.2.bus b with dev := r.1 }).setRes (zext64 r.1.length))

end Sys2Proof.Machine
end

