-- ==== Sys2Proof/Machine/Led.lean ====
section
/-! DEFINITION. The StatusIndicator commands (40_status_indicator.md). None touches a bus and none can hang (R80, R93). -/

namespace Sys2Proof.Machine

/-- `LED.CFG` (R81): legality of the operands first, then the second configuration (R132). -/
def execLedCfg (idR idG idB : ChannelId) (pinR pinG pinB : Byte) (s : State) : Result :=
  if idsDistinct idR idG idB && [idR, idG, idB].all (channelExists s.cfg) then
    if s.siConfigured then .refused .reconfig
    else
      done { ((s.setPin idR pinR).setPin idG pinG).setPin idB pinB with
        chanR := some ⟨idR, pinR⟩
        chanG := some ⟨idG, pinG⟩
        chanB := some ⟨idB, pinB⟩
        siConfigured := true
        tmrArmed := true }
  else .refused .reserved

/-- `LED.COLOR` (R83): applied at once, in every mode; an index outside the table shows WHITE. -/
def execLedColor (c : ColorIx) (s : State) : Result :=
  whenLedConfigured s (done (s.apply c))

/-- `LED.MODE` (R84): ON and BLINK show the stored colour, CYCLE does nothing at once, OFF and every other
code blank the LED if `OFF_BLANKS` and keep the stored colour. -/
def execLedMode (m : Byte) (s : State) : Result :=
  whenLedConfigured s <|
    if m = s.cfg.ledOn then done { s.apply s.siColor with siMode := .on }
    else if m = s.cfg.ledBlink then done { s.apply s.siColor with siMode := .blink }
    else if m = s.cfg.ledCycle then done { s with siMode := .cycle }
    else
      let t := if s.cfg.offBlanks then s.show (duties s.cfg s.cfg.black) else s
      done { t with siMode := .off }

/-- The dispatch of a productive update over the current mode (R85, R86). -/
def updateLed (s : State) : State :=
  match s.siMode with
  | .blink => s.apply (blinkNext s.cfg s.siColor)
  | .cycle => s.apply (cycleNext s.cfg s.siColor)
  | .on => s
  | .off => s

/-- `LED.UPDATE` (R86): with a tick owed, dispatch and then drain exactly one; otherwise no state change. -/
def execLedUpdate (s : State) : Result :=
  if 0 < s.siTicks then (drainOne (updateLed s)).andThen done else done s

/-- `LED.GETC` (R89). -/
def execLedGetc (s : State) : Result :=
  whenLedConfigured s (done (s.setRes (zext64 s.siColor.toNat)))

/-- `LED.GETN` (R90). -/
def execLedGetn (s : State) : Result :=
  whenLedConfigured s (done (s.setRes (pack8 (colorEntry s.cfg s.siColor).name)))

end Sys2Proof.Machine
end

