-- ==== Sys2Proof/Machine/Motor.lean ====
section
/-! DEFINITION. The MotorController client commands (42_motor_client.md): composite register accesses on the motor
device's bus and address. The block keeps no state for them (R39). -/

namespace Sys2Proof.Machine

/-- `MOT.VER` (R112). -/
def execMotVer (s : State) : Result :=
  whenBusConfigured s s.cfg.motorBus <|
    withRead (motorRead s.cfg.regVersion 1 s) fun v t => done (t.setRes (zext64 v))

/-- `MOT.RSTENC` (R113). -/
def execMotRstenc (s : State) : Result :=
  whenBusConfigured s s.cfg.motorBus (done (motorWrite s.cfg.regCommand s.cfg.cmdResetEnc s))

/-- `MOT.ENC` (R114): four bytes, sign-extended into `res`. -/
def execMotEnc (side : Side) (s : State) : Result :=
  whenBusConfigured s s.cfg.motorBus <|
    withRead (motorRead (encReg s.cfg side) 4 s) fun v t => done (t.setRes (sext64 (BitVec.ofNat 32 v)))

/-- `MOT.MODE` (R115): the byte is written unchecked. -/
def execMotMode (m : Byte) (s : State) : Result :=
  whenBusConfigured s s.cfg.motorBus (done (motorWrite s.cfg.regMode m s))

/-- `MOT.SPIN` (R116): mode, then speed, as one command. -/
def execMotSpin (sel : Selector) (speed : Byte) (s : State) : Result :=
  whenBusConfigured s s.cfg.motorBus (done (spinPair sel speed s))

/-- `MOT.STOP` (R117): the step of MOT.SPIN with `STOP_SPEED`. -/
def execMotStop (sel : Selector) (s : State) : Result :=
  whenBusConfigured s s.cfg.motorBus (done (spinPair sel s.cfg.stopSpeed s))

/-- `MOT.SPIND` (R118): reset the encoders, spin, then poll until the distance is reached, all in one step (R62), or hang. -/
def execMotSpind (sel : Selector) (speed : Byte) (dist : BitVec 32) (s : State) : Result :=
  whenBusConfigured s s.cfg.motorBus <|
    let t := spinPair sel speed (motorWrite s.cfg.regCommand s.cfg.cmdResetEnc s)
    spinPolls sel dist t.pollsBeforeHang t

end Sys2Proof.Machine
end

