-- ==== Sys2Proof/Machine/Dispatch.lean ====
section
/-! DEFINITION. One arm per command: its meaning. -/

namespace Sys2Proof.Machine

def exec (i : Instr) (s : State) : Host.Outcome State Fault Refusal :=
  match i with
  -- StatusIndicator
  | .ledCfg idR idG idB pinR pinG pinB => Sys2Proof.Machine.execLedCfg idR idG idB pinR pinG pinB s
  | .ledColor color => Sys2Proof.Machine.execLedColor color s
  | .ledMode mode => Sys2Proof.Machine.execLedMode mode s
  | .ledUpdate => Sys2Proof.Machine.execLedUpdate s
  | .ledGetc => Sys2Proof.Machine.execLedGetc s
  | .ledGetn => Sys2Proof.Machine.execLedGetn s
  -- RegisterBus
  | .busCfg bus sda scl clk => Sys2Proof.Machine.execBusCfg bus sda scl clk s
  | .busWr bus addr reg n value => Sys2Proof.Machine.execBusWr bus addr reg n value s
  | .busRd bus addr reg n => Sys2Proof.Machine.execBusRd bus addr reg n s
  | .busScan bus => Sys2Proof.Machine.execBusScan bus s
  -- MotorController client
  | .motVer => Sys2Proof.Machine.execMotVer s
  | .motRstenc => Sys2Proof.Machine.execMotRstenc s
  | .motEnc side => Sys2Proof.Machine.execMotEnc side s
  | .motMode mode => Sys2Proof.Machine.execMotMode mode s
  | .motSpin sel speed => Sys2Proof.Machine.execMotSpin sel speed s
  | .motStop sel => Sys2Proof.Machine.execMotStop sel s
  | .motSpind sel speed dist => Sys2Proof.Machine.execMotSpind sel speed dist s

end Sys2Proof.Machine
end

