-- ==== Sys2Proof/Machine/Agents.lean ====
section
/-! DEFINITION. The agents of R7: which event comes next, the Host's step, and how a command word is placed where the
Host takes its next one. -/

namespace Sys2Proof.Machine

/-- The event that comes next; with the schedule used up the Host moves (log 3). -/
def State.nextEvent (s : State) : Event := s.sched.headD .host

/-- The state once its next event is taken from the schedule. -/
def State.popEvent (s : State) : State := { s with sched := s.sched.tail }

/-- The command word at `cp` (R21). -/
def State.fetch (s : State) : Option Word := s.prog[s.cp]?

/-- Run the command a word encodes, or refuse it by name (R72, R73, R132). -/
def runWord (w : Word) (s : State) : Result :=
  match decode w with
  | .ok i => exec i s
  | .error .undefOp => .refused .undefOp
  | .error .reserved => .refused .reserved

/-- One Host step (R7, R8). A Host hung in a read stays as it is, busy-polling (log 7); one hung in the polls of `MOT.SPIND`
polls once more (R118; log 8); with no command left the run is over (R9; log 9). -/
def hostStep (s : State) : Result :=
  match s.phase with
  | .hung => .next s
  | .polling sel dist => pollAgain sel dist s
  | .ready =>
      match s.fetch with
      | some w => runWord w s
      | none => .refused .runOver

/-- What the event does once it is taken. The Timer moves only while it is armed (R88); when it is not, there is no
such step and the Host moves (log 3). -/
def runEvent (e : Event) (s : State) : Result :=
  match e with
  | .host => hostStep s
  | .timer => if s.tmrArmed then timerExpiry s else hostStep s
  | .reset => .next s.assertReset

/-- Put a command word at `cp`, with no command in progress and the Host to move next (log 4). -/
def State.placeWord (s : State) (w : Word) : State :=
  { s with
    prog := s.prog.take s.cp ++ List.replicate (s.cp - s.prog.length) 0 ++ [w] ++ s.prog.drop (s.cp + 1)
    sched := .host :: s.sched
    phase := .ready }

end Sys2Proof.Machine
end

