-- ==== Sys2Proof/Safety.lean ====
section
/-! DEFINITION. What claims speak of: a block whose LED is configured, the invariants of R44, and what a run counts. -/

namespace Sys2Proof.Machine

/-- The LED is configured with these three channels, on pairwise distinct identifiers (R29, R81). -/
def LedReady (s : State) (r g b : LedChannel) : Prop :=
  s.siConfigured = true ∧ s.chanR = some r ∧ s.chanG = some g ∧ s.chanB = some b ∧
  r.id ≠ g.id ∧ r.id ≠ b.id ∧ g.id ≠ b.id

/-- From `s` to `t` the PWM registers change in the duty of these three channels only (R30). -/
def OnlyDuties (s t : State) (r g b : LedChannel) : Prop :=
  ∀ ch : ChannelId, (t.pwmAt ch).pin = (s.pwmAt ch).pin ∧
    (ch ≠ r.id → ch ≠ g.id → ch ≠ b.id → t.pwmAt ch = s.pwmAt ch)

/-- The channel records and the PWM registers (R30, R41, R44): before `LED.CFG` all unwritten; after it three records on
distinct channels of the `PWM_CHANNELS`, whose pins are bound, the three LED duties all unwritten or all written, every
other channel unwritten. -/
def LedWired (s : State) : Prop :=
  (s.siConfigured = false ∧ s.chanR = none ∧ s.chanG = none ∧ s.chanB = none ∧
    ∀ ch : ChannelId, s.pwmAt ch = ⟨none, none⟩) ∨
  ∃ r g b, LedReady s r g b ∧
    channelExists s.cfg r.id = true ∧ channelExists s.cfg g.id = true ∧ channelExists s.cfg b.id = true ∧
    (s.pwmAt r.id).pin = some r.pin ∧ (s.pwmAt g.id).pin = some g.pin ∧ (s.pwmAt b.id).pin = some b.pin ∧
    (s.ledOut = (none, none, none) ∨ ∃ t, s.ledOut = shown t) ∧
    ∀ ch : ChannelId, ch ≠ r.id → ch ≠ g.id → ch ≠ b.id → s.pwmAt ch = ⟨none, none⟩

/-- A device table (R35): addresses strictly ascending, each in `SCAN_FIRST`..`SCAN_LAST`, at most as many records as that
range has addresses (112 by default). -/
abbrev DevTableOk (cfg : Config) (l : List DevRecord) : Prop :=
  l.Pairwise (fun x y => x.addr.toNat < y.addr.toNat) ∧
  (∀ x ∈ l, cfg.scanFirst ≤ x.addr.toNat ∧ x.addr.toNat ≤ cfg.scanLast) ∧
  l.length ≤ cfg.scanLast + 1 - cfg.scanFirst

/-- A bus that is not configured has every register unwritten and has never been used (R34, R41, R96). -/
abbrev BusFresh (r : BusRegs) : Prop :=
  r.configured = false → r.sda = none ∧ r.scl = none ∧ r.clk = none ∧ r.dev = [] ∧ r.busy = false

/-- The invariants of R44, with those R30, R35, R36, R41 and R88 state beside it. -/
structure Invariant (s : State) : Prop where
  /-- The parameters meet the constraints of 92_eei_decisions.md. -/
  validConfig : s.cfg.Valid
  /-- `0 ≤ si.ticks ≤ TICK_MAX`. -/
  ticksBounded : s.siTicks ≤ s.cfg.tickMax
  /-- `si.color < COLOR_COUNT`. -/
  colorInTable : s.siColor.toNat < s.cfg.colorCount
  /-- `tmr.armed = si.configured`. -/
  armedIffConfigured : s.tmrArmed = s.siConfigured
  /-- `si.ticks > 0` implies `si.configured = 1` (R86). -/
  noTicksBeforeConfig : s.siConfigured = false → s.siTicks = 0
  ledWired : LedWired s
  devTable0 : DevTableOk s.cfg s.rb0.dev
  devTable1 : DevTableOk s.cfg s.rb1.dev
  busFresh0 : BusFresh s.rb0
  busFresh1 : BusFresh s.rb1
  /-- `cs.held = irq.pending = 0`. -/
  hiddenClear : s.csHeld = false ∧ s.irqPending = false
  /-- A bus is busy exactly while the Host hangs, in a read or in the polls of `MOT.SPIND` (R36); never both (R155). -/
  busyIffHangs : (s.rb0.busy = true ∨ s.rb1.busy = true) ↔ s.phase ≠ .ready
  oneBusy : ¬ (s.rb0.busy = true ∧ s.rb1.busy = true)
  /-- A blocking spin hangs in its polls on a configured bus, which it keeps busy. -/
  pollingBus : ∀ sel dist, s.phase = .polling sel dist →
    (s.bus s.cfg.motorBus).configured = true ∧ (s.bus s.cfg.motorBus).busy = true
  /-- The memories of the reference devices are in canonical form. -/
  envCanonical : ∀ devs, s.env = .reference devs → ∀ d ∈ devs, Memory.wf d.regs

/-- The next step is a TICK (R88). -/
def tickNext (s : State) : Bool := s.nextEvent == .timer && s.tmrArmed

/-- The next step is the Host's (R7). -/
def hostNext (s : State) : Bool := s.nextEvent == .host || (s.nextEvent == .timer && !s.tmrArmed)

/-- The next step runs `LED.UPDATE`. -/
def updateNext (s : State) : Bool :=
  hostNext s && s.phase == .ready &&
    (match s.fetch with
      | some w => (match decode w with
        | .ok i => i == .ledUpdate
        | .error _ => false)
      | none => false)

/-- The next step is a productive `LED.UPDATE`: one that finds `si.ticks > 0` (R91). -/
def drainNext (s : State) : Bool := updateNext s && decide (0 < s.siTicks)

/-- How many of the next `k` steps start in a state with the property. -/
def countSteps (p : State → Bool) : Nat → State → Nat
  | 0, _ => 0
  | k + 1, s =>
      (if p s then 1 else 0) +
        (match step s with
          | .next t => countSteps p k t
          | .fault _ => 0
          | .refused _ => 0)

/-- The reset input is not asserted in the next `k` steps. -/
def NoReset (k : Nat) (s : State) : Prop := ∀ e ∈ s.sched.take k, e ≠ .reset

/-- The same command `k` times in a row. -/
def execTimes (i : Instr) : Nat → State → Result
  | 0, s => .next s
  | k + 1, s => Result.andThen (exec i s) (execTimes i k)

/-- `k` Host steps in a row. -/
def hostSteps : Nat → State → Result
  | 0, s => .next s
  | k + 1, s => Result.andThen (hostStep s) (hostSteps k)

/-- What `MOT.SPIND` writes before its first poll (R118): the encoder reset, the mode, the speed, with the acknowledge
bits. -/
def spinStartRecords (cfg : Config) (sel : Selector) (speed : Byte) (k k' k'' : Bool) : List Transaction :=
  [.write cfg.motorBus cfg.motorAddr [cfg.regCommand, cfg.cmdResetEnc] k,
   .write cfg.motorBus cfg.motorAddr [cfg.regMode, spinMode cfg sel] k',
   .write cfg.motorBus cfg.motorAddr [spinReg cfg sel, speed] k'']

/-- The encoder a blocking spin polls: the right one for RIGHT, the left one for LEFT and BOTH (R118). -/
def polledEncoder (cfg : Config) : Selector → Byte
  | .left => cfg.regEnc1
  | .right => cfg.regEnc2
  | .both => cfg.regEnc1

/-- The records of one poll (R118): the encoder's selector with its acknowledge bit, then the read of four bytes. -/
def pollRecords (cfg : Config) (sel : Selector) (k : Bool) (x : Option (List Byte)) : List Transaction :=
  [.write cfg.motorBus cfg.motorAddr [polledEncoder cfg sel] k, .read cfg.motorBus cfg.motorAddr 4 x]

/-- The records of a row of answered polls. -/
def pollsRecords (cfg : Config) (sel : Selector) (polls : List (Bool × List Byte)) : List Transaction :=
  polls.flatMap fun p => pollRecords cfg sel p.1 (some p.2)

/-- The stop pair (R117), with the acknowledge bits. -/
def stopRecords (cfg : Config) (sel : Selector) (k k' : Bool) : List Transaction :=
  [.write cfg.motorBus cfg.motorAddr [cfg.regMode, spinMode cfg sel] k,
   .write cfg.motorBus cfg.motorAddr [spinReg cfg sel, cfg.stopSpeed] k']

/-- A poll's answer of four bytes that falls short of the distance in absolute value (R19, R118). -/
abbrev ShortAnswer (dist : BitVec 32) (y : List Byte) : Prop :=
  y.length = 4 ∧ (BitVec.ofNat 32 (beVal y)).toInt.natAbs < dist.toNat

/-- The state a scan of bus `b` has after its first `k` probes (R102). -/
def afterProbes (b : BusId) (k : Nat) (s : State) : State :=
  (List.range k).foldl (fun u j => (busWrite b (BitVec.ofNat 7 (s.cfg.scanFirst + j)) [] u).2) s

/-- Reference devices after a register read: the addressed ones have their pointer past the `n` bytes from `r`, and nothing
else is changed (R66). -/
def pointersAfterRead (b : BusId) (a : Addr7) (r : Byte) (n : Nat) (devs : List RefDevice) : List RefDevice :=
  devs.map fun d => if d.bus = b ∧ d.addr = a then { d with ptr := r + BitVec.ofNat 8 n } else d

/-- A byte of the motor device's two encoders, four bytes each from their base registers (R66, R111). -/
def encoderByte (cfg : Config) (x : Nat) : Prop :=
  (cfg.regEnc1.toNat ≤ x ∧ x < cfg.regEnc1.toNat + 4) ∨ (cfg.regEnc2.toNat ≤ x ∧ x < cfg.regEnc2.toNat + 4)

end Sys2Proof.Machine
end

