-- ==== Sys2Proof/Certificates/Slice0/Obligations.lean ====
section
/-! DEFINITION. The statements for the provers. Every `∃ t, exec i s = .next t ∧ …` says that the command completes; every
`t = { s with … }` or `.next { s with … }` is its frame: each field not named there is unchanged. An acknowledge bit or an
answer written `(… .envWrite …).1` or `(… .envRead …).1` is the environment's, in the state the transaction is issued in. -/

open Sys2Proof Sys2Proof.Machine

/-! ## Encoding -/

/-- R79: the worked words decode to the commands they stand for and are their encodings; the refused words are refused
for the reason given. -/
def Obligations.WorkedWordsDecode : Prop :=
  (∀ p ∈ ([ (0x10000102000C0B0A, .ledCfg 0 1 2 10 11 12), (0x1163000000000000, .ledColor 99),
            (0x1203000000000000, .ledMode 3), (0x1300000000000000, .ledUpdate),
            (0x20011213000186A0, .busCfg .bus1 18 19 100000),
            (0x21D80001000000C8, .busWr .bus1 0x58 0 1 200), (0x22D8020400000000, .busRd .bus1 0x58 2 4),
            (0x2301000000000000, .busScan .bus1), (0x3400C80000000000, .motSpin .left 200),
            (0x3500000000000000, .motStop .left), (0x3600C80000000168, .motSpind .left 200 360) ]
          : List (Word × Instr)), decode p.1 = .ok p.2 ∧ encode p.2 = p.1) ∧
  (∀ p ∈ ([ (0x1300000000000001, .reserved), (0x2302000000000000, .reserved), (0x22D8020000000000, .reserved),
            (0x213C400200012345, .reserved), (0x3403C80000000000, .reserved), (0x1000000000000000, .reserved),
            (0x4000000000000000, .undefOp) ]
          : List (Word × Reject)), decode p.1 = .error p.2)

/-- Decoding the word of a well-formed command gives the command back, at every value of every operand. -/
def Obligations.DecodeInvertsEncode : Prop :=
  ∀ i : Instr, i.wellFormed = true → decode (encode i) = .ok i

/-- Every word the decoder reads is the encoding of the command it reads, and that command is well-formed: no two words
stand for one command, and no bit of a word is ignored. -/
def Obligations.EncodeInvertsDecode : Prop :=
  ∀ (w : Word) (i : Instr), decode w = .ok i → encode i = w ∧ i.wellFormed = true

/-- R73: the undefined opcodes, exactly, are refused with RF_UNDEF_OP, and a Host step that meets one is refused so. -/
def Obligations.UndefinedOpcodesRefused : Prop :=
  (∀ w : Word, decode w = .error .undefOp ↔
    (let op := (w.extractLsb' 56 8).toNat
     op ≤ 0x0F ∨ (0x16 ≤ op ∧ op ≤ 0x1F) ∨ (0x24 ≤ op ∧ op ≤ 0x2F) ∨ 0x37 ≤ op)) ∧
  (∀ (s : State) (w : Word), s.phase = .ready → s.fetch = some w → decode w = .error .undefOp →
    hostStep s = .refused .undefOp)

/-- R72: for each row of R69, a word with the row's opcode whose reserved fields are not all zero, that is
`(word AND mask) ≠ match`, is refused with RF_RESERVED, and so is a Host step that meets it. -/
def Obligations.ReservedFieldsRefused : Prop :=
  ∀ row ∈ ([ (0x10, 0x1000000000000000, 0xFFF0F0F0FF000000), (0x11, 0x1100000000000000, 0xFF00FFFFFFFFFFFF),
             (0x12, 0x1200000000000000, 0xFF00FFFFFFFFFFFF), (0x13, 0x1300000000000000, 0xFFFFFFFFFFFFFFFF),
             (0x14, 0x1400000000000000, 0xFFFFFFFFFFFFFFFF), (0x15, 0x1500000000000000, 0xFFFFFFFFFFFFFFFF),
             (0x20, 0x2000000000000000, 0xFFFE000000000000), (0x21, 0x2100000000000000, 0xFF0000F800000000),
             (0x22, 0x2200000000000000, 0xFF0000F8FFFFFFFF), (0x23, 0x2300000000000000, 0xFFFEFFFFFFFFFFFF),
             (0x30, 0x3000000000000000, 0xFFFFFFFFFFFFFFFF), (0x31, 0x3100000000000000, 0xFFFFFFFFFFFFFFFF),
             (0x32, 0x3200000000000000, 0xFFFEFFFFFFFFFFFF), (0x33, 0x3300000000000000, 0xFF00FFFFFFFFFFFF),
             (0x34, 0x3400000000000000, 0xFFFC00FFFFFFFFFF), (0x35, 0x3500000000000000, 0xFFFCFFFFFFFFFFFF),
             (0x36, 0x3600000000000000, 0xFFFC00FF00000000) ] : List (Byte × Word × Word)),
  ∀ w : Word, w.extractLsb' 56 8 = row.1 → w &&& row.2.2 ≠ row.2.1 →
    decode w = .error .reserved ∧
    ∀ s : State, s.phase = .ready → s.fetch = some w → hostStep s = .refused .reserved

/-- R74: a word whose reserved fields are zero is refused with RF_RESERVED exactly by the five separate checks: equal
channel ids, a byte count outside 1..4, a value that does not fit, selector 3. Every other such word is read. -/
def Obligations.RangeChecksDecideLegality : Prop :=
  ∀ i : Word, ∀ mask pattern : Word,
    (i.extractLsb' 56 8, pattern, mask) ∈
      ([ (0x10, 0x1000000000000000, 0xFFF0F0F0FF000000), (0x11, 0x1100000000000000, 0xFF00FFFFFFFFFFFF),
         (0x12, 0x1200000000000000, 0xFF00FFFFFFFFFFFF), (0x13, 0x1300000000000000, 0xFFFFFFFFFFFFFFFF),
         (0x14, 0x1400000000000000, 0xFFFFFFFFFFFFFFFF), (0x15, 0x1500000000000000, 0xFFFFFFFFFFFFFFFF),
         (0x20, 0x2000000000000000, 0xFFFE000000000000), (0x21, 0x2100000000000000, 0xFF0000F800000000),
         (0x22, 0x2200000000000000, 0xFF0000F8FFFFFFFF), (0x23, 0x2300000000000000, 0xFFFEFFFFFFFFFFFF),
         (0x30, 0x3000000000000000, 0xFFFFFFFFFFFFFFFF), (0x31, 0x3100000000000000, 0xFFFFFFFFFFFFFFFF),
         (0x32, 0x3200000000000000, 0xFFFEFFFFFFFFFFFF), (0x33, 0x3300000000000000, 0xFF00FFFFFFFFFFFF),
         (0x34, 0x3400000000000000, 0xFFFC00FFFFFFFFFF), (0x35, 0x3500000000000000, 0xFFFCFFFFFFFFFFFF),
         (0x36, 0x3600000000000000, 0xFFFC00FF00000000) ] : List (Byte × Word × Word)) →
    i &&& mask = pattern →
    (let op := (i.extractLsb' 56 8).toNat
     let a := i.extractLsb' 48 8
     let b := i.extractLsb' 40 8
     let c := i.extractLsb' 32 8
     let d := i.extractLsb' 0 32
     let bad := (op = 0x10 ∧ (a = b ∨ a = c ∨ b = c)) ∨
       ((op = 0x21 ∨ op = 0x22) ∧ (c.toNat = 0 ∨ 4 < c.toNat)) ∨
       (op = 0x21 ∧ 2 ^ (8 * c.toNat) ≤ d.toNat) ∨
       ((op = 0x34 ∨ op = 0x35 ∨ op = 0x36) ∧ a = 3)
     (bad → decode i = .error .reserved) ∧ (¬ bad → ∃ j, decode i = .ok j))

/-! ## The step, reset and the invariant -/

/-- A step runs the decoded command: with no command in progress and the Host to move (the next event is the Host's, or
the timer's while it is not armed), the step is `exec` of the command the word at `cp` decodes to, at the state whose
schedule has lost its first event. The schedule is the model's own (log 3). -/
def Obligations.StepRunsDecodedCommand : Prop :=
  ∀ (s : State) (w : Word) (i : Instr),
    hostNext s = true → s.phase = .ready → s.prog[s.cp]? = some w → decode w = .ok i →
    step s = exec i { s with sched := s.sched.tail }

/-- R9: past the last command, with none in progress, the Host has no step. The name of the refusal is the model's own
(log 9). -/
def Obligations.RunIsOverPastTheLastCommand : Prop :=
  ∀ s : State, hostNext s = true → s.phase = .ready → s.prog.length ≤ s.cp → step s = .refused .runOver

/-- R42: the reset values. -/
def Obligations.ResetValues : Prop :=
  State.reset.cp = 0 ∧ State.reset.res = none ∧
  State.reset.siConfigured = false ∧ State.reset.siMode = .off ∧ State.reset.siColor = 6 ∧
  State.reset.siColor = State.reset.cfg.white ∧ State.reset.siTicks = 0 ∧
  State.reset.chanR = none ∧ State.reset.chanG = none ∧ State.reset.chanB = none ∧
  (∀ ch : ChannelId, State.reset.pwmAt ch = ⟨none, none⟩) ∧
  State.reset.tmrArmed = false ∧ State.reset.csHeld = false ∧ State.reset.irqPending = false ∧
  (∀ b, State.reset.bus b = ⟨false, none, none, none, [], false⟩) ∧
  State.reset.busLog = []

/-- R145, R146: the reset input puts every state element at its reset value, whatever was in progress; the devices, the
command list and the parameters are no state of the block and stay (the model's choice, log 10). -/
def Obligations.ResetInputRestoresResetValues : Prop :=
  ∀ s : State, s.nextEvent = .reset →
    ∃ t, step s = .next t ∧
      t.cp = 0 ∧ t.res = none ∧ t.siConfigured = false ∧ t.siMode = .off ∧ t.siColor = s.cfg.white ∧ t.siTicks = 0 ∧
      t.chanR = none ∧ t.chanG = none ∧ t.chanB = none ∧ (∀ ch : ChannelId, t.pwmAt ch = ⟨none, none⟩) ∧
      t.tmrArmed = false ∧ t.csHeld = false ∧ t.irqPending = false ∧
      (∀ b, t.bus b = ⟨false, none, none, none, [], false⟩) ∧ t.busLog = [] ∧ t.phase = .ready ∧
      t.env = s.env ∧ t.envClock = s.envClock ∧ t.prog = s.prog ∧ t.cfg = s.cfg ∧ t.sched = s.sched.tail

/-- The invariant of R44 holds at reset. -/
def Obligations.InvariantHoldsAtReset : Prop := Invariant State.reset

/-- Every step keeps the invariant of R44: commands, ticks, the turns of a hanging Host and the reset input alike.
`Invariant.busyIffHangs` is R36 for both hangs of R8; that a Host hanging in the polls of `MOT.SPIND` has further turns is
the model's choice (log 8), and so is what the reset input leaves of the run's parameters (log 10). -/
def Obligations.StepKeepsInvariant : Prop :=
  ∀ s t : State, Invariant s → step s = .next t → Invariant t

/-! ## StatusIndicator -/

/-- R81: `LED.CFG` on distinct identifiers of existing channels, once, binds the three channels, arms the timer and
completes; no duty, mode, colour, tick or result changes. -/
def Obligations.LedCfgBindsThreeChannels : Prop :=
  ∀ (s : State) (idR idG idB : ChannelId) (pinR pinG pinB : Byte),
    idR ≠ idG → idR ≠ idB → idG ≠ idB →
    idR.toNat < s.cfg.pwmChannels → idG.toNat < s.cfg.pwmChannels → idB.toNat < s.cfg.pwmChannels →
    s.siConfigured = false →
    ∃ t, exec (.ledCfg idR idG idB pinR pinG pinB) s = .next t ∧
      t = { s with
        cp := s.cp + 1
        chanR := some ⟨idR, pinR⟩
        chanG := some ⟨idG, pinG⟩
        chanB := some ⟨idB, pinB⟩
        siConfigured := true
        tmrArmed := true
        pwm := t.pwm } ∧
      t.pwmAt idR = ⟨some pinR, (s.pwmAt idR).duty⟩ ∧
      t.pwmAt idG = ⟨some pinG, (s.pwmAt idG).duty⟩ ∧
      t.pwmAt idB = ⟨some pinB, (s.pwmAt idB).duty⟩ ∧
      ∀ ch : ChannelId, ch ≠ idR → ch ≠ idG → ch ≠ idB → t.pwmAt ch = s.pwmAt ch

/-- R132, R81: the order of the refusals of `LED.CFG`: its own legality first, equal identifiers or one outside
`PWM_CHANNELS`, then the second configuration; and the second `BUS.CFG` of a bus. -/
def Obligations.SecondConfigurationRefused : Prop :=
  (∀ (s : State) (idR idG idB : ChannelId) (pinR pinG pinB : Byte),
    ((idR = idG ∨ idR = idB ∨ idG = idB ∨ s.cfg.pwmChannels ≤ idR.toNat ∨ s.cfg.pwmChannels ≤ idG.toNat ∨
        s.cfg.pwmChannels ≤ idB.toNat) →
      exec (.ledCfg idR idG idB pinR pinG pinB) s = .refused .reserved) ∧
    (idR ≠ idG → idR ≠ idB → idG ≠ idB →
      idR.toNat < s.cfg.pwmChannels → idG.toNat < s.cfg.pwmChannels → idB.toNat < s.cfg.pwmChannels →
      s.siConfigured = true → exec (.ledCfg idR idG idB pinR pinG pinB) s = .refused .reconfig)) ∧
  (∀ (s : State) (b : BusId) (sda scl : Byte) (clk : BitVec 32), (s.bus b).configured = true →
    exec (.busCfg b sda scl clk) s = .refused .reconfig)

/-- R80, R96, R110: a command whose unit is not configured is refused with RF_NOT_CONFIGURED. -/
def Obligations.CommandsNeedTheirConfiguration : Prop :=
  (∀ (s : State) (c : ColorIx) (m : Byte), s.siConfigured = false →
    exec (.ledColor c) s = .refused .notConfigured ∧ exec (.ledMode m) s = .refused .notConfigured ∧
    exec .ledGetc s = .refused .notConfigured ∧ exec .ledGetn s = .refused .notConfigured) ∧
  (∀ (s : State) (b : BusId) (a : Addr7) (r : Byte) (n : BitVec 3) (v : BitVec 32), (s.bus b).configured = false →
    (1 ≤ n.toNat → n.toNat ≤ s.cfg.busMaxBytes →
      (v.toNat < 2 ^ (8 * n.toNat) → exec (.busWr b a r n v) s = .refused .notConfigured) ∧
      exec (.busRd b a r n) s = .refused .notConfigured) ∧
    exec (.busScan b) s = .refused .notConfigured) ∧
  (∀ (s : State) (side : Side) (m speed : Byte) (sel : Selector) (dist : BitVec 32),
    (s.bus s.cfg.motorBus).configured = false →
    exec .motVer s = .refused .notConfigured ∧ exec .motRstenc s = .refused .notConfigured ∧
    exec (.motEnc side) s = .refused .notConfigured ∧ exec (.motMode m) s = .refused .notConfigured ∧
    exec (.motSpin sel speed) s = .refused .notConfigured ∧ exec (.motStop sel) s = .refused .notConfigured ∧
    exec (.motSpind sel speed dist) s = .refused .notConfigured)

/-- R83, R82, R17: `LED.COLOR` records the clamped index and shows its triple, in every mode; nothing else changes; before
`LED.CFG` it is refused. -/
def Obligations.LedColorShowsClampedColor : Prop :=
  (∀ (s : State) (c : ColorIx) (r g b : LedChannel), LedReady s r g b →
    ∃ t, exec (.ledColor c) s = .next t ∧
      t.siColor = (if c.toNat < s.cfg.colorCount then c else s.cfg.white) ∧
      t.ledOut = shown (duties s.cfg t.siColor) ∧
      t = { s with cp := s.cp + 1, siColor := t.siColor, pwm := t.pwm } ∧
      OnlyDuties s t r g b) ∧
  (∀ (s : State) (c : ColorIx), s.siConfigured = false → exec (.ledColor c) s = .refused .notConfigured) ∧
  ∀ c : ColorIx, decode (assemble 0x11 c 0 0 0) = .ok (.ledColor c)

/-- R84: `LED.MODE` ON and BLINK show the stored colour at once; CYCLE changes the mode only; OFF and every code that is
none of the other three blank the LED when `OFF_BLANKS` and keep the stored colour. The codes are 0 to 3 by default (R10,
R24). -/
def Obligations.LedModeEntryActions : Prop :=
  (∀ (s : State) (m : Byte) (r g b : LedChannel), LedReady s r g b → s.cfg.Valid → s.siColor.toNat < s.cfg.colorCount →
    ∃ t, exec (.ledMode m) s = .next t ∧
      t = { s with cp := s.cp + 1, siMode := t.siMode, pwm := t.pwm } ∧
      OnlyDuties s t r g b ∧
      (m = s.cfg.ledOn → t.siMode = .on ∧ t.ledOut = shown (duties s.cfg s.siColor)) ∧
      (m = s.cfg.ledBlink → t.siMode = .blink ∧ t.ledOut = shown (duties s.cfg s.siColor)) ∧
      (m = s.cfg.ledCycle → t.siMode = .cycle ∧ t.pwm = s.pwm) ∧
      (m = s.cfg.ledOff ∨ (m ≠ s.cfg.ledOn ∧ m ≠ s.cfg.ledBlink ∧ m ≠ s.cfg.ledCycle) → t.siMode = .off ∧
        (s.cfg.offBlanks = true → t.ledOut = shown (duties s.cfg s.cfg.black)) ∧
        (s.cfg.offBlanks = false → t.pwm = s.pwm))) ∧
  (Config.default.ledOff = 0 ∧ Config.default.ledOn = 1 ∧ Config.default.ledBlink = 2 ∧ Config.default.ledCycle = 3)

/-- R86: with no tick owed `LED.UPDATE` changes nothing, in every mode, configured or not. -/
def Obligations.LedUpdateWithoutTickIsNoOp : Prop :=
  ∀ s : State, s.siTicks = 0 → exec .ledUpdate s = .next { s with cp := s.cp + 1 }

/-- R86: in ON and OFF a productive `LED.UPDATE` drains exactly one tick and does nothing else. -/
def Obligations.LedUpdateOnAndOffOnlyDrain : Prop :=
  ∀ s : State, 0 < s.siTicks → s.csHeld = false → s.irqPending = false → (s.siMode = .on ∨ s.siMode = .off) →
    exec .ledUpdate s = .next { s with cp := s.cp + 1, siTicks := s.siTicks - 1 }

/-- R86, R18: in BLINK a productive `LED.UPDATE` toggles between the two blink colours, as a function of the stored
colour, and drains exactly one tick. -/
def Obligations.LedUpdateBlinkToggles : Prop :=
  ∀ (s : State) (r g b : LedChannel), LedReady s r g b → s.cfg.Valid → s.csHeld = false → s.irqPending = false →
    0 < s.siTicks → s.siMode = .blink →
    ∃ t, exec .ledUpdate s = .next t ∧
      t.siColor = (if s.siColor = s.cfg.blinkA then s.cfg.blinkB else s.cfg.blinkA) ∧
      t.ledOut = shown (duties s.cfg t.siColor) ∧
      t = { s with cp := s.cp + 1, siTicks := s.siTicks - 1, siColor := t.siColor, pwm := t.pwm } ∧
      OnlyDuties s t r g b

/-- R86, R18: in CYCLE a productive `LED.UPDATE` goes to the member of the order after the stored colour, wrapping after
the last, or to the first member from a colour outside the order; and drains exactly one tick. -/
def Obligations.LedUpdateCycleAdvances : Prop :=
  ∀ (s : State) (r g b : LedChannel), LedReady s r g b → s.cfg.Valid → s.csHeld = false → s.irqPending = false →
    0 < s.siTicks → s.siMode = .cycle →
    ∃ t, exec .ledUpdate s = .next t ∧
      (∀ i, s.cfg.cycleOrder[i]? = some s.siColor →
        s.cfg.cycleOrder[(i + 1) % s.cfg.cycleOrder.length]? = some t.siColor) ∧
      (s.siColor ∉ s.cfg.cycleOrder → s.cfg.cycleOrder[0]? = some t.siColor) ∧
      t.ledOut = shown (duties s.cfg t.siColor) ∧
      t = { s with cp := s.cp + 1, siTicks := s.siTicks - 1, siColor := t.siColor, pwm := t.pwm } ∧
      OnlyDuties s t r g b

/-- R92: `CYCLE_LEN` productive updates in CYCLE come back to the colour they started from when it is a member of the
order, and end on the last member when it is not. -/
def Obligations.FullCycleReturnsToTheColor : Prop :=
  ∀ (s : State) (r g b : LedChannel), LedReady s r g b → s.cfg.Valid → s.csHeld = false → s.irqPending = false →
    s.siMode = .cycle → s.cfg.cycleOrder.length ≤ s.siTicks →
    ∃ t, execTimes .ledUpdate s.cfg.cycleOrder.length s = .next t ∧
      t.siTicks = s.siTicks - s.cfg.cycleOrder.length ∧
      t.ledOut = shown (duties s.cfg t.siColor) ∧
      (s.siColor ∈ s.cfg.cycleOrder → t.siColor = s.siColor) ∧
      (s.siColor ∉ s.cfg.cycleOrder → s.cfg.cycleOrder[s.cfg.cycleOrder.length - 1]? = some t.siColor)

/-- R89: `LED.GETC`, the word with opcode 0x14 and all other bits zero, gives the stored colour, zero-extended; nothing else
changes; before `LED.CFG` it is refused. -/
def Obligations.LedGetcReadsStoredColor : Prop :=
  (∀ s : State, s.siConfigured = true →
    exec .ledGetc s = .next { s with cp := s.cp + 1, res := some (s.siColor.setWidth 64) }) ∧
  (∀ s : State, s.siConfigured = false → exec .ledGetc s = .refused .notConfigured) ∧
  decode 0x1400000000000000 = .ok .ledGetc

/-- R90: `LED.GETN` gives the name of the stored colour, its first character in the most significant byte of `res`, the
bytes after its last character zero; nothing else changes. -/
def Obligations.LedGetnPacksTheName : Prop :=
  ∀ (s : State) (e : ColorEntry), s.siConfigured = true → s.cfg.Valid → s.cfg.colors[s.siColor.toNat]? = some e →
    ∃ v : Word, exec .ledGetn s = .next { s with cp := s.cp + 1, res := some v } ∧
      ∀ k < 8, (v.extractLsb' (56 - 8 * k) 8).toNat = (e.name.toList.map Char.toNat).getD k 0

/-- R93, R80: no command of the family touches a bus, blocks or faults: it goes on with both buses, the log and the Host's
status unchanged, or it is refused for its operands or its configuration. -/
def Obligations.LedCommandsNeverBlockOrTouchABus : Prop :=
  ∀ (i : Instr) (s : State), s.irqPending = false →
    (i = .ledUpdate ∨ i = .ledGetc ∨ i = .ledGetn ∨ (∃ c, i = .ledColor c) ∨ (∃ m, i = .ledMode m) ∨
      (∃ x y z p q u, i = .ledCfg x y z p q u)) →
    (∃ t, exec i s = .next t ∧ t.rb0 = s.rb0 ∧ t.rb1 = s.rb1 ∧ t.busLog = s.busLog ∧ t.env = s.env ∧
      t.phase = s.phase ∧ t.cp = s.cp + 1) ∨
    exec i s = .refused .notConfigured ∨ exec i s = .refused .reconfig ∨ exec i s = .refused .reserved

/-! ## The tick counter and the interrupt -/

/-- R14, R88: an armed timer's step adds exactly one to `si.ticks` and touches nothing else; at `TICK_MAX` it faults
instead of wrapping or saturating; a productive `LED.UPDATE` subtracts exactly one, and none below zero. -/
def Obligations.TickCounterArithmetic : Prop :=
  (∀ s : State, s.nextEvent = .timer → s.tmrArmed = true → s.csHeld = false → s.siTicks < s.cfg.tickMax →
    step s = .next { s with sched := s.sched.tail, siTicks := s.siTicks + 1 } ∧ s.siTicks + 1 ≤ s.cfg.tickMax) ∧
  (∀ s : State, s.nextEvent = .timer → s.tmrArmed = true → s.csHeld = false → s.siTicks = s.cfg.tickMax →
    step s = .fault .tickOverflow) ∧
  (∀ s : State, s.irqPending = false → ∃ t, exec .ledUpdate s = .next t ∧
    (0 < s.siTicks → t.siTicks + 1 = s.siTicks) ∧ (s.siTicks = 0 → t.siTicks = 0))

/-- R88, R8: a step faults exactly when the timer fires at `TICK_MAX`; no command ever faults. -/
def Obligations.OnlyTheTimerFaults : Prop :=
  ∀ (s : State) (e : Fault), Invariant s →
    (step s = .fault e ↔ s.nextEvent = .timer ∧ s.tmrArmed = true ∧ s.siTicks = s.cfg.tickMax)

/-- R61, R134: a timer expiry inside the main context's critical section, before or after the decrement, is latched and
served when the section ends: the outcome is that of the drain followed by the tick. -/
def Obligations.ExpiryInCriticalSectionIsNotLost : Prop :=
  ∀ s : State, 0 < s.siTicks → s.csHeld = false → s.irqPending = false →
    (Result.andThen (timerExpiry s.enterCs) fun h => leaveCs { h with siTicks := h.siTicks - 1 }) =
      Result.andThen (drainOne s) tick ∧
    (Result.andThen (timerExpiry { s.enterCs with siTicks := s.siTicks - 1 }) leaveCs) =
      Result.andThen (drainOne s) tick

/-- R62: a TICK just before a command and the same TICK just after it end in the same outcome, for every command; for
`LED.UPDATE` when it is productive without that tick. The same holds of a turn of a hanging Host, in a read or in the polls
of `MOT.SPIND` (that such a Host has turns is the model's choice, log 7 and log 8). -/
def Obligations.TickCommutesWithCommands : Prop :=
  (∀ (i : Instr) (s : State), s.csHeld = false → s.irqPending = false → s.siTicks < s.cfg.tickMax →
    (i = .ledUpdate → 0 < s.siTicks) →
    Result.andThen (tick s) (exec i) = Result.andThen (exec i s) tick) ∧
  (∀ s : State, s.phase ≠ .ready → Result.andThen (tick s) hostStep = Result.andThen (hostStep s) tick) ∧
  (∀ (sel : Selector) (dist : BitVec 32) (s : State),
    Result.andThen (tick s) (pollAgain sel dist) = Result.andThen (pollAgain sel dist s) tick)

/-- R91: tick conservation. Over any number of steps without the reset input, the counter at the end plus the productive
updates equals the counter at the start plus the ticks; the productive updates are no more than the updates. -/
def Obligations.TicksAreConserved : Prop :=
  ∀ (k : Nat) (s t : State), Invariant s → NoReset k s → Host.Core.run Sys2Proof.core k s = .next t →
    t.siTicks + countSteps drainNext k s = s.siTicks + countSteps tickNext k s ∧
    countSteps drainNext k s ≤ countSteps updateNext k s ∧
    (s.siTicks = 0 → countSteps drainNext k s ≤ countSteps tickNext k s)

/-- R26: of the commands only `LED.UPDATE` changes `si.ticks`, and only downwards. -/
def Obligations.OnlyUpdateLowersTheCounter : Prop :=
  ∀ (i : Instr) (s t : State), s.irqPending = false → exec i s = .next t →
    t.siTicks = (if i = .ledUpdate then s.siTicks - 1 else s.siTicks)

/-! ## Who writes what -/

/-- R22: only the six commands R22 names write `res`, and they only when they do not hang. -/
def Obligations.ResultRegisterWriters : Prop :=
  ∀ (i : Instr) (s t : State), s.irqPending = false → s.phase = .ready → exec i s = .next t → t.res ≠ s.res →
    t.phase = .ready ∧
    (i = .ledGetc ∨ i = .ledGetn ∨ (∃ b a r n, i = .busRd b a r n) ∨ (∃ b, i = .busScan b) ∨ i = .motVer ∨
      ∃ side, i = .motEnc side)

/-- R24, R25: `si.mode` is written by `LED.MODE` only; `si.color` by `LED.COLOR`, by `LED.MODE` ON or BLINK, and by
`LED.UPDATE` in BLINK or CYCLE only. -/
def Obligations.ModeAndColorWriters : Prop :=
  ∀ (i : Instr) (s t : State), s.irqPending = false → exec i s = .next t →
    (t.siMode ≠ s.siMode → ∃ m, i = .ledMode m) ∧
    (t.siColor ≠ s.siColor →
      (∃ c, i = .ledColor c) ∨ i = .ledMode s.cfg.ledOn ∨ i = .ledMode s.cfg.ledBlink ∨
        (i = .ledUpdate ∧ (s.siMode = .blink ∨ s.siMode = .cycle)))

/-- R34, R35, R36, R96: a bus's parameters are written by `BUS.CFG` of that bus only, its device table by `BUS.SCAN` of
that bus only, and its busy bit by a reading command on that bus only; so nothing done on one bus changes the other. -/
def Obligations.BusRegisterWriters : Prop :=
  ∀ (i : Instr) (s t : State) (b : BusId), s.irqPending = false → exec i s = .next t →
    (((t.bus b).configured, (t.bus b).sda, (t.bus b).scl, (t.bus b).clk) ≠
        ((s.bus b).configured, (s.bus b).sda, (s.bus b).scl, (s.bus b).clk) →
      ∃ sda scl clk, i = .busCfg b sda scl clk) ∧
    ((t.bus b).dev ≠ (s.bus b).dev → i = .busScan b) ∧
    ((t.bus b).busy ≠ (s.bus b).busy →
      (∃ a r n, i = .busRd b a r n) ∨
      (b = s.cfg.motorBus ∧
        (i = .motVer ∨ (∃ side, i = .motEnc side) ∨ ∃ sel speed dist, i = .motSpind sel speed dist)))

/-- R23, R32, R34: the configuration bits and the armed bit are never cleared, and the channel records never change once
written, by any step but the reset input. -/
def Obligations.ConfigurationIsPermanent : Prop :=
  ∀ s t : State, Invariant s → s.nextEvent ≠ .reset → step s = .next t →
    (s.siConfigured = true → t.siConfigured = true ∧ t.tmrArmed = true ∧
      t.chanR = s.chanR ∧ t.chanG = s.chanG ∧ t.chanB = s.chanB) ∧
    ∀ b, (s.bus b).configured = true → (t.bus b).configured = true ∧
      (t.bus b).sda = (s.bus b).sda ∧ (t.bus b).scl = (s.bus b).scl ∧ (t.bus b).clk = (s.bus b).clk

/-- R37, R59: the log only grows at its end, by any step but the reset input. -/
def Obligations.BusLogOnlyGrows : Prop :=
  ∀ s t : State, Invariant s → s.nextEvent ≠ .reset → step s = .next t → ∃ l, t.busLog = s.busLog ++ l

/-- R64, R10, R20: no step, not even the reset input (log 10), writes the command list or the parameters. -/
def Obligations.CommandListAndParametersAreImmutable : Prop :=
  ∀ s t : State, step s = .next t → t.prog = s.prog ∧ t.cfg = s.cfg

/-- R21, R8: a command that is done advances `cp` by one; a command that hangs, in a read or in the polls of `MOT.SPIND`,
leaves it; nothing else happens to `cp`. That a hang is a next state, with the Host's status not ready, is the model's
choice (log 7, and log 8 for the polls). -/
def Obligations.CommandIndexAdvancesOnDone : Prop :=
  ∀ (i : Instr) (s t : State), s.irqPending = false → s.phase = .ready → exec i s = .next t →
    (t.phase = .ready ∧ t.cp = s.cp + 1) ∨ (t.phase ≠ .ready ∧ t.cp = s.cp)

/-! ## RegisterBus -/

/-- R97: `BUS.CFG` stores the pins and the clock unchecked, marks the bus configured and completes; it issues no
transaction and changes nothing else. -/
def Obligations.BusCfgStoresParameters : Prop :=
  ∀ (s : State) (sda scl : Byte) (clk : BitVec 32),
    (s.rb0.configured = false →
      exec (.busCfg .bus0 sda scl clk) s = .next { s with
        cp := s.cp + 1
        rb0 := ⟨true, some sda, some scl, some clk, s.rb0.dev, s.rb0.busy⟩ }) ∧
    (s.rb1.configured = false →
      exec (.busCfg .bus1 sda scl clk) s = .next { s with
        cp := s.cp + 1
        rb1 := ⟨true, some sda, some scl, some clk, s.rb1.dev, s.rb1.busy⟩ })

/-- R99, R98, R56, R53: a legal `BUS.WR` on a configured bus always completes with one write transaction carrying the
selector and then the value, most significant byte first, and the environment's acknowledge, which is false on a bus that
is not functional; nothing but the log, and the environment, changes. A byte count of 0 or above `BUS_MAX_BYTES`, or a
value that does not fit, is refused. -/
def Obligations.BusWrIssuesOneWrite : Prop :=
  ∀ (s : State) (b : BusId) (a : Addr7) (r : Byte) (n : BitVec 3) (v : BitVec 32),
    (1 ≤ n.toNat → n.toNat ≤ s.cfg.busMaxBytes → v.toNat < 2 ^ (8 * n.toNat) → (s.bus b).configured = true →
      (let bytes := r :: (List.range n.toNat).map fun k => BitVec.ofNat 8 (v.toNat / 256 ^ (n.toNat - 1 - k))
       (s.cfg.busOk b = false → (s.envWrite b a bytes).1 = false) ∧
       exec (.busWr b a r n v) s = .next { s with
        cp := s.cp + 1
        busLog := s.busLog ++ [.write b a bytes (s.envWrite b a bytes).1]
        env := (s.envWrite b a bytes).2
        envClock := s.envClock + 1 })) ∧
    (n.toNat = 0 ∨ s.cfg.busMaxBytes < n.toNat ∨ 2 ^ (8 * n.toNat) ≤ v.toNat →
      exec (.busWr b a r n v) s = .refused .reserved)

/-- R101, R100, R15, R66: a legal `BUS.RD` whose request the environment answers completes with two transactions, the
selector write and the read request, and the bytes assembled most significant first, zero-extended, in `res`. Of reference
devices the first at the address supplies its bytes from `r` on, mod 256, and only pointers move. A byte count of 0 or
above `BUS_MAX_BYTES` is refused. -/
def Obligations.BusRdAssemblesTheAnswer : Prop :=
  ∀ (s : State) (b : BusId) (a : Addr7) (r : Byte) (n : BitVec 3),
    (∀ bs : List Byte, 1 ≤ n.toNat → n.toNat ≤ s.cfg.busMaxBytes → (s.bus b).configured = true →
      ((busWrite b a [r] s).2.envRead b a n.toNat).1 = some bs →
      ∃ v : Word, bs.length = n.toNat ∧
        v.toNat = ∑ k ∈ Finset.range n.toNat, (bs.getD k 0).toNat * 256 ^ (n.toNat - 1 - k) ∧
        exec (.busRd b a r n) s = .next { s with
          cp := s.cp + 1
          res := some v
          busLog := s.busLog ++ [.write b a [r] (s.envWrite b a [r]).1, .read b a n.toNat (some bs)]
          env := ((busWrite b a [r] s).2.envRead b a n.toNat).2
          envClock := s.envClock + 2 } ∧
        ∀ devs, s.env = .reference devs →
          ((busWrite b a [r] s).2.envRead b a n.toNat).2 = .reference (pointersAfterRead b a r n.toNat devs) ∧
          ∃ d, (devs.find? fun x => x.bus == b && x.addr == a) = some d ∧
            bs = (List.range n.toNat).map fun k => Memory.read d.regs ((r.toNat + k) % 256)) ∧
    (n.toNat = 0 ∨ s.cfg.busMaxBytes < n.toNat → exec (.busRd b a r n) s = .refused .reserved)

/-- R54, R127, R118: a read that is never answered hangs its command, `BUS.RD`, `MOT.VER`, `MOT.ENC` or `MOT.SPIND`: `res`
and `cp` stay, the bus stays busy, and the log ends with the selector write and the unanswered request. A `MOT.SPIND` that
hangs in a read has issued the reset and the spin pair, any number of polls that fell short, and never the stop pair; the
same of a poll left unanswered while it already hangs in its polls (that this is a turn of the Host is the model's choice,
log 8). -/
def Obligations.UnansweredReadsHang : Prop :=
  (∀ (s : State) (b : BusId) (a : Addr7) (r : Byte) (n : BitVec 3),
    1 ≤ n.toNat → n.toNat ≤ s.cfg.busMaxBytes → (s.bus b).configured = true →
    ((busWrite b a [r] s).2.envRead b a n.toNat).1 = none →
    ∃ t, exec (.busRd b a r n) s = .next t ∧ (t.bus b).busy = true ∧ (∀ b', b' ≠ b → t.bus b' = s.bus b') ∧
      t = { s with
        phase := .hung
        rb0 := { s.rb0 with busy := t.rb0.busy }
        rb1 := { s.rb1 with busy := t.rb1.busy }
        busLog := s.busLog ++ [.write b a [r] (s.envWrite b a [r]).1, .read b a n.toNat none]
        env := ((busWrite b a [r] s).2.envRead b a n.toNat).2
        envClock := s.envClock + 2 }) ∧
  (∀ (s : State) (i : Instr) (r : Byte) (n : Nat),
    (i = .motVer ∧ r = s.cfg.regVersion ∧ n = 1) ∨ (i = .motEnc .left ∧ r = s.cfg.regEnc1 ∧ n = 4) ∨
      (i = .motEnc .right ∧ r = s.cfg.regEnc2 ∧ n = 4) →
    (s.bus s.cfg.motorBus).configured = true →
    ((busWrite s.cfg.motorBus s.cfg.motorAddr [r] s).2.envRead s.cfg.motorBus s.cfg.motorAddr n).1 = none →
    exec i s = .next (State.markBusy { s with
      phase := .hung
      busLog := s.busLog ++
        [.write s.cfg.motorBus s.cfg.motorAddr [r] (s.envWrite s.cfg.motorBus s.cfg.motorAddr [r]).1,
         .read s.cfg.motorBus s.cfg.motorAddr n none]
      env := ((busWrite s.cfg.motorBus s.cfg.motorAddr [r] s).2.envRead s.cfg.motorBus s.cfg.motorAddr n).2
      envClock := s.envClock + 2 } s.cfg.motorBus)) ∧
  (∀ (s : State) (sel : Selector) (speed : Byte) (dist : BitVec 32), (s.bus s.cfg.motorBus).configured = true →
    (let spun := spinPair sel speed (motorWrite s.cfg.regCommand s.cfg.cmdResetEnc s)
     let asked := (busWrite s.cfg.motorBus s.cfg.motorAddr [polledEncoder s.cfg sel] spun).2
     (asked.envRead s.cfg.motorBus s.cfg.motorAddr 4).1 = none →
     ∃ a₁ a₂ a₃ k, exec (.motSpind sel speed dist) s = .next (State.markBusy { s with
         phase := .hung
         busLog := s.busLog ++ spinStartRecords s.cfg sel speed a₁ a₂ a₃ ++ pollRecords s.cfg sel k none
         env := (asked.envRead s.cfg.motorBus s.cfg.motorAddr 4).2
         envClock := s.envClock + 5 } s.cfg.motorBus))) ∧
  (∀ (s : State) (sel : Selector) (speed : Byte) (dist : BitVec 32) (acks : List Bool) (xs : List (List Byte))
    (rest : List (Option (List Byte))),
    (s.bus s.cfg.motorBus).configured = true → s.cfg.busOk s.cfg.motorBus = true →
    s.env = .answers acks (xs.map some ++ none :: rest) → (∀ y ∈ xs, ShortAnswer dist y) →
    ∃ a₁ a₂ a₃ k, ∃ ks : List Bool, ks.length = xs.length ∧
     exec (.motSpind sel speed dist) s = .next (State.markBusy { s with
      phase := .hung
      busLog := s.busLog ++ spinStartRecords s.cfg sel speed a₁ a₂ a₃ ++ pollsRecords s.cfg sel (ks.zip xs) ++
        pollRecords s.cfg sel k none
      env := .answers (acks.drop (xs.length + 4)) rest
      envClock := s.envClock + (5 + 2 * xs.length) } s.cfg.motorBus)) ∧
  (∀ (s : State) (sel : Selector) (dist : BitVec 32), s.phase = .polling sel dist →
    (let enc := polledEncoder s.cfg sel
     let asked := (busWrite s.cfg.motorBus s.cfg.motorAddr [enc] s).2
     (asked.envRead s.cfg.motorBus s.cfg.motorAddr 4).1 = none →
     hostStep s = .next (State.markBusy { s with
       phase := .hung
       busLog := s.busLog ++
         [.write s.cfg.motorBus s.cfg.motorAddr [enc] (s.envWrite s.cfg.motorBus s.cfg.motorAddr [enc]).1,
          .read s.cfg.motorBus s.cfg.motorAddr 4 none]
       env := (asked.envRead s.cfg.motorBus s.cfg.motorAddr 4).2
       envClock := s.envClock + 2 } s.cfg.motorBus)))

/-- R8, R54: a hung Host never moves again: whatever happens short of the reset input, only the schedule is used up and
`si.ticks` grows by the ticks. That the Host's turn then leaves the state as it is is the model's choice (log 7). -/
def Obligations.HungHostNeverMoves : Prop :=
  ∀ (k : Nat) (s t : State), s.phase = .hung → s.csHeld = false → NoReset k s →
    Host.Core.run Sys2Proof.core k s = .next t →
    t = { s with sched := s.sched.drop k, siTicks := s.siTicks + countSteps tickNext k s }

/-- R102: `BUS.SCAN` on a configured bus always completes: one zero-length write to each address from `SCAN_FIRST` to
`SCAN_LAST`, ascending, by default exactly the 112 addresses 8 to 119; the table replaced whole by the addresses that
acknowledged, with their labels; their count in `res`; nothing else changes. -/
def Obligations.BusScanRebuildsTheTable : Prop :=
  (∀ (s : State) (b : BusId), (s.bus b).configured = true →
    (let n := s.cfg.scanLast + 1 - s.cfg.scanFirst
     let addr := fun k => BitVec.ofNat 7 (s.cfg.scanFirst + k)
     let ack := fun k => ((afterProbes b k s).envWrite b (addr k) []).1
     let found := ((List.range n).filter ack).map fun k => ⟨addr k, label s.cfg (addr k)⟩
     exec (.busScan b) s = .next (State.setBus { s with
         cp := s.cp + 1
         res := some (BitVec.ofNat 64 found.length)
         busLog := s.busLog ++ (List.range n).map (fun k => Transaction.write b (addr k) [] (ack k))
         env := (afterProbes b n s).env
         envClock := s.envClock + n } b { s.bus b with dev := found }))) ∧
  Config.default.scanFirst = 8 ∧ Config.default.scanLast = 119

/-- R102 (the document's P5), R66: on a bus of reference devices a scan lists exactly the addresses of the range, by default
8 to 119, that hold a device, ascending, and leaves the devices as they were; a second scan lists the same. -/
def Obligations.ScanListsTheDevicesAndRepeats : Prop :=
  ∀ (s : State) (b : BusId) (devs : List RefDevice), (s.bus b).configured = true → s.cfg.busOk b = true →
    s.env = .reference devs →
    (let addr := fun k => BitVec.ofNat 7 (s.cfg.scanFirst + k)
     ∃ t u, exec (.busScan b) s = .next t ∧ exec (.busScan b) t = .next u ∧
      (t.bus b).dev = ((List.range (s.cfg.scanLast + 1 - s.cfg.scanFirst)).filter fun k =>
          devs.any fun d => d.bus == b && d.addr == addr k).map (fun k => ⟨addr k, label s.cfg (addr k)⟩) ∧
      (u.bus b).dev = (t.bus b).dev ∧ t.env = s.env ∧ u.env = s.env)

/-- R55: on a bus that is not functional every write completes unacknowledged with the environment untouched, every read
hangs, and a scan finds nothing. -/
def Obligations.NonfunctionalBusIsSilent : Prop :=
  ∀ (s : State) (b : BusId), (s.bus b).configured = true → s.cfg.busOk b = false →
    (∀ (a : Addr7) (r : Byte) (n : BitVec 3) (v : BitVec 32),
      1 ≤ n.toNat → n.toNat ≤ s.cfg.busMaxBytes → v.toNat < 2 ^ (8 * n.toNat) →
      ∃ t bs, exec (.busWr b a r n v) s = .next t ∧ t.env = s.env ∧
        t.busLog = s.busLog ++ [.write b a bs false]) ∧
    (∀ (a : Addr7) (r : Byte) (n : BitVec 3), 1 ≤ n.toNat → n.toNat ≤ s.cfg.busMaxBytes →
      ∃ t, exec (.busRd b a r n) s = .next t ∧ t.phase = .hung ∧ t.env = s.env) ∧
    (∃ t, exec (.busScan b) s = .next t ∧ (t.bus b).dev = [] ∧ t.res = some 0 ∧ t.env = s.env)

/-- R66, R99, R56: what `BUS.WR` stores in a reference device. The addressed device holds the value's bytes at `reg`,
`reg + 1`, … mod 256, most significant first, and every other byte as before, with its pointer past the last one. On the
motor device each `CMD_RESET_ENC` stored at `REG_COMMAND` zeroes the bytes of both encoders, those this write stored before
it among them. Every other device is unchanged. -/
def Obligations.ReferenceWriteStoresItsBytes : Prop :=
  ∀ (s : State) (b : BusId) (a : Addr7) (r : Byte) (n : BitVec 3) (v : BitVec 32) (devs : List RefDevice),
    1 ≤ n.toNat → n.toNat ≤ s.cfg.busMaxBytes → v.toNat < 2 ^ (8 * n.toNat) → (s.bus b).configured = true →
    s.cfg.busOk b = true → s.env = .reference devs → (∀ d ∈ devs, Memory.wf d.regs) →
    ∃ t devs', exec (.busWr b a r n v) s = .next t ∧ t.env = .reference devs' ∧ devs'.length = devs.length ∧
      ∀ (i : Nat) (d d' : RefDevice), devs[i]? = some d → devs'[i]? = some d' →
        (¬ (d.bus = b ∧ d.addr = a) → d' = d) ∧
        (d.bus = b → d.addr = a →
          (let place := fun k => (r.toNat + k) % 256
           let byte := fun k => BitVec.ofNat 8 (v.toNat / 256 ^ (n.toNat - 1 - k))
           let resets := fun k => d.motor = true ∧ place k = s.cfg.regCommand.toNat ∧ byte k = s.cfg.cmdResetEnc
           d' = { d with ptr := r + n.setWidth 8, regs := d'.regs } ∧ Memory.wf d'.regs ∧
           (∀ k < n.toNat,
             (encoderByte s.cfg (place k) ∧ (∃ j < n.toNat, k ≤ j ∧ resets j) → Memory.read d'.regs (place k) = 0) ∧
             (¬ (encoderByte s.cfg (place k) ∧ ∃ j < n.toNat, k ≤ j ∧ resets j) →
               Memory.read d'.regs (place k) = byte k)) ∧
           ∀ x, (∀ k < n.toNat, x ≠ place k) →
             (encoderByte s.cfg x ∧ (∃ j < n.toNat, resets j) → Memory.read d'.regs x = 0) ∧
             (¬ (encoderByte s.cfg x ∧ ∃ j < n.toNat, resets j) → Memory.read d'.regs x = Memory.read d.regs x)))

/-- R56, R66: on a reference device, a value written with `BUS.WR` is read back by `BUS.RD` of the same width at the
same register, byte order and all; on the motor device, of a write that stores no `CMD_RESET_ENC` at `REG_COMMAND`. -/
def Obligations.MultiByteWriteReadsBack : Prop :=
  ∀ (s : State) (b : BusId) (a : Addr7) (r : Byte) (n : BitVec 3) (v : BitVec 32) (devs : List RefDevice)
    (d : RefDevice),
    1 ≤ n.toNat → n.toNat ≤ s.cfg.busMaxBytes → v.toNat < 2 ^ (8 * n.toNat) → (s.bus b).configured = true →
    s.cfg.busOk b = true → s.env = .reference devs → (devs.find? fun x => x.bus == b && x.addr == a) = some d →
    (d.motor = true → ∀ k < n.toNat, (r.toNat + k) % 256 = s.cfg.regCommand.toNat →
      BitVec.ofNat 8 (v.toNat / 256 ^ (n.toNat - 1 - k)) ≠ s.cfg.cmdResetEnc) →
    Memory.wf d.regs →
    ∃ t u, exec (.busWr b a r n v) s = .next t ∧ exec (.busRd b a r n) t = .next u ∧
      u.res = some (v.setWidth 64)

/-! ## MotorController client -/

/-- R112: `MOT.VER` reads one byte of the version register and gives it as it is; of reference devices only pointers move
(R66). -/
def Obligations.MotVerReadsTheVersion : Prop :=
  ∀ (s : State) (x : Byte), (s.bus s.cfg.motorBus).configured = true →
    (let asked := (busWrite s.cfg.motorBus s.cfg.motorAddr [s.cfg.regVersion] s).2
     let answer := asked.envRead s.cfg.motorBus s.cfg.motorAddr 1
     answer.1 = some [x] →
     exec .motVer s = .next { s with
        cp := s.cp + 1
        res := some (x.setWidth 64)
        busLog := s.busLog ++
          [.write s.cfg.motorBus s.cfg.motorAddr [s.cfg.regVersion]
            (s.envWrite s.cfg.motorBus s.cfg.motorAddr [s.cfg.regVersion]).1,
           .read s.cfg.motorBus s.cfg.motorAddr 1 (some [x])]
        env := answer.2
        envClock := s.envClock + 2 } ∧
     ∀ devs, s.env = .reference devs →
       answer.2 = .reference (pointersAfterRead s.cfg.motorBus s.cfg.motorAddr s.cfg.regVersion 1 devs))

/-- R114, R16: `MOT.ENC` reads four bytes from the selected encoder's base register and gives the signed 32-bit count
they spell, most significant byte first, sign-extended to 64 bits; of reference devices only pointers move (R66). -/
def Obligations.MotEncReadsTheSignedCount : Prop :=
  ∀ (s : State) (side : Side) (w x y z : Byte), (s.bus s.cfg.motorBus).configured = true →
    (let base := match side with
      | .left => s.cfg.regEnc1
      | .right => s.cfg.regEnc2
     let count : Nat := ((w.toNat * 256 + x.toNat) * 256 + y.toNat) * 256 + z.toNat
     let asked := (busWrite s.cfg.motorBus s.cfg.motorAddr [base] s).2
     let answer := asked.envRead s.cfg.motorBus s.cfg.motorAddr 4
     answer.1 = some [w, x, y, z] →
     (∃ v : Word, v.toInt = (if count < 2 ^ 31 then (count : Int) else (count : Int) - 2 ^ 32) ∧
       exec (.motEnc side) s = .next { s with
         cp := s.cp + 1
         res := some v
         busLog := s.busLog ++
           [.write s.cfg.motorBus s.cfg.motorAddr [base] (s.envWrite s.cfg.motorBus s.cfg.motorAddr [base]).1,
            .read s.cfg.motorBus s.cfg.motorAddr 4 (some [w, x, y, z])]
         env := answer.2
         envClock := s.envClock + 2 }) ∧
     ∀ devs, s.env = .reference devs →
       answer.2 = .reference (pointersAfterRead s.cfg.motorBus s.cfg.motorAddr base 4 devs))

/-- R113, R115, R53: `MOT.RSTENC` writes the reset opcode to the command register, `MOT.MODE` any byte unchecked to the mode
register, each record with the environment's acknowledge; both always complete and change nothing but the log and the
environment. -/
def Obligations.MotRstencAndModeWriteOneByte : Prop :=
  ∀ (s : State) (m : Byte), (s.bus s.cfg.motorBus).configured = true →
    (∀ (i : Instr) (r v : Byte),
      (i = .motRstenc ∧ r = s.cfg.regCommand ∧ v = s.cfg.cmdResetEnc) ∨ (i = .motMode m ∧ r = s.cfg.regMode ∧ v = m) →
      exec i s = .next { s with
        cp := s.cp + 1
        busLog := s.busLog ++
          [.write s.cfg.motorBus s.cfg.motorAddr [r, v] (s.envWrite s.cfg.motorBus s.cfg.motorAddr [r, v]).1]
        env := (s.envWrite s.cfg.motorBus s.cfg.motorAddr [r, v]).2
        envClock := s.envClock + 1 })

/-- R116, R60, R53: `MOT.SPIN` on a configured bus always completes with two writes and nothing between them: the mode
(single for one side, combined for both), then the speed, to speed register 1 for LEFT and BOTH and 2 for RIGHT, each
record with the environment's acknowledge. Otherwise it is refused, and so is a word with selector 3. -/
def Obligations.MotSpinWritesModeThenSpeed : Prop :=
  (∀ (s : State) (sel : Selector) (speed : Byte), (s.bus s.cfg.motorBus).configured = true →
    (let mode := match sel with
      | .left => s.cfg.modeSingle
      | .right => s.cfg.modeSingle
      | .both => s.cfg.modeCombined
     let reg := match sel with
      | .left => s.cfg.regSpeed1
      | .right => s.cfg.regSpeed2
      | .both => s.cfg.regSpeed1
     let inMode := (busWrite s.cfg.motorBus s.cfg.motorAddr [s.cfg.regMode, mode] s).2
     exec (.motSpin sel speed) s = .next { s with
         cp := s.cp + 1
         busLog := s.busLog ++
           [.write s.cfg.motorBus s.cfg.motorAddr [s.cfg.regMode, mode]
             (s.envWrite s.cfg.motorBus s.cfg.motorAddr [s.cfg.regMode, mode]).1,
            .write s.cfg.motorBus s.cfg.motorAddr [reg, speed]
             (inMode.envWrite s.cfg.motorBus s.cfg.motorAddr [reg, speed]).1]
         env := (inMode.envWrite s.cfg.motorBus s.cfg.motorAddr [reg, speed]).2
         envClock := s.envClock + 2 })) ∧
  (∀ (s : State) (sel : Selector) (speed : Byte), (s.bus s.cfg.motorBus).configured = false →
    exec (.motSpin sel speed) s = .refused .notConfigured) ∧
  ∀ speed : Byte, decode (assemble 0x34 0 speed 0 0) = .ok (.motSpin .left speed) ∧
    decode (assemble 0x34 1 speed 0 0) = .ok (.motSpin .right speed) ∧
    decode (assemble 0x34 2 speed 0 0) = .ok (.motSpin .both speed) ∧
    ∀ sel : Byte, 2 < sel.toNat → decode (assemble 0x34 sel speed 0 0) = .error .reserved

/-- R117, R78, R53: `MOT.STOP sel` has exactly the meaning of `MOT.SPIN sel, STOP_SPEED`, by default 128: on a configured
bus it always completes with the mode write and then the stop speed to the speed register of the side (1 for LEFT and BOTH,
2 for RIGHT), each record with the environment's acknowledge. Otherwise it is refused, and so is a word with selector 3. -/
def Obligations.MotStopIsSpinAtStopSpeed : Prop :=
  Config.default.stopSpeed = 128 ∧
  (∀ (s : State) (sel : Selector),
    exec (.motStop sel) s = exec (.motSpin sel s.cfg.stopSpeed) s ∧
    ((s.bus s.cfg.motorBus).configured = true →
      (let mode := match sel with
        | .left => s.cfg.modeSingle
        | .right => s.cfg.modeSingle
        | .both => s.cfg.modeCombined
       let reg := match sel with
        | .left => s.cfg.regSpeed1
        | .right => s.cfg.regSpeed2
        | .both => s.cfg.regSpeed1
       let inMode := (busWrite s.cfg.motorBus s.cfg.motorAddr [s.cfg.regMode, mode] s).2
       exec (.motStop sel) s = .next { s with
          cp := s.cp + 1
          busLog := s.busLog ++
            [.write s.cfg.motorBus s.cfg.motorAddr [s.cfg.regMode, mode]
              (s.envWrite s.cfg.motorBus s.cfg.motorAddr [s.cfg.regMode, mode]).1,
             .write s.cfg.motorBus s.cfg.motorAddr [reg, s.cfg.stopSpeed]
              (inMode.envWrite s.cfg.motorBus s.cfg.motorAddr [reg, s.cfg.stopSpeed]).1]
          env := (inMode.envWrite s.cfg.motorBus s.cfg.motorAddr [reg, s.cfg.stopSpeed]).2
          envClock := s.envClock + 2 })) ∧
    ((s.bus s.cfg.motorBus).configured = false → exec (.motStop sel) s = .refused .notConfigured)) ∧
  decode 0x3500000000000000 = .ok (.motStop .left) ∧ decode 0x3501000000000000 = .ok (.motStop .right) ∧
  decode 0x3502000000000000 = .ok (.motStop .both) ∧
  ∀ sel : Byte, 2 < sel.toNat → decode (assemble 0x35 sel 0 0 0) = .error .reserved

/-- R120: Scenario C, for any environment and the stop speed 128. -/
def Obligations.ScenarioCLog : Prop :=
  ∀ s : State, (s.bus s.cfg.motorBus).configured = true → s.cfg.stopSpeed = 128 →
    ∃ t a₁ a₂ a₃ a₄,
      Result.andThen (exec (.motSpin .left 200) s) (exec (.motStop .left)) = .next t ∧
      t.busLog = s.busLog ++
        [.write s.cfg.motorBus s.cfg.motorAddr [s.cfg.regMode, s.cfg.modeSingle] a₁,
         .write s.cfg.motorBus s.cfg.motorAddr [s.cfg.regSpeed1, 200] a₂,
         .write s.cfg.motorBus s.cfg.motorAddr [s.cfg.regMode, s.cfg.modeSingle] a₃,
         .write s.cfg.motorBus s.cfg.motorAddr [s.cfg.regSpeed1, 128] a₄]

/-- R118, R19, R62: a blocking spin whose polls are answered, and whose last poll is the first to reach the distance,
completes in one step after exactly those polls: the encoders reset, the spin pair, one selector write and one read request
a poll, the stop pair; `res` is unchanged. -/
def Obligations.BlockingSpinCompletesAfterItsPolls : Prop :=
  ∀ (s : State) (sel : Selector) (speed : Byte) (dist : BitVec 32) (acks : List Bool) (xs : List (List Byte))
    (x : List Byte) (rest : List (Option (List Byte))),
    (s.bus s.cfg.motorBus).configured = true → s.cfg.busOk s.cfg.motorBus = true →
    s.env = .answers acks (xs.map some ++ some x :: rest) → (∀ y ∈ xs, ShortAnswer dist y) →
    x.length = 4 → dist.toNat ≤ (BitVec.ofNat 32 (beVal x)).toInt.natAbs →
    ∃ a₁ a₂ a₃ k a₄ a₅, ∃ ks : List Bool, ks.length = xs.length ∧
      exec (.motSpind sel speed dist) s = .next { s with
        cp := s.cp + 1
        busLog := s.busLog ++ spinStartRecords s.cfg sel speed a₁ a₂ a₃ ++ pollsRecords s.cfg sel (ks.zip xs) ++
          pollRecords s.cfg sel k (some x) ++ stopRecords s.cfg sel a₄ a₅
        env := .answers (acks.drop (xs.length + 6)) rest
        envClock := s.envClock + (7 + 2 * xs.length) }

/-- R118, R130, R36: a blocking spin none of whose polls reaches the distance hangs in its polls, with its bus busy, `cp` and
`res` as they were, and the stop pair never issued. On reference devices whose motor device does not move, after `k` further
turns of the Host the log holds the reset, the spin pair and `k + 1` polls, each a selector write and a read with the same
answer. In any environment the further answers that fall short add one poll each. That the Host has turns while it hangs in
its polls is the model's choice (log 8). -/
def Obligations.StalledSpinPollsForEver : Prop :=
  (∀ (s : State) (sel : Selector) (speed : Byte) (dist : BitVec 32) (devs : List RefDevice) (y : List Byte) (k : Nat),
    (s.bus s.cfg.motorBus).configured = true → s.cfg.busOk s.cfg.motorBus = true → s.env = .reference devs →
    (let spun := spinPair sel speed (motorWrite s.cfg.regCommand s.cfg.cmdResetEnc s)
     let asked := (busWrite s.cfg.motorBus s.cfg.motorAddr [polledEncoder s.cfg sel] spun).2
     (asked.envRead s.cfg.motorBus s.cfg.motorAddr 4).1 = some y → ShortAnswer dist y →
     Result.andThen (exec (.motSpind sel speed dist) s) (hostSteps k) = .next (State.markBusy { s with
       phase := .polling sel dist
       busLog := s.busLog ++ spinStartRecords s.cfg sel speed true true true ++
         pollsRecords s.cfg sel (List.replicate (k + 1) (true, y))
       env := (asked.envRead s.cfg.motorBus s.cfg.motorAddr 4).2
       envClock := s.envClock + (5 + 2 * k) } s.cfg.motorBus))) ∧
  (∀ (s : State) (sel : Selector) (dist : BitVec 32) (acks : List Bool) (xs : List (List Byte))
    (rest : List (Option (List Byte))),
    s.phase = .polling sel dist → s.cfg.busOk s.cfg.motorBus = true →
    s.env = .answers acks (xs.map some ++ rest) → (∀ y ∈ xs, ShortAnswer dist y) →
    ∃ ks : List Bool, ks.length = xs.length ∧ hostSteps xs.length s = .next { s with
      busLog := s.busLog ++ pollsRecords s.cfg sel (ks.zip xs)
      env := .answers (acks.drop xs.length) rest
      envClock := s.envClock + 2 * xs.length })

/-- R118: a blocking spin whose first poll is answered, in any environment: the reset, the mode and the speed are written in
that order, then the selected side's encoder (the left one for BOTH) is polled; at the distance the stop pair follows and
the command is done; short of it the polls go on from there, and the command is not done with fewer than two. -/
def Obligations.BlockingSpinFirstPoll : Prop :=
  ∀ (s : State) (sel : Selector) (speed : Byte) (dist : BitVec 32) (x : List Byte),
    (s.bus s.cfg.motorBus).configured = true →
    (let spun := spinPair sel speed (motorWrite s.cfg.regCommand s.cfg.cmdResetEnc s)
     let asked := (busWrite s.cfg.motorBus s.cfg.motorAddr [polledEncoder s.cfg sel] spun).2
     (asked.envRead s.cfg.motorBus s.cfg.motorAddr 4).1 = some x →
     ∃ t a₁ a₂ a₃ k l, exec (.motSpind sel speed dist) s = .next t ∧
       t.busLog = s.busLog ++ spinStartRecords s.cfg sel speed a₁ a₂ a₃ ++ pollRecords s.cfg sel k (some x) ++ l ∧
       (dist.toNat ≤ (BitVec.ofNat 32 (beVal x)).toInt.natAbs →
         (∃ a₄ a₅, l = stopRecords s.cfg sel a₄ a₅) ∧
         t = { s with cp := s.cp + 1, busLog := t.busLog, env := t.env, envClock := s.envClock + 7 }) ∧
       ((BitVec.ofNat 32 (beVal x)).toInt.natAbs < dist.toNat →
         t.cp = s.cp + 1 → ∃ k' y l', l = pollRecords s.cfg sel k' (some y) ++ l'))

/-- R113, R66 (the document's P4): on the reference motor device, after `MOT.RSTENC` both `MOT.ENC` read 0. -/
def Obligations.EncodersReadZeroAfterReset : Prop :=
  ∀ (s : State) (side : Side) (devs : List RefDevice) (d : RefDevice), s.cfg.Valid →
    (s.bus s.cfg.motorBus).configured = true → s.cfg.busOk s.cfg.motorBus = true → s.env = .reference devs →
    (devs.find? fun x => x.bus == s.cfg.motorBus && x.addr == s.cfg.motorAddr) = some d → d.motor = true →
    Memory.wf d.regs →
    ∃ t u, exec .motRstenc s = .next t ∧ exec (.motEnc side) t = .next u ∧ u.res = some 0

/-- R118, R62, R36: everything a blocking spin can answer on a configured bus, in any environment, with every poll but the
last one short of the distance: it is done with its last poll at the distance and the stop pair issued; or it hangs in a
read that is never answered; or it hangs in its polls, all of them short. In both hangs the bus is busy, `cp` and `res` stay
and the stop pair is not issued. After how many short polls the third case is told is a free value (log 8). -/
def Obligations.BlockingSpinOutcomes : Prop :=
  ∀ (s : State) (sel : Selector) (speed : Byte) (dist : BitVec 32), (s.bus s.cfg.motorBus).configured = true →
    ∃ t a₁ a₂ a₃, ∃ polls : List (Bool × List Byte), exec (.motSpind sel speed dist) s = .next t ∧
      (∀ p ∈ polls, ShortAnswer dist p.2) ∧
      (let log := s.busLog ++ spinStartRecords s.cfg sel speed a₁ a₂ a₃ ++ pollsRecords s.cfg sel polls
       (∃ k x a₄ a₅, x.length = 4 ∧ dist.toNat ≤ (BitVec.ofNat 32 (beVal x)).toInt.natAbs ∧
         t = { s with
           cp := s.cp + 1
           busLog := log ++ pollRecords s.cfg sel k (some x) ++ stopRecords s.cfg sel a₄ a₅
           env := t.env
           envClock := s.envClock + (7 + 2 * polls.length) }) ∨
       (∃ k, t = State.markBusy { s with
           phase := .hung
           busLog := log ++ pollRecords s.cfg sel k none
           env := t.env
           envClock := s.envClock + (5 + 2 * polls.length) } s.cfg.motorBus) ∨
       (polls ≠ [] ∧ t = State.markBusy { s with
           phase := .polling sel dist
           busLog := log
           env := t.env
           envClock := s.envClock + (3 + 2 * polls.length) } s.cfg.motorBus))

/-- R8, R36, R54, R118: a hang is for ever: whatever happens short of the reset input, a Host that hangs, in a read or in
the polls of `MOT.SPIND`, still hangs, `cp` and `res` are as they were, a busy bus stays busy, `si.ticks` grows by the
ticks, and the log grows by polls of that `MOT.SPIND` at most: no write but its encoder's selector. That the Host has
turns while it hangs is the model's choice (log 7, log 8). -/
def Obligations.HangIsForEver : Prop :=
  ∀ (k : Nat) (s t : State), s.phase ≠ .ready → s.csHeld = false → NoReset k s →
    Host.Core.run Sys2Proof.core k s = .next t →
    t.phase ≠ .ready ∧ (∀ b, (s.bus b).busy = true → (t.bus b).busy = true) ∧
    ∃ l : List Transaction,
      (∀ x ∈ l, ∃ sel dist, s.phase = .polling sel dist ∧
        ((∃ ack, x = .write s.cfg.motorBus s.cfg.motorAddr [polledEncoder s.cfg sel] ack) ∨
          ∃ y, x = .read s.cfg.motorBus s.cfg.motorAddr 4 y)) ∧
      t = { s with
        phase := t.phase
        rb0 := { s.rb0 with busy := t.rb0.busy }
        rb1 := { s.rb1 with busy := t.rb1.busy }
        busLog := s.busLog ++ l
        env := t.env
        envClock := s.envClock + l.length
        sched := s.sched.drop k
        siTicks := s.siTicks + countSteps tickNext k s }
end

