-- ==== Sys2Proof/Laws/Decode.lean ====
section
/-! SUPPORT. The laws of the encoding (R67, R72): the fields of an assembled word, and its mask, field by field. -/

namespace Sys2Proof

theorem append_and_append {n m : Nat} (a b : BitVec n) (c d : BitVec m) :
    (a ++ c) &&& (b ++ d) = (a &&& b) ++ (c &&& d) := by
  ext i hi
  simp only [BitVec.getElem_and, BitVec.getElem_append]
  split <;> simp

/-- Masking an assembled word masks its fields (R67, R69). -/
theorem assemble_and (o a b c o' a' b' c' : Byte) (d d' : BitVec 32) :
    assemble o a b c d &&& assemble o' a' b' c' d' =
      assemble (o &&& o') (a &&& a') (b &&& b') (c &&& c') (d &&& d') := by
  show (o ++ a ++ b ++ c ++ d : BitVec (8 + 8 + 8 + 8 + 32)) &&& (o' ++ a' ++ b' ++ c' ++ d') = _
  rw [append_and_append, append_and_append, append_and_append, append_and_append]
  rfl

/-- The number an assembled word stands for: the sum of R79. -/
theorem assemble_toNat (o a b c : Byte) (d : BitVec 32) :
    (assemble o a b c d).toNat =
      o.toNat * 2 ^ 56 + a.toNat * 2 ^ 48 + b.toNat * 2 ^ 40 + c.toNat * 2 ^ 32 + d.toNat := by
  simp only [assemble, BitVec.toNat_append]
  rw [← Nat.shiftLeft_add_eq_or_of_lt d.isLt, ← Nat.shiftLeft_add_eq_or_of_lt c.isLt,
    ← Nat.shiftLeft_add_eq_or_of_lt b.isLt, ← Nat.shiftLeft_add_eq_or_of_lt a.isLt]
  simp only [Nat.shiftLeft_eq]
  omega

@[simp] theorem opOf_assemble (o a b c : Byte) (d : BitVec 32) : opOf (assemble o a b c d) = o := by
  apply BitVec.eq_of_toNat_eq
  have := o.isLt; have := a.isLt; have := b.isLt; have := c.isLt; have := d.isLt
  rw [opOf, BitVec.extractLsb'_toNat, assemble_toNat, Nat.shiftRight_eq_div_pow]
  omega

@[simp] theorem fieldA_assemble (o a b c : Byte) (d : BitVec 32) :
    (assemble o a b c d).extractLsb' 48 8 = a := by
  apply BitVec.eq_of_toNat_eq
  have := o.isLt; have := a.isLt; have := b.isLt; have := c.isLt; have := d.isLt
  rw [BitVec.extractLsb'_toNat, assemble_toNat, Nat.shiftRight_eq_div_pow]
  omega

@[simp] theorem fieldB_assemble (o a b c : Byte) (d : BitVec 32) :
    (assemble o a b c d).extractLsb' 40 8 = b := by
  apply BitVec.eq_of_toNat_eq
  have := o.isLt; have := a.isLt; have := b.isLt; have := c.isLt; have := d.isLt
  rw [BitVec.extractLsb'_toNat, assemble_toNat, Nat.shiftRight_eq_div_pow]
  omega

@[simp] theorem fieldC_assemble (o a b c : Byte) (d : BitVec 32) :
    (assemble o a b c d).extractLsb' 32 8 = c := by
  apply BitVec.eq_of_toNat_eq
  have := o.isLt; have := a.isLt; have := b.isLt; have := c.isLt; have := d.isLt
  rw [BitVec.extractLsb'_toNat, assemble_toNat, Nat.shiftRight_eq_div_pow]
  omega

@[simp] theorem fieldD_assemble (o a b c : Byte) (d : BitVec 32) :
    (assemble o a b c d).extractLsb' 0 32 = d := by
  apply BitVec.eq_of_toNat_eq
  have := o.isLt; have := a.isLt; have := b.isLt; have := c.isLt; have := d.isLt
  rw [BitVec.extractLsb'_toNat, assemble_toNat, Nat.shiftRight_eq_div_pow]
  omega

/-- Every word is the assembly of its five fields (R67). -/
theorem assemble_fields (w : Word) :
    assemble (opOf w) (w.extractLsb' 48 8) (w.extractLsb' 40 8) (w.extractLsb' 32 8) (w.extractLsb' 0 32) = w := by
  apply BitVec.eq_of_toNat_eq
  have := w.isLt
  rw [assemble_toNat, opOf]
  simp only [BitVec.extractLsb'_toNat, Nat.shiftRight_eq_div_pow]
  omega

/-- No two rows of the opcode map share an opcode: decoding is unambiguous (R69). -/
theorem rows_opcodes_distinct : (rows.map Row.op).Nodup := by decide

/-- Every row's mask covers the opcode field, and its pattern holds the row's opcode and nothing else (R69). -/
theorem rows_patterns :
    ∀ r ∈ rows, opOf r.mask = 0xFF ∧ r.pattern = assemble r.op 0 0 0 0 := by decide

end Sys2Proof
end

