-- ==== Sys2Proof/Laws/Memory.lean ====
section
/-! SUPPORT. The laws of the reference devices' byte memory (R66): read after write, and that every operation keeps the
canonical form. -/

namespace Sys2Proof.Machine

theorem Memory.read_write_same (m : Memory) (a : Nat) (v : Byte) (h : m.wf) :
    Memory.read (Memory.write m a v) a = v := by
  induction m with
  | nil => by_cases hv : v = Memory.unlisted <;> simp [Memory.write, Memory.read, hv]
  | cons c m ih =>
    obtain ⟨k, w⟩ := c
    obtain ⟨hp, hn⟩ := h
    rw [List.pairwise_cons] at hp
    have absent : ∀ (l : Memory), (∀ x ∈ l, a < x.1) → Memory.read l a = Memory.unlisted := by
      intro l
      induction l with
      | nil => intro _; rfl
      | cons x l ihl =>
        intro hl
        have hx := hl x (by simp)
        simp only [Memory.read]
        rw [if_neg (by omega)]
        exact ihl fun y hy => hl y (by simp [hy])
    simp only [Memory.write]
    split
    · rename_i hlt
      split
      · rename_i hv
        rw [hv]
        refine absent _ fun x hx => ?_
        rcases List.mem_cons.1 hx with rfl | hx
        · exact hlt
        · exact Nat.lt_trans hlt (hp.1 x hx)
      · simp [Memory.read]
    · split
      · rename_i hlt hak
        split
        · rename_i hv
          rw [hv]
          exact absent _ fun x hx => by rw [hak]; exact hp.1 x hx
        · simp [Memory.read]
      · rename_i hlt hne
        simp only [Memory.read]
        rw [if_neg (fun e => hne e.symm)]
        exact ih ⟨hp.2, fun x hx => hn x (by simp [hx])⟩

theorem Memory.read_write_other (m : Memory) (a b : Nat) (v : Byte) (hab : b ≠ a) :
    Memory.read (Memory.write m a v) b = Memory.read m b := by
  induction m with
  | nil =>
    by_cases hv : v = Memory.unlisted
    · simp [Memory.write, hv]
    · simp [Memory.write, hv, Memory.read, hab.symm]
  | cons c m ih =>
    obtain ⟨k, w⟩ := c
    simp only [Memory.write]
    split
    · split
      · rfl
      · simp [Memory.read, hab.symm]
    · split
      · rename_i hak
        have hkb : k ≠ b := fun e => hab (by omega)
        split
        · simp [Memory.read, hkb]
        · simp [Memory.read, hkb, hab.symm]
      · simp only [Memory.read]
        split
        · rfl
        · exact ih

theorem Memory.mem_write (m : Memory) (a : Nat) (v : Byte) :
    ∀ c ∈ Memory.write m a v, c ∈ m ∨ (c = (a, v) ∧ v ≠ Memory.unlisted) := by
  induction m with
  | nil =>
    intro c hc
    by_cases hv : v = Memory.unlisted
    · simp [Memory.write, hv] at hc
    · simp [Memory.write, hv] at hc
      exact Or.inr ⟨hc, hv⟩
  | cons d m ih =>
    obtain ⟨k, w⟩ := d
    intro c hc
    simp only [Memory.write] at hc
    split at hc
    · split at hc
      · exact Or.inl hc
      · rename_i hv
        rcases List.mem_cons.1 hc with rfl | hc
        · exact Or.inr ⟨rfl, hv⟩
        · exact Or.inl hc
    · split at hc
      · split at hc
        · exact Or.inl (List.mem_cons_of_mem _ hc)
        · rename_i hv
          rcases List.mem_cons.1 hc with rfl | hc
          · exact Or.inr ⟨rfl, hv⟩
          · exact Or.inl (List.mem_cons_of_mem _ hc)
      · rcases List.mem_cons.1 hc with rfl | hc
        · exact Or.inl (by simp)
        · rcases ih c hc with h | h
          · exact Or.inl (List.mem_cons_of_mem _ h)
          · exact Or.inr h

/-- A store keeps the canonical form. -/
theorem Memory.write_wf (m : Memory) (a : Nat) (v : Byte) (h : m.wf) : (Memory.write m a v).wf := by
  refine ⟨?_, fun c hc => ?_⟩
  · induction m with
    | nil => by_cases hv : v = Memory.unlisted <;> simp [Memory.write, hv]
    | cons d m ih =>
      obtain ⟨k, w⟩ := d
      obtain ⟨hp, hn⟩ := h
      have hp' := hp
      rw [List.pairwise_cons] at hp
      simp only [Memory.write]
      split
      · rename_i hlt
        split
        · exact hp'
        · refine List.pairwise_cons.2 ⟨fun x hx => ?_, hp'⟩
          rcases List.mem_cons.1 hx with rfl | hx
          · exact hlt
          · exact Nat.lt_trans hlt (hp.1 x hx)
      · split
        · rename_i hak
          split
          · exact hp.2
          · exact List.pairwise_cons.2 ⟨fun x hx => by rw [hak]; exact hp.1 x hx, hp.2⟩
        · rename_i hlt hne
          refine List.pairwise_cons.2 ⟨fun x hx => ?_, ih ⟨hp.2, fun x hx => hn x (by simp [hx])⟩⟩
          rcases Memory.mem_write m a v x hx with hx | ⟨rfl, _⟩
          · exact hp.1 x hx
          · show k < a
            omega
  · rcases Memory.mem_write m a v c hc with hc | ⟨rfl, hv⟩
    · exact h.2 c hc
    · exact hv

theorem clearEncoder_wf (m : Memory) (base : Byte) (h : m.wf) : Memory.wf (clearEncoder m base) := by
  unfold clearEncoder
  generalize List.range 4 = is
  induction is generalizing m with
  | nil => exact h
  | cons i is ih => exact ih _ (Memory.write_wf _ _ _ h)

theorem RefDevice.store_wf (cfg : Config) (d : RefDevice) (v : Byte) (h : Memory.wf d.regs) :
    Memory.wf (d.store cfg v).regs := by
  unfold RefDevice.store
  dsimp only
  split
  · exact clearEncoder_wf _ _ (clearEncoder_wf _ _ (Memory.write_wf _ _ _ h))
  · exact Memory.write_wf _ _ _ h

/-- A write transaction keeps a device's memory canonical. -/
theorem RefDevice.receive_wf (cfg : Config) (d : RefDevice) (bs : List Byte) (h : Memory.wf d.regs) :
    Memory.wf (d.receive cfg bs).regs := by
  cases bs with
  | nil => exact h
  | cons r vs =>
    unfold RefDevice.receive
    dsimp only
    generalize hd : ({ d with ptr := r } : RefDevice) = d'
    have h' : Memory.wf d'.regs := by rw [← hd]; exact h
    clear hd h
    induction vs generalizing d' with
    | nil => exact h'
    | cons v vs ih => exact ih _ (RefDevice.store_wf cfg d' v h')

/-- The bytes of a cleared encoder are 0, every other byte is as before (R66). -/
theorem read_clearEncoder (m : Memory) (base : Byte) (x : Nat) (h : m.wf) :
    Memory.read (clearEncoder m base) x = if base.toNat ≤ x ∧ x < base.toNat + 4 then 0 else Memory.read m x := by
  have key : ∀ (is : List Nat) (m : Memory), m.wf →
      Memory.read (is.foldl (fun m i => Memory.write m (base.toNat + i) 0) m) x =
        if ∃ i ∈ is, x = base.toNat + i then 0 else Memory.read m x := by
    intro is
    induction is with
    | nil => intro m _; simp
    | cons i is ih =>
      intro m hm
      rw [List.foldl_cons, ih _ (Memory.write_wf m _ 0 hm)]
      by_cases hx : x = base.toNat + i
      · rw [hx, Memory.read_write_same m _ 0 hm]
        simp
      · rw [Memory.read_write_other m _ _ 0 hx]
        simp [hx]
  unfold clearEncoder
  rw [key _ m h]
  congr 1
  simp only [List.mem_range, eq_iff_iff]
  constructor
  · rintro ⟨i, hi, rfl⟩
    omega
  · exact fun hx => ⟨x - base.toNat, by omega, by omega⟩

/-- The stored byte is the motor device's encoder reset (R66). -/
def RefDevice.Resets (cfg : Config) (d : RefDevice) (place : Nat) (v : Byte) : Prop :=
  d.motor = true ∧ place = cfg.regCommand.toNat ∧ v = cfg.cmdResetEnc

/-- What one store leaves (R66): the byte at the pointer, and 0 in both encoders when it is the reset. -/
theorem RefDevice.store_read (cfg : Config) (d : RefDevice) (v : Byte) (hw : Memory.wf d.regs) (x : Nat) :
    (encoderByte cfg x ∧ d.Resets cfg d.ptr.toNat v → Memory.read (d.store cfg v).regs x = 0) ∧
    (¬ (encoderByte cfg x ∧ d.Resets cfg d.ptr.toNat v) → Memory.read (d.store cfg v).regs x =
      if x = d.ptr.toNat then v else Memory.read d.regs x) := by
  have hwr := Memory.write_wf d.regs d.ptr.toNat v hw
  have hplain : Memory.read (Memory.write d.regs d.ptr.toNat v) x =
      if x = d.ptr.toNat then v else Memory.read d.regs x := by
    split
    · rename_i h
      rw [h, Memory.read_write_same _ _ _ hw]
    · exact Memory.read_write_other _ _ _ _ ‹_›
  have hc : (d.motor && d.ptr == cfg.regCommand && v == cfg.cmdResetEnc) = true ↔ d.Resets cfg d.ptr.toNat v := by
    simp [RefDevice.Resets, ← BitVec.toNat_inj, and_assoc]
  unfold RefDevice.store
  dsimp only
  by_cases hr : d.Resets cfg d.ptr.toNat v
  · rw [if_pos (hc.2 hr), read_clearEncoder _ _ _ (clearEncoder_wf _ _ hwr), read_clearEncoder _ _ _ hwr, hplain]
    unfold encoderByte
    refine ⟨fun h => ?_, fun h => ?_⟩
    · split_ifs <;> first | rfl | omega
    · have h' : ¬ ((cfg.regEnc1.toNat ≤ x ∧ x < cfg.regEnc1.toNat + 4) ∨
          (cfg.regEnc2.toNat ≤ x ∧ x < cfg.regEnc2.toNat + 4)) := fun e => h ⟨e, hr⟩
      rw [if_neg fun e => h' (.inr e), if_neg fun e => h' (.inl e)]
  · rw [if_neg fun e => hr (hc.1 e), hplain]
    exact ⟨fun h => absurd h.2 hr, fun _ => rfl⟩

/-- What a run of stores leaves in a device: the bytes at the pointer's places mod 256, every other byte as before, the pointer
past them; and 0 in the encoders of the motor device where a reset is stored at the same place or later (R66). -/
theorem RefDevice.store_run (cfg : Config) (vs : List Byte) (d : RefDevice) (hw : Memory.wf d.regs)
    (hl : vs.length ≤ 256) :
    (let t := vs.foldl (RefDevice.store cfg) d
     let place := fun k => (d.ptr.toNat + k) % 256
     let resets := fun k => d.Resets cfg (place k) (vs.getD k 0)
     t = { d with ptr := d.ptr + BitVec.ofNat 8 vs.length, regs := t.regs } ∧ Memory.wf t.regs ∧
     (∀ k < vs.length,
       (encoderByte cfg (place k) ∧ (∃ j < vs.length, k ≤ j ∧ resets j) → Memory.read t.regs (place k) = 0) ∧
       (¬ (encoderByte cfg (place k) ∧ ∃ j < vs.length, k ≤ j ∧ resets j) →
         Memory.read t.regs (place k) = vs.getD k 0)) ∧
     ∀ x, (∀ k < vs.length, x ≠ place k) →
       (encoderByte cfg x ∧ (∃ j < vs.length, resets j) → Memory.read t.regs x = 0) ∧
       (¬ (encoderByte cfg x ∧ ∃ j < vs.length, resets j) → Memory.read t.regs x = Memory.read d.regs x)) := by
  induction vs generalizing d with
  | nil => exact ⟨by simp, hw, by simp, by simp⟩
  | cons v vs ih =>
    have hp : d.ptr.toNat < 256 := d.ptr.isLt
    have hptr : (d.store cfg v).ptr.toNat = (d.ptr.toNat + 1) % 256 := by simp [RefDevice.store, BitVec.toNat_add]
    have hst : d.store cfg v = { d with ptr := d.ptr + 1, regs := (d.store cfg v).regs } := rfl
    rw [List.length_cons] at hl
    obtain ⟨h1, h2, h3, h4⟩ := ih (d.store cfg v) (RefDevice.store_wf cfg d v hw) (by omega)
    have hplace : ∀ k, ((d.store cfg v).ptr.toNat + k) % 256 = (d.ptr.toNat + (k + 1)) % 256 := by
      intro k; omega
    have hres : ∀ k, (d.store cfg v).Resets cfg (((d.store cfg v).ptr.toNat + k) % 256) (vs.getD k 0) ↔
        d.Resets cfg ((d.ptr.toNat + (k + 1)) % 256) ((v :: vs).getD (k + 1) 0) := by
      intro k; rw [hplace]; rfl
    have hres0 : d.Resets cfg ((d.ptr.toNat + 0) % 256) ((v :: vs).getD 0 0) ↔ d.Resets cfg d.ptr.toNat v := by
      rw [Nat.add_zero, Nat.mod_eq_of_lt hp]; rfl
    simp only [hres] at h3 h4
    simp only [hplace] at h3 h4
    have hex : ∀ m, (∃ j < (v :: vs).length, m ≤ j ∧ d.Resets cfg ((d.ptr.toNat + j) % 256) ((v :: vs).getD j 0)) ↔
        (m = 0 ∧ d.Resets cfg d.ptr.toNat v) ∨
          ∃ j < vs.length, m ≤ j + 1 ∧ d.Resets cfg ((d.ptr.toNat + (j + 1)) % 256) ((v :: vs).getD (j + 1) 0) := by
      intro m
      constructor
      · rintro ⟨j, hj, hm, hr⟩
        cases j with
        | zero => exact .inl ⟨by omega, hres0.1 hr⟩
        | succ j => exact .inr ⟨j, by simpa using hj, hm, hr⟩
      · rintro (⟨rfl, hr⟩ | ⟨j, hj, hm, hr⟩)
        · exact ⟨0, by simp, le_refl 0, hres0.2 hr⟩
        · exact ⟨j + 1, by simpa using hj, hm, hr⟩
    have hex0 : (∃ j < (v :: vs).length, d.Resets cfg ((d.ptr.toNat + j) % 256) ((v :: vs).getD j 0)) ↔
        d.Resets cfg d.ptr.toNat v ∨
          ∃ j < vs.length, d.Resets cfg ((d.ptr.toNat + (j + 1)) % 256) ((v :: vs).getD (j + 1) 0) := by
      simpa using hex 0
    -- a place no later store touches
    have untouched : ∀ x, (∀ k < vs.length, x ≠ (d.ptr.toNat + (k + 1)) % 256) →
        (encoderByte cfg x ∧ (d.Resets cfg d.ptr.toNat v ∨
          ∃ j < vs.length, d.Resets cfg ((d.ptr.toNat + (j + 1)) % 256) ((v :: vs).getD (j + 1) 0)) →
            Memory.read (vs.foldl (RefDevice.store cfg) (d.store cfg v)).regs x = 0) ∧
        (¬ (encoderByte cfg x ∧ (d.Resets cfg d.ptr.toNat v ∨
          ∃ j < vs.length, d.Resets cfg ((d.ptr.toNat + (j + 1)) % 256) ((v :: vs).getD (j + 1) 0))) →
            Memory.read (vs.foldl (RefDevice.store cfg) (d.store cfg v)).regs x =
              if x = d.ptr.toNat then v else Memory.read d.regs x) := by
      intro x hx
      obtain ⟨a0, a1⟩ := h4 x hx
      obtain ⟨b0, b1⟩ := RefDevice.store_read cfg d v hw x
      constructor
      · rintro ⟨he, hr⟩
        by_cases hlater : ∃ j < vs.length, d.Resets cfg ((d.ptr.toNat + (j + 1)) % 256) ((v :: vs).getD (j + 1) 0)
        · exact a0 ⟨he, hlater⟩
        · rw [a1 fun e => hlater e.2]
          exact b0 ⟨he, hr.resolve_right hlater⟩
      · intro hn
        rw [a1 fun e => hn ⟨e.1, .inr e.2⟩, b1 fun e => hn ⟨e.1, .inl e.2⟩]
    rw [List.foldl_cons]
    refine ⟨?_, h2, fun k hk => ?_, fun x hx => ?_⟩
    · conv_lhs => rw [h1]
      rw [hst]
      simp only [List.length_cons, RefDevice.mk.injEq, true_and, and_true]
      rw [BitVec.add_assoc]
      congr 1
      apply BitVec.eq_of_toNat_eq
      simp [BitVec.toNat_add, Nat.add_comm]
    · simp only [hex k]
      cases k with
      | zero =>
        obtain ⟨c0, c1⟩ := untouched ((d.ptr.toNat + 0) % 256) fun k hk => by omega
        simp only [true_and, Nat.zero_le]
        refine ⟨c0, fun hn => (c1 hn).trans ?_⟩
        rw [Nat.add_zero, Nat.mod_eq_of_lt hp, if_pos rfl]
        rfl
      | succ k =>
        have hk' : k < vs.length := by simpa using hk
        simpa using h3 k hk'
    · simp only [hex0]
      obtain ⟨c0, c1⟩ := untouched x fun k hk => hx (k + 1) (by simpa using hk)
      refine ⟨c0, fun hn => (c1 hn).trans (if_neg ?_)⟩
      have h0 : x ≠ (d.ptr.toNat + 0) % 256 := hx 0 (by simp)
      omega

@[simp] theorem RefDevice.advance_regs (d : RefDevice) (n : Nat) : (d.advance n).regs = d.regs := rfl

@[simp] theorem RefDevice.length_supply (d : RefDevice) (n : Nat) : (d.supply n).length = n := by
  simp [RefDevice.supply]

end Sys2Proof.Machine
end

