-- ==== Sys2Proof/Laws/Operands.lean ====
section
/-! SUPPORT. The laws of the shared arithmetic (R15, R17, R18). -/

namespace Sys2Proof.Machine

theorem beVal_append (as bs : List Byte) : beVal (as ++ bs) = beVal as * 256 ^ bs.length + beVal bs := by
  have key : ∀ (bs : List Byte) (acc : Nat),
      bs.foldl (fun acc b => acc * 256 + b.toNat) acc = acc * 256 ^ bs.length + beVal bs := by
    intro bs
    induction bs with
    | nil => intro acc; simp [beVal]
    | cons b bs ih =>
      intro acc
      simp only [beVal, List.foldl_cons, List.length_cons]
      rw [ih, ih (0 * 256 + b.toNat)]
      ring
  unfold beVal
  rw [List.foldl_append, key]
  rfl

theorem beVal_cons (b : Byte) (bs : List Byte) : beVal (b :: bs) = b.toNat * 256 ^ bs.length + beVal bs := by
  have h := beVal_append [b] bs
  simpa [beVal] using h

theorem beVal_lt (bs : List Byte) : beVal bs < 256 ^ bs.length := by
  induction bs with
  | nil => simp [beVal]
  | cons b bs ih =>
    rw [beVal_cons, List.length_cons, pow_succ]
    have hb := b.isLt
    have hb' : b.toNat + 1 ≤ 256 := by omega
    calc b.toNat * 256 ^ bs.length + beVal bs
        < b.toNat * 256 ^ bs.length + 256 ^ bs.length := by omega
      _ = (b.toNat + 1) * 256 ^ bs.length := by ring
      _ ≤ 256 * 256 ^ bs.length := Nat.mul_le_mul_right _ hb'
      _ = 256 ^ bs.length * 256 := by ring

@[simp] theorem length_beBytes (v n : Nat) : (beBytes v n).length = n := by
  induction n with
  | zero => rfl
  | succ n ih => simp [beBytes, ih]

theorem beVal_beBytes (v n : Nat) : beVal (beBytes v n) = v % 256 ^ n := by
  induction n with
  | zero => simp [beBytes, beVal, Nat.mod_one]
  | succ n ih =>
    rw [beBytes, beVal_cons, ih, length_beBytes, BitVec.toNat_ofNat, pow_succ]
    show v / 256 ^ n % 256 * 256 ^ n + v % 256 ^ n = v % (256 ^ n * 256)
    rw [Nat.mod_mul (x := v) (a := 256 ^ n) (b := 256)]
    ring

/-- Splitting and assembling agree on a value that fits (R15). -/
theorem beVal_beBytes_of_lt (v n : Nat) (h : v < 256 ^ n) : beVal (beBytes v n) = v := by
  rw [beVal_beBytes, Nat.mod_eq_of_lt h]

/-- The bytes of a value, written out by place (R15). -/
theorem beBytes_eq_map (v n : Nat) :
    beBytes v n = (List.range n).map fun k => BitVec.ofNat 8 (v / 256 ^ (n - 1 - k)) := by
  induction n with
  | zero => rfl
  | succ n ih =>
    rw [beBytes, ih, List.range_succ_eq_map]
    simp
    intro k hk
    congr 3
    omega

theorem clamp_lt (cfg : Config) (c : ColorIx) (h : cfg.white.toNat < cfg.colorCount) :
    (clamp cfg c).toNat < cfg.colorCount := by
  unfold clamp
  split <;> assumption

theorem blinkNext_lt (cfg : Config) (c : ColorIx) (ha : cfg.blinkA.toNat < cfg.colorCount)
    (hb : cfg.blinkB.toNat < cfg.colorCount) : (blinkNext cfg c).toNat < cfg.colorCount := by
  unfold blinkNext
  split <;> assumption

/-- The cycle successor is a member of the order (R18). -/
theorem cycleNext_mem (cfg : Config) (c : ColorIx) (h : 1 ≤ cfg.cycleOrder.length) :
    cycleNext cfg c ∈ cfg.cycleOrder := by
  unfold cycleNext
  split
  · rw [List.getD_eq_getElem _ _ (Nat.mod_lt _ (by omega))]
    exact List.getElem_mem _
  · cases ho : cfg.cycleOrder with
    | nil => simp [ho] at h
    | cons x xs => simp

@[simp] theorem length_scanAddrs (cfg : Config) :
    (scanAddrs cfg).length = cfg.scanLast + 1 - cfg.scanFirst := by simp [scanAddrs]

/-- The addresses probed by default are the 112 addresses 8 to 119 (R47, R102). -/
theorem scanAddrs_default : scanAddrs Config.default = (List.range 112).map fun k => BitVec.ofNat 7 (8 + k) := by decide

/-- The probed addresses are those of the range, ascending (R47, R102). -/
theorem scanAddrs_ascending (cfg : Config) (h : cfg.scanLast ≤ 127) :
    (scanAddrs cfg).Pairwise (fun x y => x.toNat < y.toNat) := by
  unfold scanAddrs
  rw [List.pairwise_map]
  refine List.Pairwise.imp_of_mem (fun {a b} ha hb hab => ?_) (List.pairwise_lt_range' (s := cfg.scanFirst))
  rw [List.mem_range'_1] at ha hb
  rw [BitVec.toNat_ofNat, BitVec.toNat_ofNat, Nat.mod_eq_of_lt (by omega), Nat.mod_eq_of_lt (by omega)]
  exact hab

theorem mem_scanAddrs (cfg : Config) (h : cfg.scanLast ≤ 127) (a : Addr7) (ha : a ∈ scanAddrs cfg) :
    cfg.scanFirst ≤ a.toNat ∧ a.toNat ≤ cfg.scanLast := by
  obtain ⟨k, hk, rfl⟩ := List.mem_map.1 ha
  rw [List.mem_range'_1] at hk
  rw [BitVec.toNat_ofNat, Nat.mod_eq_of_lt (by omega)]
  omega

/-- An answer that counts as short is the environment's, and is short (R118). -/
theorem onlyShort_eq_some (dist : BitVec 32) (x : Option (List Byte)) (bs : List Byte) :
    onlyShort dist x = some bs ↔ x = some bs ∧ reached (BitVec.ofNat 32 (beVal bs)) dist = false := by
  cases x with
  | none => simp [onlyShort]
  | some y =>
    unfold onlyShort
    dsimp only
    split
    · rename_i h
      constructor
      · intro e
        cases e
      · rintro ⟨e, hf⟩
        cases e
        rw [h] at hf
        cases hf
    · rename_i h
      constructor
      · intro e
        cases e
        exact ⟨rfl, by simpa using h⟩
      · exact fun e => e.1

theorem reached_iff (v dist : BitVec 32) : reached v dist = true ↔ dist.toNat ≤ (s32 v).natAbs := by
  simp [reached]

end Sys2Proof.Machine
end

