-- ==== Sys2Proof/Laws/State.lean ====
section
/-! SUPPORT. One lemma per field per update of the state: what the update leaves, and what it writes. Proofs about
meanings cite these instead of unfolding an update. -/

namespace Sys2Proof.Machine

variable (s : State)

/-! ### advance: the end of a done step (R12) -/

@[simp] theorem State.advance_cp : (s.advance).cp = s.cp + 1 := rfl
@[simp] theorem State.advance_res : (s.advance).res = s.res := rfl
@[simp] theorem State.advance_siConfigured : (s.advance).siConfigured = s.siConfigured := rfl
@[simp] theorem State.advance_siMode : (s.advance).siMode = s.siMode := rfl
@[simp] theorem State.advance_siColor : (s.advance).siColor = s.siColor := rfl
@[simp] theorem State.advance_siTicks : (s.advance).siTicks = s.siTicks := rfl
@[simp] theorem State.advance_chanR : (s.advance).chanR = s.chanR := rfl
@[simp] theorem State.advance_chanG : (s.advance).chanG = s.chanG := rfl
@[simp] theorem State.advance_chanB : (s.advance).chanB = s.chanB := rfl
@[simp] theorem State.advance_pwm : (s.advance).pwm = s.pwm := rfl
@[simp] theorem State.advance_tmrArmed : (s.advance).tmrArmed = s.tmrArmed := rfl
@[simp] theorem State.advance_csHeld : (s.advance).csHeld = s.csHeld := rfl
@[simp] theorem State.advance_irqPending : (s.advance).irqPending = s.irqPending := rfl
@[simp] theorem State.advance_rb0 : (s.advance).rb0 = s.rb0 := rfl
@[simp] theorem State.advance_rb1 : (s.advance).rb1 = s.rb1 := rfl
@[simp] theorem State.advance_busLog : (s.advance).busLog = s.busLog := rfl
@[simp] theorem State.advance_phase : (s.advance).phase = s.phase := rfl
@[simp] theorem State.advance_prog : (s.advance).prog = s.prog := rfl
@[simp] theorem State.advance_sched : (s.advance).sched = s.sched := rfl
@[simp] theorem State.advance_env : (s.advance).env = s.env := rfl
@[simp] theorem State.advance_envClock : (s.advance).envClock = s.envClock := rfl
@[simp] theorem State.advance_cfg : (s.advance).cfg = s.cfg := rfl

/-! ### setRes (R22) -/

@[simp] theorem State.setRes_cp (v : Word) : (s.setRes v).cp = s.cp := rfl
@[simp] theorem State.setRes_res (v : Word) : (s.setRes v).res = some v := rfl
@[simp] theorem State.setRes_siConfigured (v : Word) : (s.setRes v).siConfigured = s.siConfigured := rfl
@[simp] theorem State.setRes_siMode (v : Word) : (s.setRes v).siMode = s.siMode := rfl
@[simp] theorem State.setRes_siColor (v : Word) : (s.setRes v).siColor = s.siColor := rfl
@[simp] theorem State.setRes_siTicks (v : Word) : (s.setRes v).siTicks = s.siTicks := rfl
@[simp] theorem State.setRes_chanR (v : Word) : (s.setRes v).chanR = s.chanR := rfl
@[simp] theorem State.setRes_chanG (v : Word) : (s.setRes v).chanG = s.chanG := rfl
@[simp] theorem State.setRes_chanB (v : Word) : (s.setRes v).chanB = s.chanB := rfl
@[simp] theorem State.setRes_pwm (v : Word) : (s.setRes v).pwm = s.pwm := rfl
@[simp] theorem State.setRes_tmrArmed (v : Word) : (s.setRes v).tmrArmed = s.tmrArmed := rfl
@[simp] theorem State.setRes_csHeld (v : Word) : (s.setRes v).csHeld = s.csHeld := rfl
@[simp] theorem State.setRes_irqPending (v : Word) : (s.setRes v).irqPending = s.irqPending := rfl
@[simp] theorem State.setRes_rb0 (v : Word) : (s.setRes v).rb0 = s.rb0 := rfl
@[simp] theorem State.setRes_rb1 (v : Word) : (s.setRes v).rb1 = s.rb1 := rfl
@[simp] theorem State.setRes_busLog (v : Word) : (s.setRes v).busLog = s.busLog := rfl
@[simp] theorem State.setRes_phase (v : Word) : (s.setRes v).phase = s.phase := rfl
@[simp] theorem State.setRes_prog (v : Word) : (s.setRes v).prog = s.prog := rfl
@[simp] theorem State.setRes_sched (v : Word) : (s.setRes v).sched = s.sched := rfl
@[simp] theorem State.setRes_env (v : Word) : (s.setRes v).env = s.env := rfl
@[simp] theorem State.setRes_envClock (v : Word) : (s.setRes v).envClock = s.envClock := rfl
@[simp] theorem State.setRes_cfg (v : Word) : (s.setRes v).cfg = s.cfg := rfl

/-! ### setPwm (R30) -/

@[simp] theorem State.setPwm_cp (ch : ChannelId) (p : PwmChannel) : (s.setPwm ch p).cp = s.cp := rfl
@[simp] theorem State.setPwm_res (ch : ChannelId) (p : PwmChannel) : (s.setPwm ch p).res = s.res := rfl
@[simp] theorem State.setPwm_siConfigured (ch : ChannelId) (p : PwmChannel) : (s.setPwm ch p).siConfigured = s.siConfigured := rfl
@[simp] theorem State.setPwm_siMode (ch : ChannelId) (p : PwmChannel) : (s.setPwm ch p).siMode = s.siMode := rfl
@[simp] theorem State.setPwm_siColor (ch : ChannelId) (p : PwmChannel) : (s.setPwm ch p).siColor = s.siColor := rfl
@[simp] theorem State.setPwm_siTicks (ch : ChannelId) (p : PwmChannel) : (s.setPwm ch p).siTicks = s.siTicks := rfl
@[simp] theorem State.setPwm_chanR (ch : ChannelId) (p : PwmChannel) : (s.setPwm ch p).chanR = s.chanR := rfl
@[simp] theorem State.setPwm_chanG (ch : ChannelId) (p : PwmChannel) : (s.setPwm ch p).chanG = s.chanG := rfl
@[simp] theorem State.setPwm_chanB (ch : ChannelId) (p : PwmChannel) : (s.setPwm ch p).chanB = s.chanB := rfl
@[simp] theorem State.setPwm_tmrArmed (ch : ChannelId) (p : PwmChannel) : (s.setPwm ch p).tmrArmed = s.tmrArmed := rfl
@[simp] theorem State.setPwm_csHeld (ch : ChannelId) (p : PwmChannel) : (s.setPwm ch p).csHeld = s.csHeld := rfl
@[simp] theorem State.setPwm_irqPending (ch : ChannelId) (p : PwmChannel) : (s.setPwm ch p).irqPending = s.irqPending := rfl
@[simp] theorem State.setPwm_rb0 (ch : ChannelId) (p : PwmChannel) : (s.setPwm ch p).rb0 = s.rb0 := rfl
@[simp] theorem State.setPwm_rb1 (ch : ChannelId) (p : PwmChannel) : (s.setPwm ch p).rb1 = s.rb1 := rfl
@[simp] theorem State.setPwm_busLog (ch : ChannelId) (p : PwmChannel) : (s.setPwm ch p).busLog = s.busLog := rfl
@[simp] theorem State.setPwm_phase (ch : ChannelId) (p : PwmChannel) : (s.setPwm ch p).phase = s.phase := rfl
@[simp] theorem State.setPwm_prog (ch : ChannelId) (p : PwmChannel) : (s.setPwm ch p).prog = s.prog := rfl
@[simp] theorem State.setPwm_sched (ch : ChannelId) (p : PwmChannel) : (s.setPwm ch p).sched = s.sched := rfl
@[simp] theorem State.setPwm_env (ch : ChannelId) (p : PwmChannel) : (s.setPwm ch p).env = s.env := rfl
@[simp] theorem State.setPwm_envClock (ch : ChannelId) (p : PwmChannel) : (s.setPwm ch p).envClock = s.envClock := rfl
@[simp] theorem State.setPwm_cfg (ch : ChannelId) (p : PwmChannel) : (s.setPwm ch p).cfg = s.cfg := rfl

/-! ### setPin (R81) -/

@[simp] theorem State.setPin_cp (ch : ChannelId) (pin : Byte) : (s.setPin ch pin).cp = s.cp := rfl
@[simp] theorem State.setPin_res (ch : ChannelId) (pin : Byte) : (s.setPin ch pin).res = s.res := rfl
@[simp] theorem State.setPin_siConfigured (ch : ChannelId) (pin : Byte) : (s.setPin ch pin).siConfigured = s.siConfigured := rfl
@[simp] theorem State.setPin_siMode (ch : ChannelId) (pin : Byte) : (s.setPin ch pin).siMode = s.siMode := rfl
@[simp] theorem State.setPin_siColor (ch : ChannelId) (pin : Byte) : (s.setPin ch pin).siColor = s.siColor := rfl
@[simp] theorem State.setPin_siTicks (ch : ChannelId) (pin : Byte) : (s.setPin ch pin).siTicks = s.siTicks := rfl
@[simp] theorem State.setPin_chanR (ch : ChannelId) (pin : Byte) : (s.setPin ch pin).chanR = s.chanR := rfl
@[simp] theorem State.setPin_chanG (ch : ChannelId) (pin : Byte) : (s.setPin ch pin).chanG = s.chanG := rfl
@[simp] theorem State.setPin_chanB (ch : ChannelId) (pin : Byte) : (s.setPin ch pin).chanB = s.chanB := rfl
@[simp] theorem State.setPin_tmrArmed (ch : ChannelId) (pin : Byte) : (s.setPin ch pin).tmrArmed = s.tmrArmed := rfl
@[simp] theorem State.setPin_csHeld (ch : ChannelId) (pin : Byte) : (s.setPin ch pin).csHeld = s.csHeld := rfl
@[simp] theorem State.setPin_irqPending (ch : ChannelId) (pin : Byte) : (s.setPin ch pin).irqPending = s.irqPending := rfl
@[simp] theorem State.setPin_rb0 (ch : ChannelId) (pin : Byte) : (s.setPin ch pin).rb0 = s.rb0 := rfl
@[simp] theorem State.setPin_rb1 (ch : ChannelId) (pin : Byte) : (s.setPin ch pin).rb1 = s.rb1 := rfl
@[simp] theorem State.setPin_busLog (ch : ChannelId) (pin : Byte) : (s.setPin ch pin).busLog = s.busLog := rfl
@[simp] theorem State.setPin_phase (ch : ChannelId) (pin : Byte) : (s.setPin ch pin).phase = s.phase := rfl
@[simp] theorem State.setPin_prog (ch : ChannelId) (pin : Byte) : (s.setPin ch pin).prog = s.prog := rfl
@[simp] theorem State.setPin_sched (ch : ChannelId) (pin : Byte) : (s.setPin ch pin).sched = s.sched := rfl
@[simp] theorem State.setPin_env (ch : ChannelId) (pin : Byte) : (s.setPin ch pin).env = s.env := rfl
@[simp] theorem State.setPin_envClock (ch : ChannelId) (pin : Byte) : (s.setPin ch pin).envClock = s.envClock := rfl
@[simp] theorem State.setPin_cfg (ch : ChannelId) (pin : Byte) : (s.setPin ch pin).cfg = s.cfg := rfl

/-! ### setDuty (R82) -/

@[simp] theorem State.setDuty_cp (chan : Option LedChannel) (d : Byte) : (s.setDuty chan d).cp = s.cp := by cases chan <;> rfl
@[simp] theorem State.setDuty_res (chan : Option LedChannel) (d : Byte) : (s.setDuty chan d).res = s.res := by cases chan <;> rfl
@[simp] theorem State.setDuty_siConfigured (chan : Option LedChannel) (d : Byte) : (s.setDuty chan d).siConfigured = s.siConfigured := by cases chan <;> rfl
@[simp] theorem State.setDuty_siMode (chan : Option LedChannel) (d : Byte) : (s.setDuty chan d).siMode = s.siMode := by cases chan <;> rfl
@[simp] theorem State.setDuty_siColor (chan : Option LedChannel) (d : Byte) : (s.setDuty chan d).siColor = s.siColor := by cases chan <;> rfl
@[simp] theorem State.setDuty_siTicks (chan : Option LedChannel) (d : Byte) : (s.setDuty chan d).siTicks = s.siTicks := by cases chan <;> rfl
@[simp] theorem State.setDuty_chanR (chan : Option LedChannel) (d : Byte) : (s.setDuty chan d).chanR = s.chanR := by cases chan <;> rfl
@[simp] theorem State.setDuty_chanG (chan : Option LedChannel) (d : Byte) : (s.setDuty chan d).chanG = s.chanG := by cases chan <;> rfl
@[simp] theorem State.setDuty_chanB (chan : Option LedChannel) (d : Byte) : (s.setDuty chan d).chanB = s.chanB := by cases chan <;> rfl
@[simp] theorem State.setDuty_tmrArmed (chan : Option LedChannel) (d : Byte) : (s.setDuty chan d).tmrArmed = s.tmrArmed := by cases chan <;> rfl
@[simp] theorem State.setDuty_csHeld (chan : Option LedChannel) (d : Byte) : (s.setDuty chan d).csHeld = s.csHeld := by cases chan <;> rfl
@[simp] theorem State.setDuty_irqPending (chan : Option LedChannel) (d : Byte) : (s.setDuty chan d).irqPending = s.irqPending := by cases chan <;> rfl
@[simp] theorem State.setDuty_rb0 (chan : Option LedChannel) (d : Byte) : (s.setDuty chan d).rb0 = s.rb0 := by cases chan <;> rfl
@[simp] theorem State.setDuty_rb1 (chan : Option LedChannel) (d : Byte) : (s.setDuty chan d).rb1 = s.rb1 := by cases chan <;> rfl
@[simp] theorem State.setDuty_busLog (chan : Option LedChannel) (d : Byte) : (s.setDuty chan d).busLog = s.busLog := by cases chan <;> rfl
@[simp] theorem State.setDuty_phase (chan : Option LedChannel) (d : Byte) : (s.setDuty chan d).phase = s.phase := by cases chan <;> rfl
@[simp] theorem State.setDuty_prog (chan : Option LedChannel) (d : Byte) : (s.setDuty chan d).prog = s.prog := by cases chan <;> rfl
@[simp] theorem State.setDuty_sched (chan : Option LedChannel) (d : Byte) : (s.setDuty chan d).sched = s.sched := by cases chan <;> rfl
@[simp] theorem State.setDuty_env (chan : Option LedChannel) (d : Byte) : (s.setDuty chan d).env = s.env := by cases chan <;> rfl
@[simp] theorem State.setDuty_envClock (chan : Option LedChannel) (d : Byte) : (s.setDuty chan d).envClock = s.envClock := by cases chan <;> rfl
@[simp] theorem State.setDuty_cfg (chan : Option LedChannel) (d : Byte) : (s.setDuty chan d).cfg = s.cfg := by cases chan <;> rfl

/-! ### show: the three duty writes (R82, R84) -/

@[simp] theorem State.show_cp (t : Duty) : (s.show t).cp = s.cp := by simp [State.show]
@[simp] theorem State.show_res (t : Duty) : (s.show t).res = s.res := by simp [State.show]
@[simp] theorem State.show_siConfigured (t : Duty) : (s.show t).siConfigured = s.siConfigured := by simp [State.show]
@[simp] theorem State.show_siMode (t : Duty) : (s.show t).siMode = s.siMode := by simp [State.show]
@[simp] theorem State.show_siColor (t : Duty) : (s.show t).siColor = s.siColor := by simp [State.show]
@[simp] theorem State.show_siTicks (t : Duty) : (s.show t).siTicks = s.siTicks := by simp [State.show]
@[simp] theorem State.show_chanR (t : Duty) : (s.show t).chanR = s.chanR := by simp [State.show]
@[simp] theorem State.show_chanG (t : Duty) : (s.show t).chanG = s.chanG := by simp [State.show]
@[simp] theorem State.show_chanB (t : Duty) : (s.show t).chanB = s.chanB := by simp [State.show]
@[simp] theorem State.show_tmrArmed (t : Duty) : (s.show t).tmrArmed = s.tmrArmed := by simp [State.show]
@[simp] theorem State.show_csHeld (t : Duty) : (s.show t).csHeld = s.csHeld := by simp [State.show]
@[simp] theorem State.show_irqPending (t : Duty) : (s.show t).irqPending = s.irqPending := by simp [State.show]
@[simp] theorem State.show_rb0 (t : Duty) : (s.show t).rb0 = s.rb0 := by simp [State.show]
@[simp] theorem State.show_rb1 (t : Duty) : (s.show t).rb1 = s.rb1 := by simp [State.show]
@[simp] theorem State.show_busLog (t : Duty) : (s.show t).busLog = s.busLog := by simp [State.show]
@[simp] theorem State.show_phase (t : Duty) : (s.show t).phase = s.phase := by simp [State.show]
@[simp] theorem State.show_prog (t : Duty) : (s.show t).prog = s.prog := by simp [State.show]
@[simp] theorem State.show_sched (t : Duty) : (s.show t).sched = s.sched := by simp [State.show]
@[simp] theorem State.show_env (t : Duty) : (s.show t).env = s.env := by simp [State.show]
@[simp] theorem State.show_envClock (t : Duty) : (s.show t).envClock = s.envClock := by simp [State.show]
@[simp] theorem State.show_cfg (t : Duty) : (s.show t).cfg = s.cfg := by simp [State.show]

/-! ### apply (R82) -/

@[simp] theorem State.apply_cp (c : ColorIx) : (s.apply c).cp = s.cp := by simp [State.apply]
@[simp] theorem State.apply_res (c : ColorIx) : (s.apply c).res = s.res := by simp [State.apply]
@[simp] theorem State.apply_siConfigured (c : ColorIx) : (s.apply c).siConfigured = s.siConfigured := by simp [State.apply]
@[simp] theorem State.apply_siMode (c : ColorIx) : (s.apply c).siMode = s.siMode := by simp [State.apply]
@[simp] theorem State.apply_siColor (c : ColorIx) : (s.apply c).siColor = clamp s.cfg c := by simp [State.apply]
@[simp] theorem State.apply_siTicks (c : ColorIx) : (s.apply c).siTicks = s.siTicks := by simp [State.apply]
@[simp] theorem State.apply_chanR (c : ColorIx) : (s.apply c).chanR = s.chanR := by simp [State.apply]
@[simp] theorem State.apply_chanG (c : ColorIx) : (s.apply c).chanG = s.chanG := by simp [State.apply]
@[simp] theorem State.apply_chanB (c : ColorIx) : (s.apply c).chanB = s.chanB := by simp [State.apply]
@[simp] theorem State.apply_tmrArmed (c : ColorIx) : (s.apply c).tmrArmed = s.tmrArmed := by simp [State.apply]
@[simp] theorem State.apply_csHeld (c : ColorIx) : (s.apply c).csHeld = s.csHeld := by simp [State.apply]
@[simp] theorem State.apply_irqPending (c : ColorIx) : (s.apply c).irqPending = s.irqPending := by simp [State.apply]
@[simp] theorem State.apply_rb0 (c : ColorIx) : (s.apply c).rb0 = s.rb0 := by simp [State.apply]
@[simp] theorem State.apply_rb1 (c : ColorIx) : (s.apply c).rb1 = s.rb1 := by simp [State.apply]
@[simp] theorem State.apply_busLog (c : ColorIx) : (s.apply c).busLog = s.busLog := by simp [State.apply]
@[simp] theorem State.apply_phase (c : ColorIx) : (s.apply c).phase = s.phase := by simp [State.apply]
@[simp] theorem State.apply_prog (c : ColorIx) : (s.apply c).prog = s.prog := by simp [State.apply]
@[simp] theorem State.apply_sched (c : ColorIx) : (s.apply c).sched = s.sched := by simp [State.apply]
@[simp] theorem State.apply_env (c : ColorIx) : (s.apply c).env = s.env := by simp [State.apply]
@[simp] theorem State.apply_envClock (c : ColorIx) : (s.apply c).envClock = s.envClock := by simp [State.apply]
@[simp] theorem State.apply_cfg (c : ColorIx) : (s.apply c).cfg = s.cfg := by simp [State.apply]

/-! ### setBus (R34) -/

@[simp] theorem State.setBus_cp (b : BusId) (r : BusRegs) : (s.setBus b r).cp = s.cp := by cases b <;> rfl
@[simp] theorem State.setBus_res (b : BusId) (r : BusRegs) : (s.setBus b r).res = s.res := by cases b <;> rfl
@[simp] theorem State.setBus_siConfigured (b : BusId) (r : BusRegs) : (s.setBus b r).siConfigured = s.siConfigured := by cases b <;> rfl
@[simp] theorem State.setBus_siMode (b : BusId) (r : BusRegs) : (s.setBus b r).siMode = s.siMode := by cases b <;> rfl
@[simp] theorem State.setBus_siColor (b : BusId) (r : BusRegs) : (s.setBus b r).siColor = s.siColor := by cases b <;> rfl
@[simp] theorem State.setBus_siTicks (b : BusId) (r : BusRegs) : (s.setBus b r).siTicks = s.siTicks := by cases b <;> rfl
@[simp] theorem State.setBus_chanR (b : BusId) (r : BusRegs) : (s.setBus b r).chanR = s.chanR := by cases b <;> rfl
@[simp] theorem State.setBus_chanG (b : BusId) (r : BusRegs) : (s.setBus b r).chanG = s.chanG := by cases b <;> rfl
@[simp] theorem State.setBus_chanB (b : BusId) (r : BusRegs) : (s.setBus b r).chanB = s.chanB := by cases b <;> rfl
@[simp] theorem State.setBus_pwm (b : BusId) (r : BusRegs) : (s.setBus b r).pwm = s.pwm := by cases b <;> rfl
@[simp] theorem State.setBus_tmrArmed (b : BusId) (r : BusRegs) : (s.setBus b r).tmrArmed = s.tmrArmed := by cases b <;> rfl
@[simp] theorem State.setBus_csHeld (b : BusId) (r : BusRegs) : (s.setBus b r).csHeld = s.csHeld := by cases b <;> rfl
@[simp] theorem State.setBus_irqPending (b : BusId) (r : BusRegs) : (s.setBus b r).irqPending = s.irqPending := by cases b <;> rfl
@[simp] theorem State.setBus_busLog (b : BusId) (r : BusRegs) : (s.setBus b r).busLog = s.busLog := by cases b <;> rfl
@[simp] theorem State.setBus_phase (b : BusId) (r : BusRegs) : (s.setBus b r).phase = s.phase := by cases b <;> rfl
@[simp] theorem State.setBus_prog (b : BusId) (r : BusRegs) : (s.setBus b r).prog = s.prog := by cases b <;> rfl
@[simp] theorem State.setBus_sched (b : BusId) (r : BusRegs) : (s.setBus b r).sched = s.sched := by cases b <;> rfl
@[simp] theorem State.setBus_env (b : BusId) (r : BusRegs) : (s.setBus b r).env = s.env := by cases b <;> rfl
@[simp] theorem State.setBus_envClock (b : BusId) (r : BusRegs) : (s.setBus b r).envClock = s.envClock := by cases b <;> rfl
@[simp] theorem State.setBus_cfg (b : BusId) (r : BusRegs) : (s.setBus b r).cfg = s.cfg := by cases b <;> rfl

/-! ### markBusy (R54) -/

@[simp] theorem State.markBusy_cp (b : BusId) : (s.markBusy b).cp = s.cp := by cases b <;> rfl
@[simp] theorem State.markBusy_res (b : BusId) : (s.markBusy b).res = s.res := by cases b <;> rfl
@[simp] theorem State.markBusy_siConfigured (b : BusId) : (s.markBusy b).siConfigured = s.siConfigured := by cases b <;> rfl
@[simp] theorem State.markBusy_siMode (b : BusId) : (s.markBusy b).siMode = s.siMode := by cases b <;> rfl
@[simp] theorem State.markBusy_siColor (b : BusId) : (s.markBusy b).siColor = s.siColor := by cases b <;> rfl
@[simp] theorem State.markBusy_siTicks (b : BusId) : (s.markBusy b).siTicks = s.siTicks := by cases b <;> rfl
@[simp] theorem State.markBusy_chanR (b : BusId) : (s.markBusy b).chanR = s.chanR := by cases b <;> rfl
@[simp] theorem State.markBusy_chanG (b : BusId) : (s.markBusy b).chanG = s.chanG := by cases b <;> rfl
@[simp] theorem State.markBusy_chanB (b : BusId) : (s.markBusy b).chanB = s.chanB := by cases b <;> rfl
@[simp] theorem State.markBusy_pwm (b : BusId) : (s.markBusy b).pwm = s.pwm := by cases b <;> rfl
@[simp] theorem State.markBusy_tmrArmed (b : BusId) : (s.markBusy b).tmrArmed = s.tmrArmed := by cases b <;> rfl
@[simp] theorem State.markBusy_csHeld (b : BusId) : (s.markBusy b).csHeld = s.csHeld := by cases b <;> rfl
@[simp] theorem State.markBusy_irqPending (b : BusId) : (s.markBusy b).irqPending = s.irqPending := by cases b <;> rfl
@[simp] theorem State.markBusy_busLog (b : BusId) : (s.markBusy b).busLog = s.busLog := by cases b <;> rfl
@[simp] theorem State.markBusy_phase (b : BusId) : (s.markBusy b).phase = s.phase := by cases b <;> rfl
@[simp] theorem State.markBusy_prog (b : BusId) : (s.markBusy b).prog = s.prog := by cases b <;> rfl
@[simp] theorem State.markBusy_sched (b : BusId) : (s.markBusy b).sched = s.sched := by cases b <;> rfl
@[simp] theorem State.markBusy_env (b : BusId) : (s.markBusy b).env = s.env := by cases b <;> rfl
@[simp] theorem State.markBusy_envClock (b : BusId) : (s.markBusy b).envClock = s.envClock := by cases b <;> rfl
@[simp] theorem State.markBusy_cfg (b : BusId) : (s.markBusy b).cfg = s.cfg := by cases b <;> rfl

/-! ### stall: a hang in the polls of MOT.SPIND (R118) -/

@[simp] theorem State.stall_cp (sel : Selector) (dist : BitVec 32) : (s.stall sel dist).cp = s.cp := by simp [State.stall]
@[simp] theorem State.stall_res (sel : Selector) (dist : BitVec 32) : (s.stall sel dist).res = s.res := by simp [State.stall]
@[simp] theorem State.stall_siConfigured (sel : Selector) (dist : BitVec 32) : (s.stall sel dist).siConfigured = s.siConfigured := by simp [State.stall]
@[simp] theorem State.stall_siMode (sel : Selector) (dist : BitVec 32) : (s.stall sel dist).siMode = s.siMode := by simp [State.stall]
@[simp] theorem State.stall_siColor (sel : Selector) (dist : BitVec 32) : (s.stall sel dist).siColor = s.siColor := by simp [State.stall]
@[simp] theorem State.stall_siTicks (sel : Selector) (dist : BitVec 32) : (s.stall sel dist).siTicks = s.siTicks := by simp [State.stall]
@[simp] theorem State.stall_chanR (sel : Selector) (dist : BitVec 32) : (s.stall sel dist).chanR = s.chanR := by simp [State.stall]
@[simp] theorem State.stall_chanG (sel : Selector) (dist : BitVec 32) : (s.stall sel dist).chanG = s.chanG := by simp [State.stall]
@[simp] theorem State.stall_chanB (sel : Selector) (dist : BitVec 32) : (s.stall sel dist).chanB = s.chanB := by simp [State.stall]
@[simp] theorem State.stall_pwm (sel : Selector) (dist : BitVec 32) : (s.stall sel dist).pwm = s.pwm := by simp [State.stall]
@[simp] theorem State.stall_tmrArmed (sel : Selector) (dist : BitVec 32) : (s.stall sel dist).tmrArmed = s.tmrArmed := by simp [State.stall]
@[simp] theorem State.stall_csHeld (sel : Selector) (dist : BitVec 32) : (s.stall sel dist).csHeld = s.csHeld := by simp [State.stall]
@[simp] theorem State.stall_irqPending (sel : Selector) (dist : BitVec 32) : (s.stall sel dist).irqPending = s.irqPending := by simp [State.stall]
@[simp] theorem State.stall_busLog (sel : Selector) (dist : BitVec 32) : (s.stall sel dist).busLog = s.busLog := by simp [State.stall]
@[simp] theorem State.stall_phase (sel : Selector) (dist : BitVec 32) : (s.stall sel dist).phase = .polling sel dist := by simp [State.stall]
@[simp] theorem State.stall_prog (sel : Selector) (dist : BitVec 32) : (s.stall sel dist).prog = s.prog := by simp [State.stall]
@[simp] theorem State.stall_sched (sel : Selector) (dist : BitVec 32) : (s.stall sel dist).sched = s.sched := by simp [State.stall]
@[simp] theorem State.stall_env (sel : Selector) (dist : BitVec 32) : (s.stall sel dist).env = s.env := by simp [State.stall]
@[simp] theorem State.stall_envClock (sel : Selector) (dist : BitVec 32) : (s.stall sel dist).envClock = s.envClock := by simp [State.stall]
@[simp] theorem State.stall_cfg (sel : Selector) (dist : BitVec 32) : (s.stall sel dist).cfg = s.cfg := by simp [State.stall]

/-! ### logged (R50) -/

@[simp] theorem State.logged_cp (t : Transaction) (e : Env) : (s.logged t e).cp = s.cp := rfl
@[simp] theorem State.logged_res (t : Transaction) (e : Env) : (s.logged t e).res = s.res := rfl
@[simp] theorem State.logged_siConfigured (t : Transaction) (e : Env) : (s.logged t e).siConfigured = s.siConfigured := rfl
@[simp] theorem State.logged_siMode (t : Transaction) (e : Env) : (s.logged t e).siMode = s.siMode := rfl
@[simp] theorem State.logged_siColor (t : Transaction) (e : Env) : (s.logged t e).siColor = s.siColor := rfl
@[simp] theorem State.logged_siTicks (t : Transaction) (e : Env) : (s.logged t e).siTicks = s.siTicks := rfl
@[simp] theorem State.logged_chanR (t : Transaction) (e : Env) : (s.logged t e).chanR = s.chanR := rfl
@[simp] theorem State.logged_chanG (t : Transaction) (e : Env) : (s.logged t e).chanG = s.chanG := rfl
@[simp] theorem State.logged_chanB (t : Transaction) (e : Env) : (s.logged t e).chanB = s.chanB := rfl
@[simp] theorem State.logged_pwm (t : Transaction) (e : Env) : (s.logged t e).pwm = s.pwm := rfl
@[simp] theorem State.logged_tmrArmed (t : Transaction) (e : Env) : (s.logged t e).tmrArmed = s.tmrArmed := rfl
@[simp] theorem State.logged_csHeld (t : Transaction) (e : Env) : (s.logged t e).csHeld = s.csHeld := rfl
@[simp] theorem State.logged_irqPending (t : Transaction) (e : Env) : (s.logged t e).irqPending = s.irqPending := rfl
@[simp] theorem State.logged_rb0 (t : Transaction) (e : Env) : (s.logged t e).rb0 = s.rb0 := rfl
@[simp] theorem State.logged_rb1 (t : Transaction) (e : Env) : (s.logged t e).rb1 = s.rb1 := rfl
@[simp] theorem State.logged_busLog (t : Transaction) (e : Env) : (s.logged t e).busLog = s.busLog ++ [t] := rfl
@[simp] theorem State.logged_phase (t : Transaction) (e : Env) : (s.logged t e).phase = s.phase := rfl
@[simp] theorem State.logged_prog (t : Transaction) (e : Env) : (s.logged t e).prog = s.prog := rfl
@[simp] theorem State.logged_sched (t : Transaction) (e : Env) : (s.logged t e).sched = s.sched := rfl
@[simp] theorem State.logged_env (t : Transaction) (e : Env) : (s.logged t e).env = e := rfl
@[simp] theorem State.logged_envClock (t : Transaction) (e : Env) : (s.logged t e).envClock = s.envClock + 1 := rfl
@[simp] theorem State.logged_cfg (t : Transaction) (e : Env) : (s.logged t e).cfg = s.cfg := rfl

/-! ### enterCs (R61) -/

@[simp] theorem State.enterCs_cp : (s.enterCs).cp = s.cp := rfl
@[simp] theorem State.enterCs_res : (s.enterCs).res = s.res := rfl
@[simp] theorem State.enterCs_siConfigured : (s.enterCs).siConfigured = s.siConfigured := rfl
@[simp] theorem State.enterCs_siMode : (s.enterCs).siMode = s.siMode := rfl
@[simp] theorem State.enterCs_siColor : (s.enterCs).siColor = s.siColor := rfl
@[simp] theorem State.enterCs_siTicks : (s.enterCs).siTicks = s.siTicks := rfl
@[simp] theorem State.enterCs_chanR : (s.enterCs).chanR = s.chanR := rfl
@[simp] theorem State.enterCs_chanG : (s.enterCs).chanG = s.chanG := rfl
@[simp] theorem State.enterCs_chanB : (s.enterCs).chanB = s.chanB := rfl
@[simp] theorem State.enterCs_pwm : (s.enterCs).pwm = s.pwm := rfl
@[simp] theorem State.enterCs_tmrArmed : (s.enterCs).tmrArmed = s.tmrArmed := rfl
@[simp] theorem State.enterCs_csHeld : (s.enterCs).csHeld = true := rfl
@[simp] theorem State.enterCs_irqPending : (s.enterCs).irqPending = s.irqPending := rfl
@[simp] theorem State.enterCs_rb0 : (s.enterCs).rb0 = s.rb0 := rfl
@[simp] theorem State.enterCs_rb1 : (s.enterCs).rb1 = s.rb1 := rfl
@[simp] theorem State.enterCs_busLog : (s.enterCs).busLog = s.busLog := rfl
@[simp] theorem State.enterCs_phase : (s.enterCs).phase = s.phase := rfl
@[simp] theorem State.enterCs_prog : (s.enterCs).prog = s.prog := rfl
@[simp] theorem State.enterCs_sched : (s.enterCs).sched = s.sched := rfl
@[simp] theorem State.enterCs_env : (s.enterCs).env = s.env := rfl
@[simp] theorem State.enterCs_envClock : (s.enterCs).envClock = s.envClock := rfl
@[simp] theorem State.enterCs_cfg : (s.enterCs).cfg = s.cfg := rfl

/-! ### popEvent (R7) -/

@[simp] theorem State.popEvent_cp : (s.popEvent).cp = s.cp := rfl
@[simp] theorem State.popEvent_res : (s.popEvent).res = s.res := rfl
@[simp] theorem State.popEvent_siConfigured : (s.popEvent).siConfigured = s.siConfigured := rfl
@[simp] theorem State.popEvent_siMode : (s.popEvent).siMode = s.siMode := rfl
@[simp] theorem State.popEvent_siColor : (s.popEvent).siColor = s.siColor := rfl
@[simp] theorem State.popEvent_siTicks : (s.popEvent).siTicks = s.siTicks := rfl
@[simp] theorem State.popEvent_chanR : (s.popEvent).chanR = s.chanR := rfl
@[simp] theorem State.popEvent_chanG : (s.popEvent).chanG = s.chanG := rfl
@[simp] theorem State.popEvent_chanB : (s.popEvent).chanB = s.chanB := rfl
@[simp] theorem State.popEvent_pwm : (s.popEvent).pwm = s.pwm := rfl
@[simp] theorem State.popEvent_tmrArmed : (s.popEvent).tmrArmed = s.tmrArmed := rfl
@[simp] theorem State.popEvent_csHeld : (s.popEvent).csHeld = s.csHeld := rfl
@[simp] theorem State.popEvent_irqPending : (s.popEvent).irqPending = s.irqPending := rfl
@[simp] theorem State.popEvent_rb0 : (s.popEvent).rb0 = s.rb0 := rfl
@[simp] theorem State.popEvent_rb1 : (s.popEvent).rb1 = s.rb1 := rfl
@[simp] theorem State.popEvent_busLog : (s.popEvent).busLog = s.busLog := rfl
@[simp] theorem State.popEvent_phase : (s.popEvent).phase = s.phase := rfl
@[simp] theorem State.popEvent_prog : (s.popEvent).prog = s.prog := rfl
@[simp] theorem State.popEvent_sched : (s.popEvent).sched = s.sched.tail := rfl
@[simp] theorem State.popEvent_env : (s.popEvent).env = s.env := rfl
@[simp] theorem State.popEvent_envClock : (s.popEvent).envClock = s.envClock := rfl
@[simp] theorem State.popEvent_cfg : (s.popEvent).cfg = s.cfg := rfl

/-! ### Reading back -/

@[simp] theorem State.bus_setBus_same (b : BusId) (r : BusRegs) : (s.setBus b r).bus b = r := by cases b <;> rfl

theorem State.bus_setBus_other (b b' : BusId) (r : BusRegs) (h : b' ≠ b) : (s.setBus b r).bus b' = s.bus b' := by
  cases b <;> cases b' <;> first | rfl | exact absurd rfl h

@[simp] theorem State.bus_markBusy_same (b : BusId) : (s.markBusy b).bus b = { s.bus b with busy := true } := by
  cases b <;> rfl

theorem State.bus_markBusy_other (b b' : BusId) (h : b' ≠ b) : (s.markBusy b).bus b' = s.bus b' :=
  State.bus_setBus_other s b b' _ h

/-- Setting the Host's status and marking a bus busy are independent. -/
theorem State.markBusy_phase_comm (b : BusId) (p : HostPhase) :
    State.markBusy { s with phase := p } b = { s.markBusy b with phase := p } := by cases b <;> rfl

@[simp] theorem State.pwmAt_setPwm_same (ch : ChannelId) (p : PwmChannel) : (s.setPwm ch p).pwmAt ch = p := by
  simp [State.setPwm, State.pwmAt]

theorem State.pwmAt_setPwm_other (ch ch' : ChannelId) (p : PwmChannel) (h : ch' ≠ ch) :
    (s.setPwm ch p).pwmAt ch' = s.pwmAt ch' := by
  have hne : ch.toNat ≠ ch'.toNat := fun e => h (BitVec.eq_of_toNat_eq e).symm
  simp [State.setPwm, State.pwmAt, Vector.getElem_set_ne, hne]

end Sys2Proof.Machine
end

