-- ==== Sys2Proof/Laws/Ops.lean ====
section
/-! SUPPORT. For each shared operation, everything it can do, said once. -/

namespace Sys2Proof.Machine

variable (s : State)

/-! ### The PWM registers -/

theorem State.pwmAt_setDuty (ch : LedChannel) (d : Byte) (c : ChannelId) :
    (s.setDuty (some ch) d).pwmAt c =
      if c = ch.id then { s.pwmAt c with duty := some d } else s.pwmAt c := by
  unfold State.setDuty
  dsimp only
  split
  · rename_i h
    rw [h, State.pwmAt_setPwm_same]
  · rename_i h
    exact State.pwmAt_setPwm_other _ _ _ _ h

theorem State.pwmAt_setPin (ch c : ChannelId) (pin : Byte) :
    (s.setPin ch pin).pwmAt c = if c = ch then { s.pwmAt c with pin := some pin } else s.pwmAt c := by
  unfold State.setPin
  split
  · rename_i h
    rw [h, State.pwmAt_setPwm_same]
  · rename_i h
    exact State.pwmAt_setPwm_other _ _ _ _ h

/-- The three duty writes, on a block whose channels are configured (R82): later colours overwrite earlier ones only if
the identifiers coincide. -/
theorem State.pwmAt_show (t : Duty) (r g b : LedChannel) (hr : s.chanR = some r) (hg : s.chanG = some g)
    (hb : s.chanB = some b) (c : ChannelId) :
    (s.show t).pwmAt c =
      if c = b.id then { s.pwmAt c with duty := some t.b }
      else if c = g.id then { s.pwmAt c with duty := some t.g }
      else if c = r.id then { s.pwmAt c with duty := some t.r }
      else s.pwmAt c := by
  unfold State.show
  rw [hr, hg, hb, State.pwmAt_setDuty, State.pwmAt_setDuty, State.pwmAt_setDuty]
  split_ifs <;> rfl

/-- `show` changes the PWM registers only. -/
theorem State.show_frame (t : Duty) : s.show t = { s with pwm := (s.show t).pwm } := by
  have h : ∀ (u : State) (c : Option LedChannel) (d : Byte), u.setDuty c d = { u with pwm := (u.setDuty c d).pwm } := by
    intro u c d
    cases c <;> rfl
  unfold State.show
  rw [h _ s.chanB, h _ s.chanG, h s s.chanR]

/-- `apply` changes the PWM registers and the stored colour only (R82). -/
theorem State.apply_frame (c : ColorIx) :
    s.apply c = { s with pwm := (s.show (duties s.cfg (clamp s.cfg c))).pwm, siColor := clamp s.cfg c } := by
  unfold State.apply
  rw [State.show_frame]

theorem State.pwmAt_of_pwm_eq (s t : State) (c : ChannelId) (h : t.pwm = s.pwm) : t.pwmAt c = s.pwmAt c := by
  unfold State.pwmAt
  simp [h]

@[simp] theorem State.pwmAt_apply (c : ColorIx) (ch : ChannelId) :
    (s.apply c).pwmAt ch = (s.show (duties s.cfg (clamp s.cfg c))).pwmAt ch := rfl

@[simp] theorem State.pwmAt_of_advance (ch : ChannelId) : s.advance.pwmAt ch = s.pwmAt ch := rfl

theorem State.dutyOf_some (ch : LedChannel) : s.dutyOf (some ch) = (s.pwmAt ch.id).duty := rfl

/-! ### Bus transactions -/

/-- Taking an answer: the bytes, and one record more (R54). -/
@[simp] theorem State.takeAnswer_some (b : BusId) (a : Addr7) (n : Nat) (bs : List Byte) (e : Env) :
    s.takeAnswer b a n (some bs) e = (some bs, s.logged (.read b a n (some bs)) e) := rfl

/-- Taking no answer: one record more, and the bus stays busy (R54). -/
@[simp] theorem State.takeAnswer_none (b : BusId) (a : Addr7) (n : Nat) (e : Env) :
    s.takeAnswer b a n none e = (none, (s.logged (.read b a n none) e).markBusy b) := rfl

/-- A read request that is answered (R54). -/
theorem busRead_answered (b : BusId) (a : Addr7) (n : Nat) (bs : List Byte) (h : (s.envRead b a n).1 = some bs) :
    busRead b a n s = (some bs, s.logged (.read b a n (some bs)) (s.envRead b a n).2) := by
  unfold busRead
  rw [h, State.takeAnswer_some]

/-- A read request that is never answered (R54): the bus stays busy. -/
theorem busRead_unanswered (b : BusId) (a : Addr7) (n : Nat) (h : (s.envRead b a n).1 = none) :
    busRead b a n s = (none, (s.logged (.read b a n none) (s.envRead b a n).2).markBusy b) := by
  unfold busRead
  rw [h, State.takeAnswer_none]

/-- The reference devices of an environment hold their memories in canonical form. -/
def Env.Canonical (e : Env) : Prop := ∀ devs, e = .reference devs → ∀ d ∈ devs, Memory.wf d.regs

theorem Env.write_canonical (cfg : Config) (clock : Nat) (log : List Transaction) (b : BusId) (a : Addr7)
    (bs : List Byte) (e : Env) (h : e.Canonical) : (e.write cfg clock log b a bs).2.Canonical := by
  intro devs' he d' hd'
  cases e with
  | answers acks reads => cases acks <;> cases he
  | reference devs =>
    cases he
    obtain ⟨d, hd, rfl⟩ := List.mem_map.1 hd'
    split
    · exact RefDevice.receive_wf _ _ _ (h _ rfl d hd)
    · exact h _ rfl d hd

theorem Env.read_canonical (clock : Nat) (log : List Transaction) (b : BusId) (a : Addr7) (n : Nat) (e : Env)
    (h : e.Canonical) : (e.read clock log b a n).2.Canonical := by
  intro devs' he d' hd'
  cases e with
  | answers acks reads => cases reads <;> cases he
  | reference devs =>
    cases he
    obtain ⟨d, hd, rfl⟩ := List.mem_map.1 hd'
    split
    · exact h _ rfl d hd
    · exact h _ rfl d hd

theorem State.envWrite_canonical (b : BusId) (a : Addr7) (bs : List Byte) (h : s.env.Canonical) :
    (s.envWrite b a bs).2.Canonical := by
  unfold State.envWrite
  split
  · exact Env.write_canonical _ _ _ _ _ _ _ h
  · exact h

theorem State.envRead_canonical (b : BusId) (a : Addr7) (n : Nat) (h : s.env.Canonical) :
    (s.envRead b a n).2.Canonical := by
  unfold State.envRead
  split
  · exact Env.read_canonical _ _ _ _ _ _ h
  · exact h

/-- The two states differ only in what transactions leave: the log grows, the clock counts them, the environment moves
and its devices stay canonical. -/
def OnlyLogged (s t : State) : Prop :=
  ∃ (e : Env) (l : List Transaction), (s.env.Canonical → e.Canonical) ∧
    t = { s with busLog := s.busLog ++ l, env := e, envClock := s.envClock + l.length }

theorem OnlyLogged.refl : OnlyLogged s s := ⟨s.env, [], id, by simp⟩

theorem OnlyLogged.trans {s t u : State} (h : OnlyLogged s t) (h' : OnlyLogged t u) : OnlyLogged s u := by
  obtain ⟨e, l, hc, rfl⟩ := h
  obtain ⟨e', l', hc', rfl⟩ := h'
  exact ⟨e', l ++ l', fun h => hc' (hc h), by simp [Nat.add_assoc]⟩

theorem logged_onlyLogged (t : Transaction) (e : Env) (h : s.env.Canonical → e.Canonical) :
    OnlyLogged s (s.logged t e) := ⟨e, [t], h, rfl⟩

theorem busWrite_onlyLogged (b : BusId) (a : Addr7) (bs : List Byte) : OnlyLogged s (busWrite b a bs s).2 :=
  logged_onlyLogged s _ _ (s.envWrite_canonical b a bs)

theorem regWrite_onlyLogged (b : BusId) (a : Addr7) (r : Byte) (n v : Nat) : OnlyLogged s (regWrite b a r n v s) :=
  busWrite_onlyLogged s _ _ _

theorem motorWrite_onlyLogged (r v : Byte) : OnlyLogged s (motorWrite r v s) := regWrite_onlyLogged s _ _ _ _ _

theorem spinPair_onlyLogged (sel : Selector) (speed : Byte) : OnlyLogged s (spinPair sel speed s) :=
  (motorWrite_onlyLogged s _ _).trans (motorWrite_onlyLogged _ _ _)

theorem scanOver_onlyLogged (b : BusId) (as : List Addr7) : OnlyLogged s (scanOver b as s).2 := by
  induction as generalizing s with
  | nil => exact .refl s
  | cons a as ih => exact (busWrite_onlyLogged s b a []).trans (ih _)

theorem State.logged_logged (t t' : Transaction) (e e' : Env) :
    (s.logged t e).logged t' e' =
      { s with busLog := s.busLog ++ [t, t'], env := e', envClock := s.envClock + 2 } := by
  simp [State.logged]

/-- One value byte to the motor device is one write record: the selector and the byte (R111, R98). -/
theorem motorWrite_eq (r v : Byte) :
    motorWrite r v s =
      s.logged (.write s.cfg.motorBus s.cfg.motorAddr [r, v] (s.envWrite s.cfg.motorBus s.cfg.motorAddr [r, v]).1)
        (s.envWrite s.cfg.motorBus s.cfg.motorAddr [r, v]).2 := by
  have h : beBytes v.toNat 1 = [v] := by simp [beBytes]
  simp only [motorWrite, regWrite, busWrite, h]

/-- A spin pair is two write records, mode then speed (R116). -/
theorem spinPair_eq (sel : Selector) (speed : Byte) :
    ∃ (e : Env) (k k' : Bool), (s.env.Canonical → e.Canonical) ∧
      spinPair sel speed s = { s with
        busLog := s.busLog ++ [.write s.cfg.motorBus s.cfg.motorAddr [s.cfg.regMode, spinMode s.cfg sel] k,
          .write s.cfg.motorBus s.cfg.motorAddr [spinReg s.cfg sel, speed] k']
        env := e
        envClock := s.envClock + 2 } := by
  unfold spinPair
  rw [motorWrite_eq, motorWrite_eq]
  exact ⟨_, _, _, fun h => State.envWrite_canonical _ _ _ _ (s.envWrite_canonical _ _ _ h), State.logged_logged _ _ _ _ _⟩

/-- What a blocking spin writes before its first poll: the encoder reset, then the spin pair (R118). -/
theorem spinStart_eq (sel : Selector) (speed : Byte) :
    ∃ (e : Env) (k k' k'' : Bool), (s.env.Canonical → e.Canonical) ∧
      spinPair sel speed (motorWrite s.cfg.regCommand s.cfg.cmdResetEnc s) = { s with
        busLog := s.busLog ++ [.write s.cfg.motorBus s.cfg.motorAddr [s.cfg.regCommand, s.cfg.cmdResetEnc] k,
          .write s.cfg.motorBus s.cfg.motorAddr [s.cfg.regMode, spinMode s.cfg sel] k',
          .write s.cfg.motorBus s.cfg.motorAddr [spinReg s.cfg sel, speed] k'']
        env := e
        envClock := s.envClock + 3 } := by
  obtain ⟨e, k, k', hc, h⟩ := spinPair_eq (motorWrite s.cfg.regCommand s.cfg.cmdResetEnc s) sel speed
  rw [h]
  rw [motorWrite_eq] at *
  exact ⟨e, (s.envWrite s.cfg.motorBus s.cfg.motorAddr [s.cfg.regCommand, s.cfg.cmdResetEnc]).1, k, k',
    fun h => hc (s.envWrite_canonical _ _ _ h), by
    apply State.ext <;> simp only [State.logged, List.append_assoc, List.cons_append, List.nil_append]⟩

/-- A register read whose request is answered: the value, and two records more (R100). -/
theorem regRead_of_answer (b : BusId) (a : Addr7) (r : Byte) (n : Nat) (bs : List Byte)
    (h : ((busWrite b a [r] s).2.envRead b a n).1 = some bs) :
    regRead b a r n s = (some (beVal bs), { s with
      busLog := s.busLog ++ [.write b a [r] (s.envWrite b a [r]).1, .read b a n (some bs)]
      env := ((busWrite b a [r] s).2.envRead b a n).2
      envClock := s.envClock + 2 }) := by
  unfold regRead
  rw [busRead_answered _ _ _ _ _ h, ← State.logged_logged]
  rfl

/-- A register read whose request is never answered: two records more, and the bus stays busy (R54, R100). -/
theorem regRead_of_silence (b : BusId) (a : Addr7) (r : Byte) (n : Nat)
    (h : ((busWrite b a [r] s).2.envRead b a n).1 = none) :
    regRead b a r n s = (none, State.markBusy { s with
      busLog := s.busLog ++ [.write b a [r] (s.envWrite b a [r]).1, .read b a n none]
      env := ((busWrite b a [r] s).2.envRead b a n).2
      envClock := s.envClock + 2 } b) := by
  unfold regRead
  rw [busRead_unanswered _ _ _ _ h, ← State.logged_logged]
  rfl

/-- What the two transactions of a register read leave, whatever the answer. -/
theorem read_onlyLogged (b : BusId) (a : Addr7) (r : Byte) (n : Nat) (x : Option (List Byte)) :
    OnlyLogged s { s with
      busLog := s.busLog ++ [.write b a [r] (s.envWrite b a [r]).1, .read b a n x]
      env := ((busWrite b a [r] s).2.envRead b a n).2
      envClock := s.envClock + 2 } :=
  ⟨_, [_, _], fun h => State.envRead_canonical _ b a n (s.envWrite_canonical b a [r] h), rfl⟩

/-- A register read that gives a value changes what transactions leave, no more (R100). -/
theorem regRead_answered (b : BusId) (a : Addr7) (r : Byte) (n v : Nat) (h : (regRead b a r n s).1 = some v) :
    OnlyLogged s (regRead b a r n s).2 := by
  cases hq : ((busWrite b a [r] s).2.envRead b a n).1 with
  | none => rw [regRead_of_silence _ _ _ _ _ hq] at h; cases h
  | some bs =>
    rw [regRead_of_answer _ _ _ _ _ _ hq]
    exact read_onlyLogged s b a r n (some bs)

/-- A register read that gives none leaves its bus busy beside that (R54, R100). -/
theorem regRead_unanswered (b : BusId) (a : Addr7) (r : Byte) (n : Nat) (h : (regRead b a r n s).1 = none) :
    ∃ t, OnlyLogged s t ∧ (regRead b a r n s).2 = t.markBusy b := by
  cases hq : ((busWrite b a [r] s).2.envRead b a n).1 with
  | some bs => rw [regRead_of_answer _ _ _ _ _ _ hq] at h; cases h
  | none =>
    rw [regRead_of_silence _ _ _ _ _ hq]
    exact ⟨_, read_onlyLogged s b a r n none, rfl⟩

/-- Every answer a read gives has the length asked for (R52, R54). -/
theorem envRead_length (b : BusId) (a : Addr7) (n : Nat) (bs : List Byte) (h : (s.envRead b a n).1 = some bs) :
    bs.length = n := by
  have key : ∀ x, exactly n x = some bs → bs.length = n := by
    intro x hx
    cases x with
    | none => simp [exactly] at hx
    | some y =>
      unfold exactly at hx
      dsimp only at hx
      split at hx
      · rename_i hl; cases hx; exact hl
      · cases hx
  unfold State.envRead at h
  split at h
  · cases he : s.env with
    | answers acks reads =>
      rw [he] at h
      cases reads with
      | nil => exact key _ h
      | cons x xs => exact key _ h
    | reference devs =>
      rw [he] at h
      simp only [Env.read, Option.map_eq_some_iff] at h
      obtain ⟨d, -, rfl⟩ := h
      exact RefDevice.length_supply d n
  · cases h

/-- A written-out environment answers a write on a functional bus by its next acknowledge bit, which is used up (R52). -/
theorem envWrite_answers (b : BusId) (a : Addr7) (bs : List Byte) (acks : List Bool)
    (reads : List (Option (List Byte))) (hok : s.cfg.busOk b = true) (he : s.env = .answers acks reads) :
    (s.envWrite b a bs).2 = .answers (acks.drop 1) reads := by
  simp only [State.envWrite, hok, if_true, he]
  cases acks <;> rfl

/-- Reference devices take a selector write and the read after it as one move of their pointers (R66). -/
theorem RefDevice.selected_advance (cfg : Config) (d : RefDevice) (b : BusId) (a : Addr7) (r : Byte) (n : Nat) :
    (let e := if d.at b a then d.receive cfg [r] else d
     if e.at b a then e.advance n else e) =
      if d.bus = b ∧ d.addr = a then { d with ptr := r + BitVec.ofNat 8 n } else d := by
  by_cases h : d.bus = b ∧ d.addr = a
  · have h1 : d.at b a = true := by simp [RefDevice.at, h]
    have h2 : (d.receive cfg [r]).at b a = true := h1
    dsimp only
    rw [if_pos h, if_pos h1, if_pos h2]
    rfl
  · have h1 : d.at b a = false := by
      simp only [RefDevice.at, Bool.and_eq_false_iff, beq_eq_false_iff_ne]
      by_contra hn
      push Not at hn
      exact h hn
    simp [h1, h]

/-- The records of a scan are the probed addresses that acknowledged, in order, labelled (R102). -/
theorem scanOver_records_sublist (b : BusId) (as : List Addr7) :
    ((scanOver b as s).1.map DevRecord.addr).Sublist as := by
  induction as generalizing s with
  | nil => exact List.Sublist.slnil
  | cons a as ih =>
    unfold scanOver
    dsimp only
    split
    · exact (ih _).cons_cons a
    · exact (ih _).cons a

/-! ### The interrupt -/

theorem tick_below (h : s.siTicks < s.cfg.tickMax) :
    tick s = .next { s with siTicks := s.siTicks + 1, csHeld := false } := by
  unfold tick
  rw [if_neg (by omega)]
  rfl

theorem tick_at_limit (h : s.cfg.tickMax ≤ s.siTicks) : tick s = .fault .tickOverflow := by
  unfold tick
  rw [if_pos h]

/-- With no expiry latched, the drain is the decrement and no more (R61). -/
theorem drainOne_next (h : s.irqPending = false) :
    drainOne s = .next { s with siTicks := s.siTicks - 1, csHeld := false } := by
  simp [drainOne, leaveCs, State.enterCs, h]

end Sys2Proof.Machine
end

