-- ==== Sys2Proof/Laws/Exec.lean ====
section
/-! SUPPORT. For each command, everything its meaning can answer, said once: the equation of each outcome, in terms of the
shared operations. Proofs about steps cite these and unfold no meaning. -/

namespace Sys2Proof.Machine

variable (s : State)

/-! ### The LED on a configured block (R82) -/

theorem State.shown_show (t : Duty) (r g b : LedChannel) (h : LedReady s r g b) :
    (s.show t).ledOut = shown t ∧ OnlyDuties s (s.show t) r g b := by
  obtain ⟨-, hr, hg, hb, h1, h2, h3⟩ := h
  constructor
  · simp [State.ledOut, hr, hg, hb, State.dutyOf_some, State.pwmAt_show _ _ r g b hr hg hb, h1, h2, h3, shown]
  · intro ch
    simp only [State.pwmAt_show _ _ r g b hr hg hb]
    refine ⟨?_, fun a b c => by simp [a, b, c]⟩
    split_ifs <;> rfl

/-- `ledOut` and the PWM registers look at the PWM fields and the channel records only. -/
theorem State.ledOut_congr {s t : State} (hp : t.pwm = s.pwm) (hr : t.chanR = s.chanR) (hg : t.chanG = s.chanG)
    (hb : t.chanB = s.chanB) : t.ledOut = s.ledOut := by
  have h : ∀ c, t.dutyOf c = s.dutyOf c := by
    intro c
    cases c with
    | none => rfl
    | some ch => simp [State.dutyOf, hp]
  simp [State.ledOut, h, hr, hg, hb]

theorem State.shown_apply (c : ColorIx) (r g b : LedChannel) (h : LedReady s r g b) :
    (s.apply c).ledOut = shown (duties s.cfg (clamp s.cfg c)) ∧ OnlyDuties s (s.apply c) r g b := by
  obtain ⟨h1, h2⟩ := s.shown_show (duties s.cfg (clamp s.cfg c)) r g b h
  refine ⟨?_, fun ch => ?_⟩
  · rw [← h1]
    exact State.ledOut_congr rfl (by simp) (by simp) (by simp)
  · rw [State.pwmAt_apply]
    exact h2 ch

/-! ### StatusIndicator -/

/-- R81: the answer of `LED.CFG` that is no refusal. -/
theorem execLedCfg_next (idR idG idB : ChannelId) (pinR pinG pinB : Byte) (t : State)
    (h : exec (.ledCfg idR idG idB pinR pinG pinB) s = .next t) :
    idR ≠ idG ∧ idR ≠ idB ∧ idG ≠ idB ∧
      (idR.toNat < s.cfg.pwmChannels ∧ idG.toNat < s.cfg.pwmChannels ∧ idB.toNat < s.cfg.pwmChannels) ∧
      s.siConfigured = false ∧ t = { ((s.setPin idR pinR).setPin idG pinG).setPin idB pinB with
        cp := s.cp + 1
        chanR := some ⟨idR, pinR⟩
        chanG := some ⟨idG, pinG⟩
        chanB := some ⟨idB, pinB⟩
        siConfigured := true
        tmrArmed := true } := by
  simp only [exec, execLedCfg] at h
  split at h
  · rename_i hd
    split at h
    · cases h
    · rename_i hc
      cases h
      simp only [idsDistinct, Bool.and_eq_true, bne_iff_ne, ne_eq, List.all_cons, List.all_nil, channelExists,
        decide_eq_true_eq, and_true] at hd
      exact ⟨hd.1.1.1, hd.1.1.2, hd.1.2, hd.2, by simpa using hc, rfl⟩
  · cases h

/-- R80: the guard of the other commands, opened. -/
theorem whenLedConfigured_next (k : Result) (t : State) (h : whenLedConfigured s k = .next t) :
    s.siConfigured = true ∧ k = .next t := by
  unfold whenLedConfigured at h
  split at h
  · exact ⟨‹_›, h⟩
  · cases h

/-- R83. -/
theorem execLedColor_next (c : ColorIx) (t : State) (h : exec (.ledColor c) s = .next t) :
    s.siConfigured = true ∧ t = (s.apply c).advance := by
  obtain ⟨hc, h⟩ := whenLedConfigured_next s _ t h
  cases h
  exact ⟨hc, rfl⟩

/-- R84: the four cases of the mode code. -/
theorem execLedMode_next (m : Byte) (t : State) (h : exec (.ledMode m) s = .next t) :
    s.siConfigured = true ∧
      ((m = s.cfg.ledOn ∧ t = ({ s.apply s.siColor with siMode := .on } : State).advance) ∨
       (m = s.cfg.ledBlink ∧ t = ({ s.apply s.siColor with siMode := .blink } : State).advance) ∨
       (m = s.cfg.ledCycle ∧ t = ({ s with siMode := .cycle } : State).advance) ∨
       (m ≠ s.cfg.ledOn ∧ m ≠ s.cfg.ledBlink ∧ m ≠ s.cfg.ledCycle ∧
        t = ({ (if s.cfg.offBlanks then s.show (duties s.cfg s.cfg.black) else s) with siMode := .off }
          : State).advance)) := by
  obtain ⟨hc, h⟩ := whenLedConfigured_next s _ t h
  refine ⟨hc, ?_⟩
  split at h
  · cases h; exact .inl ⟨‹_›, rfl⟩
  · split at h
    · cases h; exact .inr (.inl ⟨‹_›, rfl⟩)
    · split at h
      · cases h; exact .inr (.inr (.inl ⟨‹_›, rfl⟩))
      · cases h; exact .inr (.inr (.inr ⟨‹_›, ‹_›, ‹_›, rfl⟩))

@[simp] theorem updateLed_siTicks : (updateLed s).siTicks = s.siTicks := by
  unfold updateLed; split <;> simp

@[simp] theorem updateLed_csHeld : (updateLed s).csHeld = s.csHeld := by
  unfold updateLed; split <;> simp

@[simp] theorem updateLed_irqPending : (updateLed s).irqPending = s.irqPending := by
  unfold updateLed; split <;> simp

/-- R86: with no expiry latched `LED.UPDATE` always goes on: nothing to drain, or the dispatch and the drain of one. -/
theorem execLedUpdate_eq (h : s.irqPending = false) :
    exec .ledUpdate s =
      if 0 < s.siTicks then
        .next ({ updateLed s with siTicks := s.siTicks - 1, csHeld := false } : State).advance
      else .next s.advance := by
  simp only [exec, execLedUpdate]
  split
  · rw [drainOne_next _ (by simpa using h), updateLed_siTicks]
    rfl
  · rfl

/-! ### Guards and reads of the bus commands -/

/-- R96, R110: the guard, opened. -/
theorem whenBusConfigured_next (b : BusId) (k : Result) (t : State) (h : whenBusConfigured s b k = .next t) :
    (s.bus b).configured = true ∧ k = .next t := by
  unfold whenBusConfigured at h
  split at h
  · exact ⟨‹_›, h⟩
  · cases h

/-- R54, R100: a command that goes on with a register read either goes on with the answer, or hangs with the bus busy. -/
theorem withRead_regRead (b : BusId) (a : Addr7) (r : Byte) (n : Nat) (k : Nat → State → Result) :
    (∃ v u, OnlyLogged s u ∧ withRead (regRead b a r n s) k = k v u) ∨
    (∃ u, OnlyLogged s u ∧ withRead (regRead b a r n s) k = .next { u.markBusy b with phase := .hung }) := by
  cases hq : (regRead b a r n s).1 with
  | some v => exact .inl ⟨v, _, regRead_answered s b a r n v hq, by simp only [withRead, hq]⟩
  | none =>
    obtain ⟨u, hu, he⟩ := regRead_unanswered s b a r n hq
    exact .inr ⟨u, hu, by simp only [withRead, hq, hang, he]⟩

/-! ### The polls of a blocking spin (R118) -/

theorem polledEncoder_eq (cfg : Config) (sel : Selector) : encReg cfg (polledSide sel) = polledEncoder cfg sel := by
  cases sel <;> rfl

/-- The comparison of a poll's answer, as a statement writes it (R19). -/
theorem reached_beVal (x : List Byte) (dist : BitVec 32) :
    reached (BitVec.ofNat 32 (beVal x)) dist = true ↔ dist.toNat ≤ (BitVec.ofNat 32 (beVal x)).toInt.natAbs :=
  reached_iff _ _

/-- A spin pair at the stop speed writes the stop pair, two records (R117). -/
theorem stopPair_eq (sel : Selector) :
    ∃ (e : Env) (k k' : Bool), (s.env.Canonical → e.Canonical) ∧
      spinPair sel s.cfg.stopSpeed s = { s with
        busLog := s.busLog ++ stopRecords s.cfg sel k k', env := e, envClock := s.envClock + 2 } :=
  spinPair_eq s sel s.cfg.stopSpeed

/-- The acknowledge bit of a poll's selector write. -/
def State.pollAck (s : State) (sel : Selector) : Bool :=
  (s.envWrite s.cfg.motorBus s.cfg.motorAddr [polledEncoder s.cfg sel]).1

/-- The state after a poll's two records. -/
def State.polled (s : State) (sel : Selector) (x : Option (List Byte)) : State :=
  { s with
    busLog := s.busLog ++ pollRecords s.cfg sel (s.pollAck sel) x
    env := ((busWrite s.cfg.motorBus s.cfg.motorAddr [polledEncoder s.cfg sel] s).2.envRead
      s.cfg.motorBus s.cfg.motorAddr 4).2
    envClock := s.envClock + 2 }

/-- What the environment answers to a poll. -/
def State.pollAnswer (s : State) (sel : Selector) : Option (List Byte) :=
  ((busWrite s.cfg.motorBus s.cfg.motorAddr [polledEncoder s.cfg sel] s).2.envRead s.cfg.motorBus s.cfg.motorAddr 4).1

theorem polled_onlyLogged (sel : Selector) (x : Option (List Byte)) : OnlyLogged s (s.polled sel x) :=
  read_onlyLogged s s.cfg.motorBus s.cfg.motorAddr (polledEncoder s.cfg sel) 4 x

theorem pollAnswer_length (sel : Selector) (x : List Byte) (h : s.pollAnswer sel = some x) : x.length = 4 :=
  envRead_length _ _ _ _ _ h

/-- The polls of a blocking spin, by what the environment answers to the first (R118). -/
theorem spinPolls_of_answer (sel : Selector) (dist : BitVec 32) (n : Nat) (x : List Byte)
    (h : s.pollAnswer sel = some x) :
    spinPolls sel dist n s =
      if dist.toNat ≤ (BitVec.ofNat 32 (beVal x)).toInt.natAbs then
        done (spinPair sel s.cfg.stopSpeed (s.polled sel (some x)))
      else
        match n with
        | 0 => .next ((s.polled sel (some x)).stall sel dist)
        | m + 1 => spinPolls sel dist m (s.polled sel (some x)) := by
  have hr := regRead_of_answer s _ _ _ _ x h
  rw [← polledEncoder_eq] at hr
  conv_lhs => unfold spinPolls motorRead
  rw [hr, withRead]
  dsimp only
  rw [polledEncoder_eq]
  by_cases hd : reached (BitVec.ofNat 32 (beVal x)) dist = true
  · rw [if_pos hd, if_pos ((reached_beVal x dist).1 hd)]
    rfl
  · rw [if_neg hd, if_neg fun e => hd ((reached_beVal x dist).2 e)]
    rfl

/-- A poll that is never answered hangs the command, with the bus busy (R54). -/
theorem spinPolls_of_silence (sel : Selector) (dist : BitVec 32) (n : Nat) (h : s.pollAnswer sel = none) :
    spinPolls sel dist n s = hang ((s.polled sel none).markBusy s.cfg.motorBus) := by
  have hr := regRead_of_silence s _ _ _ _ h
  rw [← polledEncoder_eq] at hr
  conv_lhs => unfold spinPolls motorRead
  rw [hr, withRead]
  dsimp only
  rw [polledEncoder_eq]
  rfl

theorem polled_canonical (sel : Selector) (x : Option (List Byte)) (h : s.env.Canonical) :
    (s.polled sel x).env.Canonical :=
  State.envRead_canonical _ _ _ _ (s.envWrite_canonical _ _ _ h)

/-- What the polls of a blocking spin leave from `s`, at most `most` of them (R118): the command is done with its last poll, or
hangs in its last poll, or hangs after `most` polls; every poll but the last falls short. -/
def PollsOutcome (sel : Selector) (dist : BitVec 32) (most : Nat) (s t : State) : Prop :=
  ∃ (polls : List (Bool × List Byte)) (e : Env), (∀ p ∈ polls, ShortAnswer dist p.2) ∧
    (s.env.Canonical → e.Canonical) ∧
    ((∃ k x k' k'', x.length = 4 ∧ dist.toNat ≤ (BitVec.ofNat 32 (beVal x)).toInt.natAbs ∧ t = { s with
        cp := s.cp + 1
        busLog := s.busLog ++ pollsRecords s.cfg sel polls ++ pollRecords s.cfg sel k (some x) ++
          stopRecords s.cfg sel k' k''
        env := e
        envClock := s.envClock + (4 + 2 * polls.length) }) ∨
     (∃ k, t = State.markBusy { s with
        phase := .hung
        busLog := s.busLog ++ pollsRecords s.cfg sel polls ++ pollRecords s.cfg sel k none
        env := e
        envClock := s.envClock + (2 + 2 * polls.length) } s.cfg.motorBus) ∨
     (polls.length = most ∧ t = State.markBusy { s with
        phase := .polling sel dist
        busLog := s.busLog ++ pollsRecords s.cfg sel polls
        env := e
        envClock := s.envClock + 2 * polls.length } s.cfg.motorBus))

theorem pollsOutcome_of_silence (sel : Selector) (dist : BitVec 32) (most : Nat) :
    PollsOutcome sel dist most s { (s.polled sel none).markBusy s.cfg.motorBus with phase := .hung } := by
  refine ⟨[], _, by simp, polled_canonical s sel none, .inr (.inl ⟨s.pollAck sel, ?_⟩)⟩
  unfold State.polled pollsRecords
  cases s.cfg.motorBus <;> simp [State.markBusy, State.setBus, State.bus]

theorem pollsOutcome_of_reaching (sel : Selector) (dist : BitVec 32) (most : Nat) (x : List Byte) (hl : x.length = 4)
    (h : dist.toNat ≤ (BitVec.ofNat 32 (beVal x)).toInt.natAbs) :
    PollsOutcome sel dist most s (spinPair sel s.cfg.stopSpeed (s.polled sel (some x))).advance := by
  obtain ⟨e, k, k', hc, he⟩ := stopPair_eq (s.polled sel (some x)) sel
  refine ⟨[], e, by simp, fun h => hc (polled_canonical s sel _ h), .inl ⟨s.pollAck sel, x, k, k', hl, h, ?_⟩⟩
  show (spinPair sel (s.polled sel (some x)).cfg.stopSpeed (s.polled sel (some x))).advance = _
  rw [he]
  simp [State.polled, State.advance, pollsRecords]

theorem pollsOutcome_of_short (sel : Selector) (dist : BitVec 32) (most : Nat) (x : List Byte) (t : State)
    (hx : ShortAnswer dist x) (h : PollsOutcome sel dist most (s.polled sel (some x)) t) :
    PollsOutcome sel dist (most + 1) s t := by
  obtain ⟨polls, e, hp, hc, h⟩ := h
  refine ⟨(s.pollAck sel, x) :: polls, e, List.forall_mem_cons.2 ⟨hx, hp⟩, fun h => hc (polled_canonical s sel _ h), ?_⟩
  have hcount : ∀ m, s.envClock + 2 + (m + 2 * polls.length) = s.envClock + (m + 2 * (polls.length + 1)) := by omega
  rcases h with ⟨k, y, k', k'', hl, hd, ht⟩ | ⟨k, ht⟩ | ⟨hlen, ht⟩
  · refine .inl ⟨k, y, k', k'', hl, hd, ht.trans ?_⟩
    simp [State.polled, pollsRecords, hcount]
  · refine .inr (.inl ⟨k, ht.trans ?_⟩)
    simp [State.polled, pollsRecords, hcount]
  · refine .inr (.inr ⟨by simp [hlen], ht.trans ?_⟩)
    have h0 := hcount 0
    simp only [Nat.zero_add] at h0
    simp [State.polled, pollsRecords, h0]

/-- Everything the polls of a blocking spin can answer (R118): always a next state, with one of the three outcomes. -/
theorem spinPolls_next (sel : Selector) (dist : BitVec 32) (n : Nat) :
    ∃ t, spinPolls sel dist n s = .next t ∧ PollsOutcome sel dist (n + 1) s t := by
  induction n generalizing s with
  | zero =>
    cases hx : s.pollAnswer sel with
    | none => exact ⟨_, spinPolls_of_silence s sel dist 0 hx, pollsOutcome_of_silence s sel dist _⟩
    | some x =>
      have hl := pollAnswer_length s sel x hx
      rw [spinPolls_of_answer s sel dist 0 x hx]
      split
      · rename_i hd
        exact ⟨_, rfl, pollsOutcome_of_reaching s sel dist _ x hl hd⟩
      · rename_i hd
        refine ⟨_, rfl, pollsOutcome_of_short s sel dist 0 x _ ⟨hl, by omega⟩ ?_⟩
        refine ⟨[], (s.polled sel (some x)).env, by simp, id, .inr (.inr ⟨rfl, ?_⟩)⟩
        unfold State.stall State.polled pollsRecords
        cases s.cfg.motorBus <;> simp [State.markBusy, State.setBus, State.bus]
  | succ n ih =>
    cases hx : s.pollAnswer sel with
    | none => exact ⟨_, spinPolls_of_silence s sel dist _ hx, pollsOutcome_of_silence s sel dist _⟩
    | some x =>
      have hl := pollAnswer_length s sel x hx
      rw [spinPolls_of_answer s sel dist _ x hx]
      split
      · rename_i hd
        exact ⟨_, rfl, pollsOutcome_of_reaching s sel dist _ x hl hd⟩
      · rename_i hd
        obtain ⟨t, ht, ho⟩ := ih (s.polled sel (some x))
        exact ⟨t, ht, pollsOutcome_of_short s sel dist (n + 1) x t ⟨hl, by omega⟩ ho⟩

/-! ### RegisterBus -/

/-- R97. -/
theorem execBusCfg_next (b : BusId) (sda scl : Byte) (clk : BitVec 32) (t : State)
    (h : exec (.busCfg b sda scl clk) s = .next t) :
    (s.bus b).configured = false ∧
      t = (s.setBus b ⟨true, some sda, some scl, some clk, (s.bus b).dev, (s.bus b).busy⟩).advance := by
  simp only [exec, execBusCfg] at h
  split at h
  · cases h
  · rename_i hc
    cases h
    exact ⟨by simpa using hc, rfl⟩

/-- R99. -/
theorem execBusWr_next (b : BusId) (a : Addr7) (r : Byte) (n : BitVec 3) (v : BitVec 32) (t : State)
    (h : exec (.busWr b a r n v) s = .next t) :
    (s.bus b).configured = true ∧ ∃ u, OnlyLogged s u ∧ t = u.advance := by
  simp only [exec, execBusWr] at h
  split at h
  · obtain ⟨hc, h⟩ := whenBusConfigured_next s _ _ t h
    cases h
    exact ⟨hc, _, regWrite_onlyLogged s _ _ _ _ _, rfl⟩
  · cases h

/-- What a command that reads one register and puts the value in `res` leaves when it goes on (R101, R112, R114). -/
def ReadOutcome (b : BusId) (s t : State) : Prop :=
  (s.bus b).configured = true ∧ ∃ u, OnlyLogged s u ∧
    ((∃ v, t = (u.setRes v).advance) ∨ t = { u.markBusy b with phase := .hung })

theorem readOutcome_of (b : BusId) (a : Addr7) (r : Byte) (n : Nat) (f : Nat → Word) (t : State)
    (h : whenBusConfigured s b (withRead (regRead b a r n s) fun v u => done (u.setRes (f v))) = .next t) :
    ReadOutcome b s t := by
  obtain ⟨hc, h⟩ := whenBusConfigured_next s _ _ t h
  refine ⟨hc, ?_⟩
  rcases withRead_regRead s b a r n (fun v u => done (u.setRes (f v))) with ⟨v, u, hu, he⟩ | ⟨u, hu, he⟩
  · rw [he] at h
    cases h
    exact ⟨u, hu, .inl ⟨_, rfl⟩⟩
  · rw [he] at h
    cases h
    exact ⟨u, hu, .inr rfl⟩

/-- R101. -/
theorem execBusRd_next (b : BusId) (a : Addr7) (r : Byte) (n : BitVec 3) (t : State)
    (h : exec (.busRd b a r n) s = .next t) : ReadOutcome b s t := by
  simp only [exec, execBusRd] at h
  split at h
  · exact readOutcome_of s b a r n.toNat zext64 t h
  · cases h

/-- A guarded register read with an answer: the command is done with the value (R101, R112, R114). -/
theorem read_done (b : BusId) (a : Addr7) (r : Byte) (n : Nat) (f : Nat → Word) (bs : List Byte)
    (hc : (s.bus b).configured = true) (h : ((busWrite b a [r] s).2.envRead b a n).1 = some bs) :
    whenBusConfigured s b (withRead (regRead b a r n s) fun v u => done (u.setRes (f v))) = .next { s with
      cp := s.cp + 1
      res := some (f (beVal bs))
      busLog := s.busLog ++ [.write b a [r] (s.envWrite b a [r]).1, .read b a n (some bs)]
      env := ((busWrite b a [r] s).2.envRead b a n).2
      envClock := s.envClock + 2 } := by
  rw [whenBusConfigured, if_pos hc, regRead_of_answer s b a r n bs h]
  rfl

/-- A guarded register read with no answer: the command hangs with the bus busy (R54). -/
theorem read_hangs (b : BusId) (a : Addr7) (r : Byte) (n : Nat) (k : Nat → State → Result)
    (hc : (s.bus b).configured = true) (h : ((busWrite b a [r] s).2.envRead b a n).1 = none) :
    whenBusConfigured s b (withRead (regRead b a r n s) k) = .next (State.markBusy { s with
      phase := .hung
      busLog := s.busLog ++ [.write b a [r] (s.envWrite b a [r]).1, .read b a n none]
      env := ((busWrite b a [r] s).2.envRead b a n).2
      envClock := s.envClock + 2 } b) := by
  rw [whenBusConfigured, if_pos hc, regRead_of_silence s b a r n h]
  cases b <;> rfl

/-- R102. -/
theorem execBusScan_next (b : BusId) (t : State) (h : exec (.busScan b) s = .next t) :
    (s.bus b).configured = true ∧ ∃ (u : State) (l : List DevRecord), OnlyLogged s u ∧
      (l.map DevRecord.addr).Sublist (scanAddrs s.cfg) ∧
      t = ((u.setBus b { u.bus b with dev := l }).setRes (zext64 l.length)).advance := by
  obtain ⟨hc, h⟩ := whenBusConfigured_next s _ _ t h
  cases h
  exact ⟨hc, _, _, scanOver_onlyLogged s b _, scanOver_records_sublist s b _, rfl⟩

/-! ### MotorController client -/

/-- R112. -/
theorem execMotVer_next (t : State) (h : exec .motVer s = .next t) : ReadOutcome s.cfg.motorBus s t :=
  readOutcome_of s s.cfg.motorBus s.cfg.motorAddr s.cfg.regVersion 1 zext64 t h

/-- R114. -/
theorem execMotEnc_next (side : Side) (t : State) (h : exec (.motEnc side) s = .next t) : ReadOutcome s.cfg.motorBus s t :=
  readOutcome_of s s.cfg.motorBus s.cfg.motorAddr (encReg s.cfg side) 4 (fun v => sext64 (BitVec.ofNat 32 v)) t h

/-- What a motor command that only writes leaves (R113, R115, R116, R117). -/
def WriteOutcome (s t : State) : Prop := (s.bus s.cfg.motorBus).configured = true ∧ ∃ u, OnlyLogged s u ∧ t = u.advance

theorem execMotRstenc_next (t : State) (h : exec .motRstenc s = .next t) : WriteOutcome s t := by
  obtain ⟨hc, h⟩ := whenBusConfigured_next s _ _ t h
  cases h
  exact ⟨hc, _, motorWrite_onlyLogged s _ _, rfl⟩

theorem execMotMode_next (m : Byte) (t : State) (h : exec (.motMode m) s = .next t) : WriteOutcome s t := by
  obtain ⟨hc, h⟩ := whenBusConfigured_next s _ _ t h
  cases h
  exact ⟨hc, _, motorWrite_onlyLogged s _ _, rfl⟩

theorem execMotSpin_next (sel : Selector) (speed : Byte) (t : State) (h : exec (.motSpin sel speed) s = .next t) :
    WriteOutcome s t := by
  obtain ⟨hc, h⟩ := whenBusConfigured_next s _ _ t h
  cases h
  exact ⟨hc, _, spinPair_onlyLogged s _ _, rfl⟩

theorem execMotStop_next (sel : Selector) (t : State) (h : exec (.motStop sel) s = .next t) : WriteOutcome s t := by
  obtain ⟨hc, h⟩ := whenBusConfigured_next s _ _ t h
  cases h
  exact ⟨hc, _, spinPair_onlyLogged s _ _, rfl⟩

/-- R118: on a configured bus a blocking spin is its start and then its polls. -/
theorem execMotSpind_eq (sel : Selector) (speed : Byte) (dist : BitVec 32)
    (hc : (s.bus s.cfg.motorBus).configured = true) :
    exec (.motSpind sel speed dist) s =
      spinPolls sel dist (spinPair sel speed (motorWrite s.cfg.regCommand s.cfg.cmdResetEnc s)).pollsBeforeHang
        (spinPair sel speed (motorWrite s.cfg.regCommand s.cfg.cmdResetEnc s)) := by
  rw [exec, execMotSpind, whenBusConfigured, if_pos hc]

/-- What a blocking spin leaves, without the records (R118): done, or hanging with its bus busy. -/
def SpinOutcome (sel : Selector) (dist : BitVec 32) (s t : State) : Prop :=
  ∃ u, OnlyLogged s u ∧
    (t = u.advance ∨ t = { u.markBusy s.cfg.motorBus with phase := .polling sel dist } ∨
      t = { u.markBusy s.cfg.motorBus with phase := .hung })

theorem PollsOutcome.spinOutcome {sel : Selector} {dist : BitVec 32} {most : Nat} {s t : State}
    (h : PollsOutcome sel dist most s t) : SpinOutcome sel dist s t := by
  have hlen : ∀ polls : List (Bool × List Byte), (pollsRecords s.cfg sel polls).length = 2 * polls.length := by
    intro polls
    unfold pollsRecords
    induction polls with
    | nil => rfl
    | cons p ps ih =>
      rw [List.flatMap_cons, List.length_append, ih]
      simp [pollRecords]
      omega
  have hlog : ∀ (l : List Transaction) (e : Env) (n : Nat), (s.env.Canonical → e.Canonical) → l.length = n →
      OnlyLogged s { s with busLog := s.busLog ++ l, env := e, envClock := s.envClock + n } :=
    fun l e n hc hn => ⟨e, l, hc, by rw [hn]⟩
  obtain ⟨polls, e, -, hc, ⟨k, x, k', k'', -, -, rfl⟩ | ⟨k, rfl⟩ | ⟨-, rfl⟩⟩ := h
  · exact ⟨_, hlog (pollsRecords s.cfg sel polls ++ pollRecords s.cfg sel k (some x) ++ stopRecords s.cfg sel k' k'') e
      (4 + 2 * polls.length) hc (by simp [hlen, pollRecords, stopRecords]; omega),
      .inl (by simp [State.advance])⟩
  · exact ⟨_, hlog (pollsRecords s.cfg sel polls ++ pollRecords s.cfg sel k none) e
      (2 + 2 * polls.length) hc (by simp [hlen, pollRecords]; omega),
      .inr (.inr (by rw [← State.markBusy_phase_comm]; simp))⟩
  · exact ⟨_, hlog (pollsRecords s.cfg sel polls) e (2 * polls.length) hc (hlen polls),
      .inr (.inl (by rw [← State.markBusy_phase_comm]))⟩

theorem SpinOutcome.after {sel : Selector} {dist : BitVec 32} {s u t : State} (h : OnlyLogged s u)
    (ht : SpinOutcome sel dist u t) : SpinOutcome sel dist s t := by
  obtain ⟨e, l, hc, rfl⟩ := h
  obtain ⟨v, hv, hw⟩ := ht
  exact ⟨v, OnlyLogged.trans ⟨e, l, hc, rfl⟩ hv, hw⟩

theorem execMotSpind_next (sel : Selector) (speed : Byte) (dist : BitVec 32) (t : State)
    (h : exec (.motSpind sel speed dist) s = .next t) :
    (s.bus s.cfg.motorBus).configured = true ∧ SpinOutcome sel dist s t := by
  obtain ⟨hc, -⟩ := whenBusConfigured_next s _ _ t h
  rw [execMotSpind_eq s sel speed dist hc] at h
  obtain ⟨u, hu, ho⟩ := spinPolls_next _ sel dist _
  rw [hu] at h
  cases h
  exact ⟨hc, SpinOutcome.after ((motorWrite_onlyLogged s _ _).trans (spinPair_onlyLogged _ sel speed)) ho.spinOutcome⟩

/-- A turn of a Host that hangs in the polls of `MOT.SPIND` (R118): one poll more, short of the distance; or the hang in a
read, with the bus busy (log 8). -/
theorem pollAgain_next (sel : Selector) (dist : BitVec 32) :
    (∃ x, s.pollAnswer sel = some x ∧ ShortAnswer dist x ∧ pollAgain sel dist s = .next (s.polled sel (some x))) ∨
    ((∀ x, s.pollAnswer sel = some x → dist.toNat ≤ (BitVec.ofNat 32 (beVal x)).toInt.natAbs) ∧
      pollAgain sel dist s = .next { (s.polled sel none).markBusy s.cfg.motorBus with phase := .hung }) := by
  have hp : ∀ x, ((busWrite s.cfg.motorBus s.cfg.motorAddr [polledEncoder s.cfg sel] s).2.logged
      (.read s.cfg.motorBus s.cfg.motorAddr 4 x)
      ((busWrite s.cfg.motorBus s.cfg.motorAddr [polledEncoder s.cfg sel] s).2.envRead
        s.cfg.motorBus s.cfg.motorAddr 4).2) = s.polled sel x := by
    intro x
    rw [busWrite, State.logged_logged]
    rfl
  unfold pollAgain
  rw [polledEncoder_eq]
  dsimp only
  cases hx : onlyShort dist (s.pollAnswer sel) with
  | none =>
    refine .inr ⟨fun x hs => ?_, ?_⟩
    · rw [hs, onlyShort] at hx
      by_contra hn
      rw [if_neg fun hr => hn ((reached_beVal x dist).1 hr)] at hx
      cases hx
    · rw [← State.pollAnswer, hx, State.takeAnswer_none]
      dsimp only
      rw [hp]
      rfl
  | some x =>
    obtain ⟨hs, hr⟩ := (onlyShort_eq_some dist _ x).1 hx
    refine .inl ⟨x, hs, ⟨pollAnswer_length s sel x hs, ?_⟩, ?_⟩
    · by_contra hn
      rw [(reached_beVal x dist).2 (by omega)] at hr
      cases hr
    · rw [← State.pollAnswer, hx, State.takeAnswer_some]
      dsimp only
      rw [hp]

/-! ### The step -/

/-- The Host's step, by where the Host stands (R7, R8). -/
theorem hostStep_next (t : State) (h : hostStep s = .next t) :
    (s.phase = .hung ∧ t = s) ∨
    (∃ sel dist, s.phase = .polling sel dist ∧ pollAgain sel dist s = .next t) ∨
    (s.phase = .ready ∧ ∃ w i, s.prog[s.cp]? = some w ∧ decode w = .ok i ∧ exec i s = .next t) := by
  unfold hostStep at h
  cases hp : s.phase with
  | hung =>
    rw [hp] at h
    cases h
    exact .inl ⟨rfl, rfl⟩
  | polling sel dist =>
    rw [hp] at h
    exact .inr (.inl ⟨sel, dist, rfl, h⟩)
  | ready =>
    rw [hp] at h
    cases hf : s.fetch with
    | none =>
      rw [hf] at h
      cases h
    | some w =>
      rw [hf] at h
      simp only [runWord] at h
      cases hd : decode w with
      | error e =>
        rw [hd] at h
        cases e <;> cases h
      | ok i =>
        rw [hd] at h
        exact .inr (.inr ⟨rfl, w, i, hf, hd, h⟩)

/-- The Host's turn (R7). -/
theorem step_of_host (h : hostNext s = true) : step s = hostStep s.popEvent := by
  unfold hostNext at h
  unfold step runEvent
  cases he : s.nextEvent <;> simp_all

/-- The armed timer's turn, outside a critical section (R88). -/
theorem step_of_tick (h : tickNext s = true) (hcs : s.csHeld = false) : step s = tick s.popEvent := by
  unfold tickNext at h
  unfold step runEvent
  cases he : s.nextEvent <;> simp_all [timerExpiry]

/-- The reset input (R145). -/
theorem step_of_reset (h : s.nextEvent = .reset) : step s = .next s.popEvent.assertReset := by
  simp [step, runEvent, h]

/-- A step, by the event it takes (R7, R68): the reset input, a tick of the armed timer, or the Host. -/
theorem step_next (hcs : s.csHeld = false) (t : State) (h : step s = .next t) :
    (s.nextEvent = .reset ∧ t = s.popEvent.assertReset) ∨
    (tickNext s = true ∧ s.siTicks < s.cfg.tickMax ∧
      t = { s with sched := s.sched.tail, siTicks := s.siTicks + 1 }) ∨
    (hostNext s = true ∧ hostStep s.popEvent = .next t) := by
  by_cases hr : s.nextEvent = .reset
  · rw [step_of_reset s hr] at h
    cases h
    exact .inl ⟨hr, rfl⟩
  by_cases ht : tickNext s = true
  · rw [step_of_tick s ht hcs] at h
    by_cases hlt : s.siTicks < s.cfg.tickMax
    · rw [tick_below s.popEvent hlt] at h
      cases h
      refine .inr (.inl ⟨ht, hlt, ?_⟩)
      apply State.ext <;> simp [hcs, State.popEvent]
    · rw [tick_at_limit s.popEvent (by simpa using hlt)] at h
      cases h
  · have hh : hostNext s = true := by
      unfold tickNext at ht
      unfold hostNext
      cases he : s.nextEvent <;> simp_all
    rw [step_of_host s hh] at h
    exact .inr (.inr ⟨hh, h⟩)

end Sys2Proof.Machine
end

