-- ==== Sys2Proof/Laws/PerInstr.lean ====
section
/-! SUPPORT. Laws made per command: the family `OpField`, that the word of a command lies in its row of R69 with every
reserved bit zero (R67, R72). -/

namespace Sys2Proof.Laws.OpField

/-- The opcode of each command (R69). -/
def opcode : Instr → Byte
  | .ledCfg _ _ _ _ _ _ => 0x10
  | .ledColor _ => 0x11
  | .ledMode _ => 0x12
  | .ledUpdate => 0x13
  | .ledGetc => 0x14
  | .ledGetn => 0x15
  | .busCfg _ _ _ _ => 0x20
  | .busWr _ _ _ _ _ => 0x21
  | .busRd _ _ _ _ => 0x22
  | .busScan _ => 0x23
  | .motVer => 0x30
  | .motRstenc => 0x31
  | .motEnc _ => 0x32
  | .motMode _ => 0x33
  | .motSpin _ _ => 0x34
  | .motStop _ => 0x35
  | .motSpind _ _ _ => 0x36

/-- The row of R69 found by the opcode field of the command's word is the command's own, and the word passes its mask. -/
def Statement (i : Instr) : Prop :=
  ∃ row, rows.find? (fun r => r.op == opOf (encode i)) = some row ∧ row.op = opcode i ∧
    encode i &&& row.mask = row.pattern

/-- A mask that leaves a field's low bits to the operand finds zero above them. -/
theorem high_masked {n m : Nat} (x : BitVec n) :
    (0#m ++ x) &&& ((BitVec.allOnes m) ++ 0#n) = 0#m ++ 0#n := by
  rw [append_and_append]
  simp

theorem and_zero (x : Byte) : x &&& 0#8 = 0#8 := by simp

theorem and_zero_word (x : BitVec 32) : x &&& 0#32 = 0#32 := by simp

theorem nibble_masked (x : BitVec 4) : (0#4 ++ x) &&& 0xF0#8 = 0#8 := high_masked x

theorem bit_masked (x : BitVec 1) : (0#7 ++ x) &&& 0xFE#8 = 0#8 := high_masked x

theorem selector_masked (x : BitVec 2) : (0#6 ++ x) &&& 0xFC#8 = 0#8 := high_masked x

theorem count_masked (x : BitVec 3) : (0#5 ++ x) &&& 0xF8#8 = 0#8 := high_masked x

theorem pins_masked (x y z : Byte) : (0#8 ++ x ++ y ++ z) &&& 0xFF000000#32 = 0#32 := by
  show (0#8 ++ x ++ y ++ z : BitVec (8 + 8 + 8 + 8)) &&& (0xFF#8 ++ 0#8 ++ 0#8 ++ 0#8) = 0#8 ++ 0#8 ++ 0#8 ++ 0#8
  rw [append_and_append, append_and_append, append_and_append]
  simp

/-- The statement for a word given by its fields: the row is found by the opcode, and the mask is checked field by
field. -/
theorem of_fields (i : Instr) (o a b c : Byte) (d : BitVec 32) (row : Row) (ma mb mc : Byte) (md : BitVec 32)
    (he : encode i = assemble o a b c d) (hr : rows.find? (fun r => r.op == o) = some row) (ho : row.op = opcode i)
    (hm : row.mask = assemble 0xFF ma mb mc md) (hp : row.pattern = assemble o 0 0 0 0)
    (ha : a &&& ma = 0#8) (hb : b &&& mb = 0#8) (hc : c &&& mc = 0#8) (hd : d &&& md = 0#32) : Statement i := by
  refine ⟨row, ?_, ho, ?_⟩
  · rw [he, opOf_assemble]
    exact hr
  · have hof : o &&& 0xFF = o := BitVec.and_allOnes
    rw [he, hm, hp, assemble_and, ha, hb, hc, hd, hof]
    rfl

theorem ledCfg (idR idG idB : ChannelId) (pinR pinG pinB : Byte) : Statement (.ledCfg idR idG idB pinR pinG pinB) :=
  of_fields _ _ _ _ _ _ _ 0xF0 0xF0 0xF0 0xFF000000 rfl rfl rfl (by decide) (by decide)
    (nibble_masked _) (nibble_masked _) (nibble_masked _) (pins_masked _ _ _)

theorem ledColor (color : ColorIx) : Statement (.ledColor color) :=
  of_fields _ _ _ _ _ _ _ 0 0xFF 0xFF 0xFFFFFFFF rfl rfl rfl (by decide) (by decide)
    (and_zero _) (by decide) (by decide) (by decide)

theorem ledMode (mode : Byte) : Statement (.ledMode mode) :=
  of_fields _ _ _ _ _ _ _ 0 0xFF 0xFF 0xFFFFFFFF rfl rfl rfl (by decide) (by decide)
    (and_zero _) (by decide) (by decide) (by decide)

theorem ledUpdate : Statement .ledUpdate :=
  of_fields _ _ _ _ _ _ _ 0xFF 0xFF 0xFF 0xFFFFFFFF rfl rfl rfl (by decide) (by decide)
    (by decide) (by decide) (by decide) (by decide)

theorem ledGetc : Statement .ledGetc :=
  of_fields _ _ _ _ _ _ _ 0xFF 0xFF 0xFF 0xFFFFFFFF rfl rfl rfl (by decide) (by decide)
    (by decide) (by decide) (by decide) (by decide)

theorem ledGetn : Statement .ledGetn :=
  of_fields _ _ _ _ _ _ _ 0xFF 0xFF 0xFF 0xFFFFFFFF rfl rfl rfl (by decide) (by decide)
    (by decide) (by decide) (by decide) (by decide)

theorem busCfg (bus : BusId) (sda scl : Byte) (clk : BitVec 32) : Statement (.busCfg bus sda scl clk) :=
  of_fields _ _ _ _ _ _ _ 0xFE 0 0 0 rfl rfl rfl (by decide) (by decide)
    (bit_masked _) (and_zero _) (and_zero _) (and_zero_word _)

theorem busWr (bus : BusId) (addr : Addr7) (reg : Byte) (n : BitVec 3) (value : BitVec 32) :
    Statement (.busWr bus addr reg n value) :=
  of_fields _ _ _ _ _ _ _ 0 0 0xF8 0 rfl rfl rfl (by decide) (by decide)
    (and_zero _) (and_zero _) (count_masked _) (and_zero_word _)

theorem busRd (bus : BusId) (addr : Addr7) (reg : Byte) (n : BitVec 3) : Statement (.busRd bus addr reg n) :=
  of_fields _ _ _ _ _ _ _ 0 0 0xF8 0xFFFFFFFF rfl rfl rfl (by decide) (by decide)
    (and_zero _) (and_zero _) (count_masked _) (by decide)

theorem busScan (bus : BusId) : Statement (.busScan bus) :=
  of_fields _ _ _ _ _ _ _ 0xFE 0xFF 0xFF 0xFFFFFFFF rfl rfl rfl (by decide) (by decide)
    (bit_masked _) (by decide) (by decide) (by decide)

theorem motVer : Statement .motVer :=
  of_fields _ _ _ _ _ _ _ 0xFF 0xFF 0xFF 0xFFFFFFFF rfl rfl rfl (by decide) (by decide)
    (by decide) (by decide) (by decide) (by decide)

theorem motRstenc : Statement .motRstenc :=
  of_fields _ _ _ _ _ _ _ 0xFF 0xFF 0xFF 0xFFFFFFFF rfl rfl rfl (by decide) (by decide)
    (by decide) (by decide) (by decide) (by decide)

theorem motEnc (side : Side) : Statement (.motEnc side) :=
  of_fields _ _ _ _ _ _ _ 0xFE 0xFF 0xFF 0xFFFFFFFF rfl rfl rfl (by decide) (by decide)
    (bit_masked _) (by decide) (by decide) (by decide)

theorem motMode (mode : Byte) : Statement (.motMode mode) :=
  of_fields _ _ _ _ _ _ _ 0 0xFF 0xFF 0xFFFFFFFF rfl rfl rfl (by decide) (by decide)
    (and_zero _) (by decide) (by decide) (by decide)

theorem motSpin (sel : Selector) (speed : Byte) : Statement (.motSpin sel speed) :=
  of_fields _ _ _ _ _ _ _ 0xFC 0 0xFF 0xFFFFFFFF rfl rfl rfl (by decide) (by decide)
    (selector_masked _) (and_zero _) (by decide) (by decide)

theorem motStop (sel : Selector) : Statement (.motStop sel) :=
  of_fields _ _ _ _ _ _ _ 0xFC 0xFF 0xFF 0xFFFFFFFF rfl rfl rfl (by decide) (by decide)
    (selector_masked _) (by decide) (by decide) (by decide)

theorem motSpind (sel : Selector) (speed : Byte) (dist : BitVec 32) : Statement (.motSpind sel speed dist) :=
  of_fields _ _ _ _ _ _ _ 0xFC 0 0xFF 0 rfl rfl rfl (by decide) (by decide)
    (selector_masked _) (and_zero _) (by decide) (and_zero_word _)

end Sys2Proof.Laws.OpField
end

