-- ==== Sys2Proof/Tests/Slice0.lean ====
section
/-! SUPPORT. The model's own tests. Expected words and results are those of 95_test_vectors.md (V-ENC, V-REF, V-ARITH, L1 to
L24, B1 to B15, M1 to M22), named beside each test. Then one witness for the hypotheses of every statement. -/

namespace Sys2Proof.Tests

open Sys2Proof.Machine

/-! ### Fixtures -/

/-- The outcome is a next state with this property. -/
def holds (r : Result) (p : State → Bool) : Bool :=
  match r with
  | .next t => p t
  | .fault _ => false
  | .refused _ => false

/-- The outcome is this refusal. -/
def refuses (r : Result) (e : Refusal) : Bool :=
  match r with
  | .refused x => x == e
  | .next _ => false
  | .fault _ => false

/-- After `LCFG` of the vectors: channels R(0,10) G(1,11) B(2,12), in a mode, with a colour and ticks. -/
def led (m : LedMode) (c : ColorIx) (k : Nat) : State :=
  { ((State.reset.setPin 0 10).setPin 1 11).setPin 2 12 with
    siConfigured := true
    tmrArmed := true
    chanR := some ⟨0, 10⟩
    chanG := some ⟨1, 11⟩
    chanB := some ⟨2, 12⟩
    siMode := m
    siColor := c
    siTicks := k }

/-- The display device of V-BUS on bus 0 and the motor device of V-MOT on bus 1, as the vectors load them. -/
def devices : List RefDevice :=
  [⟨.bus0, 0x3C, false, 0, [(0x40, 0xDE), (0x41, 0xAD), (0x42, 0xBE), (0x43, 0xEF)]⟩,
   ⟨.bus1, 0x58, true, 0, [(4, 1), (5, 0x68), (6, 0xFF), (7, 0xFF), (8, 0xFF), (9, 0xFE), (13, 3)]⟩]

/-- `BCFG0`; `BCFG1`, with an environment. -/
def onBus (e : Env) : State :=
  { led .cycle 6 2 with
    rb0 := ⟨true, some 21, some 22, some 400000, [], false⟩
    rb1 := ⟨true, some 18, some 19, some 100000, [], false⟩
    env := e }

/-- Both buses configured, with the two devices. -/
def demo : State := onBus (.reference devices)

/-! ### Well-formed terms: each check refuses a term that violates it alone (R74) -/

theorem test_wf_red_equals_green : (Instr.ledCfg 3 3 1 0 0 0).wellFormed = false := by decide
theorem test_wf_red_equals_blue : (Instr.ledCfg 3 1 3 0 0 0).wellFormed = false := by decide
theorem test_wf_green_equals_blue : (Instr.ledCfg 1 3 3 0 0 0).wellFormed = false := by decide
theorem test_wf_write_of_no_bytes : (Instr.busWr .bus0 0x3C 0 0 0).wellFormed = false := by decide
theorem test_wf_write_of_five_bytes : (Instr.busWr .bus0 0x3C 0 5 0).wellFormed = false := by decide
theorem test_wf_read_of_no_bytes : (Instr.busRd .bus1 0x58 2 0).wellFormed = false := by decide
theorem test_wf_read_of_five_bytes : (Instr.busRd .bus1 0x58 2 5).wellFormed = false := by decide
theorem test_wf_value_too_wide : (Instr.busWr .bus0 0x3C 0x40 2 0x12345).wellFormed = false := by decide
theorem test_wf_value_just_too_wide : (Instr.busWr .bus0 0x3C 0x40 1 256).wellFormed = false := by decide
theorem test_wf_value_just_fits : (Instr.busWr .bus0 0x3C 0x40 1 255).wellFormed = true := by decide

/-! ### Decoding: a word of V-ENC for every constructor -/

theorem test_decode_ledCfg : decode 0x100F0E0D000700FF = .ok (.ledCfg 15 14 13 255 0 7) := by decide
theorem test_decode_ledColor : decode 0x1163000000000000 = .ok (.ledColor 99) := by decide
theorem test_decode_ledMode : decode 0x1209000000000000 = .ok (.ledMode 9) := by decide
theorem test_decode_ledUpdate : decode 0x1300000000000000 = .ok .ledUpdate := by decide
theorem test_decode_ledGetc : decode 0x1400000000000000 = .ok .ledGetc := by decide
theorem test_decode_ledGetn : decode 0x1500000000000000 = .ok .ledGetn := by decide
theorem test_decode_busCfg : decode 0x2000151600061A80 = .ok (.busCfg .bus0 21 22 400000) := by decide
theorem test_decode_busWr : decode 0x213C4004DEADBEEF = .ok (.busWr .bus0 0x3C 0x40 4 0xDEADBEEF) := by decide
theorem test_decode_busWr_reserved_address : decode 0x2183000100000055 = .ok (.busWr .bus1 3 0 1 0x55) := by decide
theorem test_decode_busRd : decode 0x22D8020400000000 = .ok (.busRd .bus1 0x58 2 4) := by decide
theorem test_decode_busScan : decode 0x2301000000000000 = .ok (.busScan .bus1) := by decide
theorem test_decode_motVer : decode 0x3000000000000000 = .ok .motVer := by decide
theorem test_decode_motRstenc : decode 0x3100000000000000 = .ok .motRstenc := by decide
theorem test_decode_motEnc : decode 0x3201000000000000 = .ok (.motEnc .right) := by decide
theorem test_decode_motMode : decode 0x3307000000000000 = .ok (.motMode 7) := by decide
theorem test_decode_motSpin : decode 0x3401320000000000 = .ok (.motSpin .right 50) := by decide
theorem test_decode_motStop : decode 0x3502000000000000 = .ok (.motStop .both) := by decide
theorem test_decode_motSpind : decode 0x3600C80000000168 = .ok (.motSpind .left 200 360) := by decide

/-- V-REF: undefined opcodes, at the edges of the table. -/
theorem test_decode_undefined :
    ([0, 0x1600000000000000, 0x3700000000000000, 0x4000000000000000, 0xFFFFFFFFFFFFFFFF] : List Word).all
      (fun w => decide (decode w = .error .undefOp)) = true := by decide

/-- V-REF: reserved fields and operand ranges. -/
theorem test_decode_reserved :
    ([0x1300000000000001, 0x1010010200000000, 0x10000102010C0B0A, 0x1000000000000000, 0x2002000000000000,
      0x2302000000000000, 0x22D8020000000000, 0x22D8020500000000, 0x22D8020800000000, 0x213C400200012345,
      0x213C400100000100, 0x3202000000000000, 0x3403C80000000000] : List Word).all
      (fun w => decide (decode w = .error .reserved)) = true := by decide

/-- The table's numbering: a word given as a number decodes as the word. -/
theorem test_decodeTableWord : decodeTableWord 64 0x3502000000000000 = some (.motStop .both) := by decide

/-- A placed word is what the next step runs: `LED.UPDATE` from reset (V-REF, last row). -/
theorem test_withFetchWord :
    holds (step (State.reset.withFetchWord 64 0x1300000000000000)) (fun t => t.cp == 1 && t.phase == .ready) = true := by
  decide

/-- V-REF: `MOT.VER` with only bus 0 configured is refused. -/
theorem test_motVer_needs_bus1 :
    refuses (exec .motVer { demo with rb1 := BusRegs.reset }) .notConfigured = true := by decide

/-- V-REF: a second `BUS.CFG` of the bus. -/
theorem test_busCfg_twice : refuses (exec (.busCfg .bus1 18 19 100000) demo) .reconfig = true := by decide

/-! ### Arithmetic (V-ARITH) -/

theorem test_beVal : beVal [0xDE, 0xAD, 0xBE, 0xEF] = 3735928559 := by decide
theorem test_beBytes : beBytes 0x34 2 = [0x00, 0x34] ∧ beBytes 1 3 = [0, 0, 1] := by decide
theorem test_sext64 : sext64 0xFFFFFFFE = 0xFFFFFFFFFFFFFFFE ∧ sext64 0x80000000 = 0xFFFFFFFF80000000 ∧
    sext64 0x7FFFFFFF = 0x000000007FFFFFFF := by decide
theorem test_clamp : clamp Config.default 7 = 7 ∧ clamp Config.default 8 = 6 ∧ clamp Config.default 255 = 6 := by decide
theorem test_cycleNext :
    [0, 2, 1, 3, 4, 5, 6, 7].map (cycleNext Config.default) = ([2, 1, 3, 4, 0, 0, 0, 0] : List Byte) := by decide
theorem test_blinkNext : [0, 7, 6, 2].map (blinkNext Config.default) = ([7, 0, 0, 0] : List Byte) := by decide
theorem test_reached : reached 0x167 360 = false ∧ reached 0x168 360 = true ∧ reached 0xFFFFFF9C 100 = true ∧
    reached 0xFFFFFFD8 100 = false ∧ reached 0x80000000 0xFFFFFFFF = false := by decide
theorem test_pack8 : pack8 "GREEN" = 0x475245454E000000 := by decide

/-! ### StatusIndicator (V-LED) -/

/-- L1. -/
theorem test_ledCfg :
    holds (exec (.ledCfg 0 1 2 10 11 12) State.reset) (fun t => t == { led .off 6 0 with cp := 1 }) = true := by decide

/-- L12: an index outside the table shows WHITE. -/
theorem test_ledColor_clamps :
    holds (exec (.ledColor 8) (led .off 7 0))
      (fun t => t.siColor == 6 && t.ledOut == (some 0, some 0, some 0)) = true := by decide

/-- L2: the colour is shown although the mode is OFF. -/
theorem test_ledColor_shows :
    holds (exec (.ledColor 2) (led .off 6 0))
      (fun t => t.siMode == .off && t.siColor == 2 && t.ledOut == (some 255, some 255, some 0)) = true := by decide

/-- L10: an unknown mode code is OFF; the stored colour is kept. -/
theorem test_ledMode_unknown :
    holds (exec (.ledMode 9) (led .on 2 0))
      (fun t => t.siMode == .off && t.siColor == 2 && t.ledOut == (some 255, some 255, some 255)) = true := by decide

/-- L6: CYCLE writes no duty. -/
theorem test_ledMode_cycle :
    holds (exec (.ledMode 3) (led .off 6 0)) (fun t => t.siMode == .cycle && t.ledOut == (none, none, none)) = true := by
  decide

/-- L16: the wrap after the last member of the cycle. -/
theorem test_ledUpdate_cycle_wraps :
    holds (exec .ledUpdate (led .cycle 4 1))
      (fun t => t.siColor == 0 && t.siTicks == 0 && t.ledOut == (some 0, some 255, some 255)) = true := by decide

/-- L18: nothing to drain, nothing happens. -/
theorem test_ledUpdate_blink_idle :
    holds (exec .ledUpdate (led .blink 0 0)) (fun t => t == { led .blink 0 0 with cp := 1 }) = true := by decide

/-- L8. -/
theorem test_ledGetc : holds (exec .ledGetc (led .off 2 0)) (fun t => t.res == some 2) = true := by decide

/-- L22. -/
theorem test_ledGetn :
    holds (exec .ledGetn (led .on 0 0)) (fun t => t.res == some 0x5245440000000000) = true := by decide

/-- L23, and the limit of V-ARITH: a tick, then `FT_TICK_OVERFLOW` at `TICK_MAX`. -/
theorem test_tick :
    holds (step { led .on 6 2 with sched := [.timer] }) (fun t => t == led .on 6 3) = true ∧
    (match step { led .on 6 2147483647 with sched := [.timer] } with
      | .fault e => e == .tickOverflow
      | .next _ => false
      | .refused _ => false) = true := by decide

/-! ### RegisterBus (V-BUS) -/

/-- B1. -/
theorem test_busCfg :
    holds (exec (.busCfg .bus0 21 22 400000) State.reset)
      (fun t => t.rb0 == ⟨true, some 21, some 22, some 400000, [], false⟩ && t.busLog == [] && t.cp == 1) = true := by
  decide

/-- B6: two bytes, most significant first; the rest of the device stays. -/
theorem test_busWr :
    holds (exec (.busWr .bus0 0x3C 0x40 2 0x1234) demo) (fun t =>
      t.busLog == [.write .bus0 0x3C [0x40, 0x12, 0x34] true] &&
      (match t.env with
        | .reference (d :: _) => d.regs == [(0x40, 0x12), (0x41, 0x34), (0x42, 0xBE), (0x43, 0xEF)]
        | .reference [] => false
        | .answers _ _ => false)) = true := by decide

/-- B8: nothing at the address, still done. -/
theorem test_busWr_silent :
    holds (exec (.busWr .bus0 0x20 0 1 7) demo) (fun t =>
      t.busLog == [.write .bus0 0x20 [0x00, 0x07] false] && t.cp == 1 && t.phase == .ready) = true := by decide

/-- B3. -/
theorem test_busRd :
    holds (exec (.busRd .bus0 0x3C 0x40 2) demo) (fun t =>
      t.res == some 0xDEAD && t.busLog == [.write .bus0 0x3C [0x40] true, .read .bus0 0x3C 2 (some [0xDE, 0xAD])]) =
      true := by decide

/-- B9: nothing at the address, the command hangs. -/
theorem test_busRd_hangs :
    holds (exec (.busRd .bus0 0x20 0 1) demo) (fun t =>
      t.phase == .hung && t.rb0.busy && t.cp == 0 && t.res == none &&
      t.busLog == [.write .bus0 0x20 [0x00] false, .read .bus0 0x20 1 none]) = true := by decide

/-- B11, on the one device of bus 1. -/
theorem test_busScan :
    holds (exec (.busScan .bus1) demo) (fun t =>
      t.rb1.dev == [⟨0x58, "MD25"⟩] && t.res == some 1 && t.busLog.length == 112 && t.rb0.dev == []) = true := by
  set_option maxRecDepth 4000 in decide

/-- B14: a bus that is not functional. -/
theorem test_busScan_nonfunctional :
    holds (exec (.busScan .bus1) { demo with cfg := { Config.default with busOk1 := false } }) (fun t =>
      t.rb1.dev == [] && t.res == some 0) = true := by decide

/-! ### MotorController client (V-MOT) -/

/-- M1. -/
theorem test_motVer :
    holds (exec .motVer demo) (fun t =>
      t.res == some 3 && t.busLog == [.write .bus1 0x58 [0x0D] true, .read .bus1 0x58 1 (some [3])]) = true := by decide

/-- M6, M7. -/
theorem test_motRstenc :
    holds (Result.andThen (exec .motRstenc demo) (exec (.motEnc .right))) (fun t =>
      t.res == some 0 && t.busLog.head? == some (.write .bus1 0x58 [0x10, 0x20] true)) = true := by decide

/-- M2, M3. -/
theorem test_motEnc :
    holds (exec (.motEnc .left) demo) (fun t => t.res == some 0x168) = true ∧
    holds (exec (.motEnc .right) demo) (fun t => t.res == some 0xFFFFFFFFFFFFFFFE) = true := by decide

/-- M9: not validated. -/
theorem test_motMode :
    holds (exec (.motMode 7) demo) (fun t => t.busLog == [.write .bus1 0x58 [0x0F, 0x07] true]) = true := by decide

/-- M11. -/
theorem test_motSpin_right :
    holds (exec (.motSpin .right 50) demo) (fun t =>
      t.busLog == [.write .bus1 0x58 [0x0F, 0x00] true, .write .bus1 0x58 [0x01, 0x32] true]) = true := by decide

/-- M12: both wheels through speed register 1. -/
theorem test_motSpin_both :
    holds (exec (.motSpin .both 255) demo) (fun t =>
      t.busLog == [.write .bus1 0x58 [0x0F, 0x02] true, .write .bus1 0x58 [0x00, 0xFF] true]) = true := by decide

/-- M14. -/
theorem test_motStop :
    holds (exec (.motStop .both) demo) (fun t =>
      t.busLog == [.write .bus1 0x58 [0x0F, 0x02] true, .write .bus1 0x58 [0x00, 0x80] true]) = true := by decide

/-- M22: BOTH polls the left encoder; at the distance the stop pair follows. -/
theorem test_motSpind_both :
    holds (exec (.motSpind .both 200 10)
        (onBus (.answers [true, true, true, true, true, true] [some [0, 0, 0, 0x0A]]))) (fun t =>
      t.cp == 1 && t.phase == .ready &&
      t.busLog == [.write .bus1 0x58 [0x10, 0x20] true, .write .bus1 0x58 [0x0F, 0x02] true,
        .write .bus1 0x58 [0x00, 0xC8] true, .write .bus1 0x58 [0x02] true, .read .bus1 0x58 4 (some [0, 0, 0, 0x0A]),
        .write .bus1 0x58 [0x0F, 0x02] true, .write .bus1 0x58 [0x00, 0x80] true]) = true := by decide

/-- M21: the encoder never moves; the command hangs with its bus busy, and a further turn of the Host polls once more. -/
theorem test_motSpind_stalls :
    holds (exec (.motSpind .left 200 360) demo) (fun t =>
      t.phase == .polling .left 360 && t.rb1.busy && t.cp == 0 && t.busLog.length == 5) = true ∧
    holds (Result.andThen (exec (.motSpind .left 200 360) demo) hostStep) (fun t =>
      t.phase == .polling .left 360 && t.rb1.busy && t.cp == 0 &&
      t.busLog.drop 5 == [.write .bus1 0x58 [0x02] true, .read .bus1 0x58 4 (some [0, 0, 0, 0])]) = true := by decide

/-! ### Witnesses: a state and operands that meet all hypotheses of each statement -/

theorem demo_meets_invariant : Invariant demo where
  validConfig := by decide
  ticksBounded := by decide
  colorInTable := by decide
  armedIffConfigured := rfl
  noTicksBeforeConfig := fun h => by cases h
  ledWired := .inr ⟨⟨0, 10⟩, ⟨1, 11⟩, ⟨2, 12⟩, by unfold LedReady; decide, by decide, by decide, by decide, by decide,
    by decide, by decide, .inl (by decide), by decide⟩
  devTable0 := by decide
  devTable1 := by decide
  busFresh0 := by decide
  busFresh1 := by decide
  hiddenClear := by decide
  busyIffHangs := by decide
  oneBusy := by decide
  pollingBus := fun _ _ h => by cases h
  envCanonical := fun devs h => by
    cases h
    decide

/-- The fixture meets the invariant, whatever comes next and whatever the Host's list holds. -/
theorem demo_invariant (sched : List Event) (prog : List Word) :
    Invariant { demo with sched := sched, prog := prog } :=
  have h := demo_meets_invariant
  ⟨h.1, h.2, h.3, h.4, h.5, h.6, h.7, h.8, h.9, h.10, h.11, h.12, h.13, h.14, h.15⟩

theorem witness_DecodeInvertsEncode :
    (Instr.busWr .bus1 0x7F 0xFF 4 0xFFFFFFFF).wellFormed = true ∧ (Instr.busWr .bus0 0 0 1 0).wellFormed = true ∧
    (Instr.ledCfg 15 14 13 255 0 7).wellFormed = true := by decide

theorem witness_EncodeInvertsDecode : decode 0x21D80001000000C8 = .ok (.busWr .bus1 0x58 0 1 200) := by decide

theorem witness_UndefinedOpcodesRefused :
    ([0x0F, 0x16, 0x1F, 0x24, 0x2F, 0x37, 0xFF] : List Word).all (fun o =>
      decide (decode (o <<< 56) = .error .undefOp)) = true ∧
    ([0x10, 0x15, 0x20, 0x23, 0x30, 0x36] : List Word).all (fun o =>
      decide (decode (o <<< 56) ≠ .error .undefOp)) = true ∧
    State.phase { demo with prog := [0x0F00000000000000] } = .ready ∧
    State.fetch { demo with prog := [0x0F00000000000000] } = some 0x0F00000000000000 := by decide

theorem witness_ReservedFieldsRefused :
    (0x1300000000000001 : Word).extractLsb' 56 8 = 0x13 ∧
    (0x1300000000000001 : Word) &&& 0xFFFFFFFFFFFFFFFF ≠ 0x1300000000000000 ∧
    State.phase { demo with prog := [0x1300000000000001] } = .ready ∧
    State.fetch { demo with prog := [0x1300000000000001] } = some 0x1300000000000001 := by decide

/-- Each of the five checks violated, and none of them, by words whose reserved fields are zero. -/
theorem witness_RangeChecksDecideLegality :
    (0x1000000200000000 : Word) &&& 0xFFF0F0F0FF000000 = 0x1000000000000000 ∧
    (0x22D8020000000000 : Word) &&& 0xFF0000F8FFFFFFFF = 0x2200000000000000 ∧
    (0x22D8020500000000 : Word) &&& 0xFF0000F8FFFFFFFF = 0x2200000000000000 ∧
    (0x213C400100000100 : Word) &&& 0xFF0000F800000000 = 0x2100000000000000 ∧
    (0x3403C80000000000 : Word) &&& 0xFFFC00FFFFFFFFFF = 0x3400000000000000 ∧
    (0x213C4001000000FF : Word) &&& 0xFF0000F800000000 = 0x2100000000000000 ∧
    decode 0x213C4001000000FF = .ok (.busWr .bus0 0x3C 0x40 1 255) := by decide

/-- The Host to move, and the timer to move while it is not armed. -/
theorem witness_StepRunsDecodedCommand :
    hostNext { demo with prog := [0x1400000000000000], sched := [.host, .timer] } = true ∧
    hostNext { State.reset with prog := [0x1300000000000000], sched := [.timer] } = true ∧
    demo.phase = .ready ∧ State.reset.phase = .ready ∧
    decode 0x1400000000000000 = .ok .ledGetc ∧ decode 0x1300000000000000 = .ok .ledUpdate := by decide

theorem witness_RunIsOverPastTheLastCommand :
    hostNext State.reset = true ∧ State.reset.phase = .ready ∧ State.reset.prog.length ≤ State.reset.cp := by decide

theorem witness_ResetInputRestoresResetValues : State.nextEvent { demo with sched := [.reset] } = .reset := by decide

/-- A stalled `MOT.SPIND`: the Host hangs in its polls, the motor's bus busy; the left encoder stands at 360, short of
400. -/
def stalled : State :=
  { demo with rb1 := { demo.rb1 with busy := true }, phase := .polling .left 400 }

theorem stalled_meets_invariant : Invariant stalled :=
  have h := demo_meets_invariant
  ⟨h.1, h.2, h.3, h.4, h.5, h.6, h.7, h.8, h.9, by decide, h.11, by decide, by decide, fun _ _ _ => by decide, h.15⟩

/-- A Host step, a tick, the reset input and a turn of a hanging Host, each from a state with the invariant. -/
theorem witness_StepKeepsInvariant :
    Invariant { demo with sched := [], prog := [0x1300000000000000] } ∧
    Invariant { demo with sched := [.timer], prog := [] } ∧ Invariant { demo with sched := [.reset], prog := [] } ∧
    Invariant stalled ∧
    holds (step { demo with sched := [], prog := [0x1300000000000000] }) (fun _ => true) = true ∧
    holds (step { demo with sched := [.timer], prog := [] }) (fun _ => true) = true ∧
    holds (step { demo with sched := [.reset], prog := [] }) (fun _ => true) = true ∧
    holds (step stalled) (fun t => t.busLog.length == 2) = true :=
  ⟨demo_invariant _ _, demo_invariant _ _, demo_invariant _ _, stalled_meets_invariant, by decide, by decide, by decide,
    by decide⟩

/-- The last channel among them. -/
theorem witness_LedCfgBindsThreeChannels :
    (0 : ChannelId) ≠ 1 ∧ (0 : ChannelId) ≠ 15 ∧ (1 : ChannelId) ≠ 15 ∧
    (15 : ChannelId).toNat < State.reset.cfg.pwmChannels ∧ State.reset.siConfigured = false := by decide

/-- A configured LED and bus; and a block of twelve channels, on which identifier 12 names none. -/
theorem witness_SecondConfigurationRefused :
    (0 : ChannelId) ≠ 1 ∧ (0 : ChannelId) ≠ 2 ∧ (1 : ChannelId) ≠ 2 ∧ (2 : ChannelId).toNat < demo.cfg.pwmChannels ∧
    demo.siConfigured = true ∧ (demo.bus .bus0).configured = true ∧ (demo.bus .bus1).configured = true ∧
    refuses (exec (.ledCfg 0 1 12 0 0 0) { State.reset with cfg := { Config.default with pwmChannels := 12 } })
      .reserved = true := by decide

theorem witness_CommandsNeedTheirConfiguration :
    State.reset.siConfigured = false ∧ (State.reset.bus .bus0).configured = false ∧
    (State.reset.bus State.reset.cfg.motorBus).configured = false ∧ 1 ≤ (4 : BitVec 3).toNat ∧
    (4 : BitVec 3).toNat ≤ State.reset.cfg.busMaxBytes ∧
    (0xFFFFFFFF : BitVec 32).toNat < 2 ^ (8 * (4 : BitVec 3).toNat) := by decide

theorem witness_LedColorShowsClampedColor :
    LedReady (led .cycle 6 2) ⟨0, 10⟩ ⟨1, 11⟩ ⟨2, 12⟩ ∧ State.reset.siConfigured = false := by
  unfold LedReady
  decide

theorem witness_LedModeEntryActions :
    LedReady (led .on 7 0) ⟨0, 10⟩ ⟨1, 11⟩ ⟨2, 12⟩ ∧ (led .on 7 0).cfg.Valid ∧
    (led .on 7 0).siColor.toNat < (led .on 7 0).cfg.colorCount ∧
    ((4 : Byte) ≠ (led .on 7 0).cfg.ledOn ∧ (4 : Byte) ≠ (led .on 7 0).cfg.ledBlink ∧
      (4 : Byte) ≠ (led .on 7 0).cfg.ledCycle) ∧ (led .on 7 0).cfg.offBlanks = true := by
  unfold LedReady
  decide

theorem witness_LedUpdateWithoutTickIsNoOp : (led .blink 0 0).siTicks = 0 := by decide

theorem witness_LedUpdateOnAndOffOnlyDrain :
    0 < (led .on 6 1).siTicks ∧ (led .on 6 1).csHeld = false ∧ (led .on 6 1).irqPending = false ∧
    (led .on 6 1).siMode = .on ∧ (led .off 6 1).siMode = .off := by decide

theorem witness_LedUpdateBlinkToggles :
    LedReady (led .blink 0 1) ⟨0, 10⟩ ⟨1, 11⟩ ⟨2, 12⟩ ∧ (led .blink 0 1).cfg.Valid ∧
    (led .blink 0 1).csHeld = false ∧ (led .blink 0 1).irqPending = false ∧ 0 < (led .blink 0 1).siTicks ∧
    (led .blink 0 1).siMode = .blink := by
  unfold LedReady
  decide

/-- The last member of the order, and a colour outside it. -/
theorem witness_LedUpdateCycleAdvances :
    LedReady (led .cycle 4 1) ⟨0, 10⟩ ⟨1, 11⟩ ⟨2, 12⟩ ∧ (led .cycle 4 1).cfg.Valid ∧
    (led .cycle 4 1).csHeld = false ∧ (led .cycle 4 1).irqPending = false ∧ 0 < (led .cycle 4 1).siTicks ∧
    (led .cycle 4 1).siMode = .cycle ∧ (led .cycle 4 1).cfg.cycleOrder[4]? = some (led .cycle 4 1).siColor ∧
    (led .cycle 6 1).siColor ∉ (led .cycle 6 1).cfg.cycleOrder := by
  unfold LedReady
  decide

theorem witness_FullCycleReturnsToTheColor :
    LedReady (led .cycle 1 5) ⟨0, 10⟩ ⟨1, 11⟩ ⟨2, 12⟩ ∧ (led .cycle 1 5).cfg.Valid ∧
    (led .cycle 1 5).csHeld = false ∧ (led .cycle 1 5).irqPending = false ∧ (led .cycle 1 5).siMode = .cycle ∧
    (led .cycle 1 5).cfg.cycleOrder.length ≤ (led .cycle 1 5).siTicks ∧
    (led .cycle 1 5).siColor ∈ (led .cycle 1 5).cfg.cycleOrder ∧
    (led .cycle 7 5).siColor ∉ (led .cycle 7 5).cfg.cycleOrder := by
  unfold LedReady
  decide

theorem witness_LedGetcReadsStoredColor :
    (led .on 7 0).siConfigured = true ∧ State.reset.siConfigured = false := by decide

theorem witness_LedGetnPacksTheName :
    (led .on 1 0).siConfigured = true ∧ (led .on 1 0).cfg.Valid ∧
    (led .on 1 0).cfg.colors[(led .on 1 0).siColor.toNat]? = some ⟨"GREEN", ⟨255, 0, 255⟩⟩ := by decide

theorem witness_LedCommandsNeverBlockOrTouchABus : demo.irqPending = false := by decide

theorem witness_TickCounterArithmetic :
    State.nextEvent { demo with sched := [.timer] } = .timer ∧ demo.tmrArmed = true ∧ demo.csHeld = false ∧
    (led .on 6 2147483646).siTicks < (led .on 6 2147483646).cfg.tickMax ∧
    (led .on 6 2147483647).siTicks = (led .on 6 2147483647).cfg.tickMax ∧ demo.irqPending = false ∧
    0 < demo.siTicks ∧ State.reset.siTicks = 0 := by decide

theorem witness_OnlyTheTimerFaults : Invariant { demo with sched := [.timer], prog := [] } := demo_invariant _ _

theorem witness_ExpiryInCriticalSectionIsNotLost :
    0 < demo.siTicks ∧ demo.csHeld = false ∧ demo.irqPending = false := by decide

theorem witness_TickCommutesWithCommands :
    demo.csHeld = false ∧ demo.irqPending = false ∧ demo.siTicks < demo.cfg.tickMax ∧ 0 < demo.siTicks ∧
    stalled.phase ≠ .ready ∧ holds (hostStep stalled) (fun t => t.busLog.length == 2) = true := by decide

/-- A run of a tick and an update. -/
theorem witness_TicksAreConserved :
    Invariant { demo with sched := [.timer, .host], prog := [0x1300000000000000] } ∧
    NoReset 2 { demo with sched := [.timer, .host], prog := [0x1300000000000000] } ∧
    holds (Host.Core.run core 2 { demo with sched := [.timer, .host], prog := [0x1300000000000000] })
      (fun t => t.siTicks == 2) = true :=
  ⟨demo_invariant _ _, by unfold NoReset; decide, by decide⟩

theorem witness_OnlyUpdateLowersTheCounter :
    demo.irqPending = false ∧ holds (exec .ledUpdate demo) (fun _ => true) = true ∧
    holds (exec .motVer demo) (fun _ => true) = true := by decide

theorem witness_ResultRegisterWriters :
    demo.irqPending = false ∧ demo.phase = .ready ∧ holds (exec .motVer demo) (fun t => t.res != demo.res) = true := by
  decide

theorem witness_ModeAndColorWriters :
    demo.irqPending = false ∧ holds (exec (.ledMode 1) demo) (fun t => t.siMode != demo.siMode) = true ∧
    holds (exec (.ledColor 2) demo) (fun t => t.siColor != demo.siColor) = true := by decide

theorem witness_BusRegisterWriters :
    demo.irqPending = false ∧
    holds (exec (.busCfg .bus0 21 22 9) State.reset) (fun t => t.rb0.configured != State.reset.rb0.configured) = true ∧
    holds (exec (.busScan .bus1) demo) (fun t => t.rb1.dev != demo.rb1.dev) = true ∧
    holds (exec (.busRd .bus0 0x20 0 1) demo) (fun t => t.rb0.busy != demo.rb0.busy) = true := by decide

theorem witness_ConfigurationIsPermanent :
    Invariant { demo with sched := [], prog := [0x1300000000000000] } ∧
    State.nextEvent { demo with sched := [], prog := [0x1300000000000000] } ≠ .reset ∧
    holds (step { demo with sched := [], prog := [0x1300000000000000] }) (fun _ => true) = true ∧
    demo.siConfigured = true ∧ (demo.bus .bus0).configured = true :=
  ⟨demo_invariant _ _, by decide, by decide, by decide, by decide⟩

theorem witness_BusLogOnlyGrows :
    Invariant { demo with sched := [], prog := [0x3000000000000000] } ∧
    State.nextEvent { demo with sched := [], prog := [0x3000000000000000] } ≠ .reset ∧
    holds (step { demo with sched := [], prog := [0x3000000000000000] }) (fun t => t.busLog.length == 2) = true :=
  ⟨demo_invariant _ _, by decide, by decide⟩

theorem witness_CommandListAndParametersAreImmutable :
    holds (step { demo with sched := [.reset], prog := [1] }) (fun t => t.prog == [1]) = true := by decide

theorem witness_CommandIndexAdvancesOnDone :
    demo.irqPending = false ∧ demo.phase = .ready ∧ holds (exec .motVer demo) (fun t => t.phase == .ready) = true ∧
    holds (exec (.busRd .bus0 0x20 0 1) demo) (fun t => t.phase == .hung) = true ∧
    holds (exec (.motSpind .left 200 360) demo) (fun t => t.phase == .polling .left 360) = true := by decide

theorem witness_BusCfgStoresParameters :
    State.reset.rb0.configured = false ∧ State.reset.rb1.configured = false := by decide

/-- One byte and four bytes, each at its largest value; no byte, and five; a value one too large. -/
theorem witness_BusWrIssuesOneWrite :
    1 ≤ (1 : BitVec 3).toNat ∧ (4 : BitVec 3).toNat ≤ demo.cfg.busMaxBytes ∧
    (255 : BitVec 32).toNat < 2 ^ (8 * (1 : BitVec 3).toNat) ∧
    (0xFFFFFFFF : BitVec 32).toNat < 2 ^ (8 * (4 : BitVec 3).toNat) ∧ (demo.bus .bus0).configured = true ∧
    (0 : BitVec 3).toNat = 0 ∧ demo.cfg.busMaxBytes < (5 : BitVec 3).toNat ∧
    2 ^ (8 * (1 : BitVec 3).toNat) ≤ (256 : BitVec 32).toNat := by decide

theorem witness_BusRdAssemblesTheAnswer :
    1 ≤ (4 : BitVec 3).toNat ∧ (4 : BitVec 3).toNat ≤ demo.cfg.busMaxBytes ∧ (demo.bus .bus0).configured = true ∧
    ((busWrite .bus0 0x3C [0x40] demo).2.envRead .bus0 0x3C 4).1 = some [0xDE, 0xAD, 0xBE, 0xEF] ∧
    demo.env = .reference devices ∧ demo.cfg.busMaxBytes < (5 : BitVec 3).toNat := by decide

/-- Nothing at the address; a motor device that does not answer; an encoder that does not answer, at once and after two
polls; a poll of a stalled spin that is not answered. -/
theorem witness_UnansweredReadsHang :
    ((busWrite .bus0 0x20 [0] demo).2.envRead .bus0 0x20 1).1 = none ∧
    ((onBus (.reference [])).bus (onBus (.reference [])).cfg.motorBus).configured = true ∧
    ((busWrite .bus1 0x58 [0x0D] (onBus (.reference []))).2.envRead .bus1 0x58 1).1 = none ∧
    ((busWrite .bus1 0x58 [2] (onBus (.reference []))).2.envRead .bus1 0x58 4).1 = none ∧
    ((busWrite .bus1 0x58 [6] (onBus (.reference []))).2.envRead .bus1 0x58 4).1 = none ∧
    ((busWrite .bus1 0x58 [2] (spinPair .both 200 (motorWrite 0x10 0x20 (onBus (.reference []))))).2.envRead
      .bus1 0x58 4).1 = none ∧
    (onBus (.answers [] [some [0, 0, 0, 1], some [0, 0, 0, 2], none])).env =
      .answers [] ([[0, 0, 0, 1], [0, 0, 0, 2]].map some ++ none :: []) ∧
    (∀ y ∈ ([[0, 0, 0, 1], [0, 0, 0, 2]] : List (List Byte)), ShortAnswer 360 y) ∧
    State.phase { stalled with env := .reference [] } = .polling .left 400 ∧
    ((busWrite .bus1 0x58 [2] { stalled with env := .reference [] }).2.envRead .bus1 0x58 4).1 = none := by decide

theorem witness_HungHostNeverMoves :
    State.phase { demo with phase := .hung, sched := [.timer, .host] } = .hung ∧
    State.csHeld { demo with phase := .hung, sched := [.timer, .host] } = false ∧
    NoReset 2 { demo with phase := .hung, sched := [.timer, .host] } ∧
    holds (Host.Core.run core 2 { demo with phase := .hung, sched := [.timer, .host] })
      (fun t => t.siTicks == 3 && t.phase == .hung) = true :=
  ⟨by decide, by decide, by unfold NoReset; decide, by decide⟩

theorem witness_BusScanRebuildsTheTable : (demo.bus .bus0).configured = true ∧ (demo.bus .bus1).configured = true := by
  decide

theorem witness_ScanListsTheDevicesAndRepeats :
    (demo.bus .bus1).configured = true ∧ demo.cfg.busOk .bus1 = true ∧ demo.env = .reference devices := by decide

theorem witness_NonfunctionalBusIsSilent :
    (State.bus { demo with cfg := { Config.default with busOk1 := false } } .bus1).configured = true ∧
    Config.busOk { Config.default with busOk1 := false } .bus1 = false ∧
    1 ≤ (4 : BitVec 3).toNat ∧ (4 : BitVec 3).toNat ≤ demo.cfg.busMaxBytes ∧
    (0xFFFFFFFF : BitVec 32).toNat < 2 ^ (8 * (4 : BitVec 3).toNat) := by decide

/-- A plain device; and the motor device, with the encoder reset among the bytes, and without. -/
theorem witness_ReferenceWriteStoresItsBytes :
    1 ≤ (2 : BitVec 3).toNat ∧ (2 : BitVec 3).toNat ≤ demo.cfg.busMaxBytes ∧
    (0x1234 : BitVec 32).toNat < 2 ^ (8 * (2 : BitVec 3).toNat) ∧ (0x0020 : BitVec 32).toNat < 2 ^ (8 * 2) ∧
    (demo.bus .bus0).configured = true ∧ (demo.bus .bus1).configured = true ∧ demo.cfg.busOk .bus0 = true ∧
    demo.cfg.busOk .bus1 = true ∧ demo.env = .reference devices ∧ (∀ d ∈ devices, Memory.wf d.regs) ∧
    holds (exec (.busWr .bus1 0x58 15 2 0x0020) demo) (fun t =>
      match t.env with
      | .reference ds => ds.map (fun d => Memory.read d.regs 5) == [0, 0]
      | .answers _ _ => false) = true ∧
    holds (exec (.busWr .bus1 0x58 5 2 0x0020) demo) (fun t =>
      match t.env with
      | .reference ds => ds.map (fun d => Memory.read d.regs 6) == [0, 0x20]
      | .answers _ _ => false) = true := by decide

theorem witness_MultiByteWriteReadsBack :
    1 ≤ (4 : BitVec 3).toNat ∧ (4 : BitVec 3).toNat ≤ demo.cfg.busMaxBytes ∧
    (0xDEADBEEF : BitVec 32).toNat < 2 ^ (8 * (4 : BitVec 3).toNat) ∧ (demo.bus .bus1).configured = true ∧
    demo.cfg.busOk .bus1 = true ∧ demo.env = .reference devices ∧
    (devices.find? fun x => x.bus == .bus1 && x.addr == 0x58) =
      some ⟨.bus1, 0x58, true, 0, [(4, 1), (5, 0x68), (6, 0xFF), (7, 0xFF), (8, 0xFF), (9, 0xFE), (13, 3)]⟩ ∧
    (∀ k < 4, (13 + k) % 256 = demo.cfg.regCommand.toNat →
      BitVec.ofNat 8 (0xDEADBEEF / 256 ^ (4 - 1 - k)) ≠ demo.cfg.cmdResetEnc) ∧
    Memory.wf [(4, 1), (5, 0x68), (6, 0xFF), (7, 0xFF), (8, 0xFF), (9, 0xFE), (13, 3)] := by decide

theorem witness_MotVerReadsTheVersion :
    (demo.bus demo.cfg.motorBus).configured = true ∧
    ((busWrite .bus1 demo.cfg.motorAddr [demo.cfg.regVersion] demo).2.envRead .bus1 demo.cfg.motorAddr 1).1 =
      some [3] := by decide

/-- A positive and a negative count. -/
theorem witness_MotEncReadsTheSignedCount :
    (demo.bus demo.cfg.motorBus).configured = true ∧
    ((busWrite .bus1 demo.cfg.motorAddr [demo.cfg.regEnc1] demo).2.envRead .bus1 demo.cfg.motorAddr 4).1 =
      some [0, 0, 1, 0x68] ∧
    ((busWrite .bus1 demo.cfg.motorAddr [demo.cfg.regEnc2] demo).2.envRead .bus1 demo.cfg.motorAddr 4).1 =
      some [0xFF, 0xFF, 0xFF, 0xFE] := by decide

/-- The one hypothesis of the statement on MOT.RSTENC and MOT.MODE. -/
theorem witness_MotRstencAndModeWriteOneByte : (demo.bus demo.cfg.motorBus).configured = true := by decide

theorem witness_MotSpinWritesModeThenSpeed :
    (demo.bus demo.cfg.motorBus).configured = true ∧
    (State.reset.bus State.reset.cfg.motorBus).configured = false ∧ 2 < (3 : Byte).toNat := by decide

theorem witness_MotStopIsSpinAtStopSpeed :
    (demo.bus demo.cfg.motorBus).configured = true ∧
    (State.reset.bus State.reset.cfg.motorBus).configured = false ∧ 2 < (3 : Byte).toNat := by decide

theorem witness_ScenarioCLog :
    (demo.bus demo.cfg.motorBus).configured = true ∧ demo.cfg.stopSpeed = 128 := by decide

/-- M18: the left encoder answers 120, 250, 365. -/
theorem witness_BlockingSpinCompletesAfterItsPolls :
    (State.bus (onBus (.answers [] [some [0, 0, 0, 120], some [0, 0, 0, 250], some [0, 0, 1, 0x6D]])) .bus1).configured =
      true ∧
    (onBus (.answers [] [])).cfg.busOk .bus1 = true ∧ (onBus (.answers [] [])).cfg.motorBus = .bus1 ∧
    (onBus (.answers [] [some [0, 0, 0, 120], some [0, 0, 0, 250], some [0, 0, 1, 0x6D]])).env =
      .answers [] ([[0, 0, 0, 120], [0, 0, 0, 250]].map some ++ some [0, 0, 1, 0x6D] :: []) ∧
    (∀ y ∈ ([[0, 0, 0, 120], [0, 0, 0, 250]] : List (List Byte)), ShortAnswer 360 y) ∧
    (360 : BitVec 32).toNat ≤ (BitVec.ofNat 32 (beVal [0, 0, 1, 0x6D])).toInt.natAbs ∧
    holds (exec (.motSpind .left 200 360) (onBus (.answers (List.replicate 8 true)
        [some [0, 0, 0, 120], some [0, 0, 0, 250], some [0, 0, 1, 0x6D]]))) (fun t =>
      t.cp == 1 && t.busLog.length == 11 &&
      t.busLog.drop 9 == [.write .bus1 0x58 [0x0F, 0x00] true, .write .bus1 0x58 [0x00, 0x80] true]) = true := by decide

/-- The reference motor device, whose encoder stays at 0; and two written answers short of the distance. -/
theorem witness_StalledSpinPollsForEver :
    (demo.bus demo.cfg.motorBus).configured = true ∧ demo.cfg.busOk demo.cfg.motorBus = true ∧
    demo.env = .reference devices ∧
    ((busWrite .bus1 0x58 [2] (spinPair .left 200 (motorWrite 0x10 0x20 demo))).2.envRead .bus1 0x58 4).1 =
      some [0, 0, 0, 0] ∧ ShortAnswer 360 [0, 0, 0, 0] ∧
    State.phase { stalled with env := .answers [] [some [0, 0, 0, 1], some [0, 0, 0, 2]] } = .polling .left 400 ∧
    State.env { stalled with env := .answers [] [some [0, 0, 0, 1], some [0, 0, 0, 2]] } =
      .answers [] ([[0, 0, 0, 1], [0, 0, 0, 2]].map some ++ []) ∧
    (∀ y ∈ ([[0, 0, 0, 1], [0, 0, 0, 2]] : List (List Byte)), ShortAnswer 400 y) := by decide

/-- At the distance, and short of it. -/
theorem witness_BlockingSpinFirstPoll :
    (demo.bus demo.cfg.motorBus).configured = true ∧
    ((busWrite .bus1 0x58 [2] (spinPair .left 200 (motorWrite 0x10 0x20 demo))).2.envRead .bus1 0x58 4).1 =
      some [0, 0, 0, 0] ∧
    (0 : BitVec 32).toNat ≤ (BitVec.ofNat 32 (beVal [0, 0, 0, 0])).toInt.natAbs ∧
    ¬ (1 : BitVec 32).toNat ≤ (BitVec.ofNat 32 (beVal [0, 0, 0, 0])).toInt.natAbs := by decide

theorem witness_EncodersReadZeroAfterReset :
    demo.cfg.Valid ∧ (demo.bus demo.cfg.motorBus).configured = true ∧ demo.cfg.busOk demo.cfg.motorBus = true ∧
    demo.env = .reference devices ∧
    (devices.find? fun x => x.bus == demo.cfg.motorBus && x.addr == demo.cfg.motorAddr) =
      some ⟨.bus1, 0x58, true, 0, [(4, 1), (5, 0x68), (6, 0xFF), (7, 0xFF), (8, 0xFF), (9, 0xFE), (13, 3)]⟩ ∧
    Memory.wf [(4, 1), (5, 0x68), (6, 0xFF), (7, 0xFF), (8, 0xFF), (9, 0xFE), (13, 3)] := by decide

/-- Each of the three outcomes: done, the hang in a read, the hang in the polls. -/
theorem witness_BlockingSpinOutcomes :
    (demo.bus demo.cfg.motorBus).configured = true ∧
    holds (exec (.motSpind .left 200 0) demo) (fun t => t.cp == 1 && t.phase == .ready) = true ∧
    holds (exec (.motSpind .left 200 360) (onBus (.reference []))) (fun t => t.cp == 0 && t.phase == .hung) = true ∧
    holds (exec (.motSpind .left 200 360) demo) (fun t => t.cp == 0 && t.phase == .polling .left 360) = true := by
  decide

/-- A tick and a further poll of a stalled spin; and a hang in a read. -/
theorem witness_HangIsForEver :
    State.phase { stalled with sched := [.timer, .host] } ≠ .ready ∧
    State.csHeld { stalled with sched := [.timer, .host] } = false ∧ NoReset 2 { stalled with sched := [.timer, .host] } ∧
    holds (Host.Core.run core 2 { stalled with sched := [.timer, .host] })
      (fun t => t.siTicks == 3 && t.busLog.length == 2 && t.phase == .polling .left 400) = true ∧
    State.phase { stalled with phase := .hung } ≠ .ready :=
  ⟨by decide, by decide, by unfold NoReset; decide, by decide, by decide⟩

end Sys2Proof.Tests
end

/-! ## The tick counter (R14, R61, R86, R88) -/
section
namespace Sys2Proof.Machine

section TickSteps

variable (s : State)

theorem tickNext_iff : tickNext s = true ↔ s.nextEvent = .timer ∧ s.tmrArmed = true := by
  simp [tickNext]

/-- R14, R88: below the limit the armed timer's turn uses up its event and counts one tick. -/
theorem step_of_tick_below (ht : tickNext s = true) (hcs : s.csHeld = false) (hlt : s.siTicks < s.cfg.tickMax) :
    step s = .next { s with sched := s.sched.tail, siTicks := s.siTicks + 1 } := by
  rw [step_of_tick s ht hcs, tick_below s.popEvent hlt, ← hcs]
  rfl

/-- R14, R88: at the limit the armed timer's turn faults. -/
theorem step_of_tick_at_limit (ht : tickNext s = true) (hcs : s.csHeld = false) (hle : s.cfg.tickMax ≤ s.siTicks) :
    step s = .fault .tickOverflow := by
  rw [step_of_tick s ht hcs, tick_at_limit s.popEvent hle]

/-- R86: `LED.UPDATE` goes on, with the counter one lower and never below zero (the subtraction is that of `Nat`). -/
theorem execLedUpdate_siTicks (h : s.irqPending = false) :
    ∃ t, exec .ledUpdate s = .next t ∧ t.siTicks = s.siTicks - 1 := by
  rw [execLedUpdate_eq s h]
  by_cases hpos : 0 < s.siTicks
  · rw [if_pos hpos]
    exact ⟨_, rfl, rfl⟩
  · rw [if_neg hpos]
    exact ⟨_, rfl, by rw [State.advance_siTicks]; omega⟩

end TickSteps

/-- Settles O26: the armed timer's turn on each side of the limit, and the one tick `LED.UPDATE` takes off. -/
theorem tickCounterArithmetic : Obligations.TickCounterArithmetic := by
  refine ⟨fun s he ha hcs hlt => ?below, fun s he ha hcs heq => ?limit, fun s hirq => ?update⟩
  case below => exact ⟨step_of_tick_below s ((tickNext_iff s).2 ⟨he, ha⟩) hcs hlt, hlt⟩
  case limit => exact step_of_tick_at_limit s ((tickNext_iff s).2 ⟨he, ha⟩) hcs heq.ge
  case update =>
    obtain ⟨t, hexec, hticks⟩ := execLedUpdate_siTicks s hirq
    exact ⟨t, hexec, by omega, by omega⟩

end Sys2Proof.Machine
end

/-! ## The reset values (R42) -/
section
namespace Sys2Proof.Machine

@[simp] theorem State.reset_pwmAt (ch : ChannelId) : State.reset.pwmAt ch = ⟨none, none⟩ :=
  Vector.getElem_replicate ch.isLt

@[simp] theorem State.reset_bus (b : BusId) : State.reset.bus b = BusRegs.reset := by
  cases b <;> rfl

/-- Settles O9: each scalar element is a field of `State.reset`; the PWM registers and the buses are the two families
that need an argument over their index. -/
theorem resetValues : Obligations.ResetValues :=
  ⟨rfl, rfl, rfl, rfl, rfl, rfl, rfl, rfl, rfl, rfl, State.reset_pwmAt, rfl, rfl, rfl, State.reset_bus, rfl⟩

end Sys2Proof.Machine
end

/-! ## Words the decoder rejects (R69, R72, R73) -/
section
namespace Sys2Proof

/-- R72, R74: a row rejects a word for its fields, never for its opcode. -/
theorem Row.read_ne_undefOp (r : Row) (w : Word) : r.read w ≠ .error .undefOp := by
  unfold Row.read
  split
  case isTrue =>
    split
    case h_1 => split <;> simp
    case h_2 => simp
  case isFalse => simp

/-- R72: the mask check comes first. -/
theorem Row.read_of_mask_ne {r : Row} {w : Word} (h : w &&& r.mask ≠ r.pattern) :
    r.read w = .error .reserved :=
  if_neg h

theorem decode_of_not_mem_opcodes {w : Word} (h : opOf w ∉ rows.map Row.op) : decode w = .error .undefOp := by
  have hnone : rows.find? (fun r => r.op == opOf w) = none :=
    List.find?_eq_none.2 fun r hr heq => h (List.mem_map.2 ⟨r, hr, eq_of_beq heq⟩)
  rw [decode, hnone]

/-- R69: the word is read by the row that holds its opcode; the look-up finds no other, since opcodes are distinct. -/
theorem decode_of_mem_rows {r : Row} {w : Word} (hr : r ∈ rows) (hop : opOf w = r.op) : decode w = r.read w := by
  have hsome : (rows.find? fun r' => r'.op == opOf w).isSome :=
    List.find?_isSome.2 ⟨r, hr, beq_iff_eq.2 hop.symm⟩
  obtain ⟨r', hfind⟩ := Option.isSome_iff_exists.1 hsome
  have hfound := List.find?_some hfind
  have heq : r' = r :=
    List.inj_on_of_nodup_map rows_opcodes_distinct (List.mem_of_find?_eq_some hfind) hr
      ((eq_of_beq hfound).trans hop)
  rw [decode, hfind, heq]

/-- R73: the decoder rejects a word as undefined exactly if its opcode is not in the table. -/
theorem decode_eq_undefOp_iff (w : Word) : decode w = .error .undefOp ↔ opOf w ∉ rows.map Row.op := by
  refine ⟨fun h hmem => ?_, decode_of_not_mem_opcodes⟩
  obtain ⟨r, hr, hop⟩ := List.mem_map.1 hmem
  exact r.read_ne_undefOp w (decode_of_mem_rows hr hop.symm ▸ h)

/-- R69, R73: the opcodes outside the table are the four ranges. -/
theorem not_mem_opcodes_iff (op : Byte) :
    op ∉ rows.map Row.op ↔
      op.toNat ≤ 0x0F ∨ (0x16 ≤ op.toNat ∧ op.toNat ≤ 0x1F) ∨ (0x24 ≤ op.toNat ∧ op.toNat ≤ 0x2F) ∨
        0x37 ≤ op.toNat := by
  simp only [rows, ledRows, busRows, motRows, List.cons_append, List.nil_append, List.map_cons, List.map_nil,
    List.mem_cons, List.not_mem_nil, or_false, ← BitVec.toNat_inj, BitVec.reduceToNat]
  omega

namespace Machine

variable {s : State} {w : Word}

theorem hostStep_of_fetch (hp : s.phase = .ready) (hf : s.fetch = some w) : hostStep s = runWord w s := by
  simp only [hostStep, hp, hf]

theorem hostStep_of_undefOp (hp : s.phase = .ready) (hf : s.fetch = some w) (hd : decode w = .error .undefOp) :
    hostStep s = .refused .undefOp := by
  rw [hostStep_of_fetch hp hf, runWord, hd]

theorem hostStep_of_reserved (hp : s.phase = .ready) (hf : s.fetch = some w) (hd : decode w = .error .reserved) :
    hostStep s = .refused .reserved := by
  rw [hostStep_of_fetch hp hf, runWord, hd]

end Machine

/-- Settles O4: undefined is "not in the table", and the opcodes outside the table are the four ranges. -/
theorem undefinedOpcodesRefused : Obligations.UndefinedOpcodesRefused :=
  ⟨fun w => (decode_eq_undefOp_iff w).trans (not_mem_opcodes_iff (opOf w)),
    fun _ _ hp hf hd => Machine.hostStep_of_undefOp hp hf hd⟩

/-- Settles O5: the statement's table is that of the decoder's rows, and the row that holds the opcode checks its mask
before anything else. -/
theorem reservedFieldsRefused : Obligations.ReservedFieldsRefused := by
  intro row hrow w hop hmask
  have htable : row ∈ rows.map fun r => (r.op, r.pattern, r.mask) := hrow
  obtain ⟨r, hr, rfl⟩ := List.mem_map.1 htable
  have hd : decode w = .error .reserved := (decode_of_mem_rows hr hop).trans (Row.read_of_mask_ne hmask)
  exact ⟨hd, fun _ hp hf => Machine.hostStep_of_reserved hp hf hd⟩

end Sys2Proof
end

/-! ## Words the decoder reads (R69, R72, R74) -/
section
namespace Sys2Proof

theorem Row.read_of_operands {r : Row} {w : Word} {i : Instr} (hmask : w &&& r.mask = r.pattern)
    (hop : r.operands w = some i) (hwf : i.wellFormed = true) : r.read w = .ok i := by
  simp only [Row.read, if_pos hmask, hop, if_pos hwf]

/-- R69, R72: the word of a command lies in its row, so the decoder gives the command back once the row's operand fields
do. -/
theorem decode_encode_of_row {r : Row} {i : Instr} (hlaw : Laws.OpField.Statement i) (hr : r ∈ rows)
    (hcode : r.op = Laws.OpField.opcode i) (hop : r.operands (encode i) = some i) (hwf : i.wellFormed = true) :
    decode (encode i) = .ok i := by
  obtain ⟨row, hfind, hrowcode, hmask⟩ := hlaw
  have heq : row = r :=
    List.inj_on_of_nodup_map rows_opcodes_distinct (List.mem_of_find?_eq_some hfind) hr (hrowcode.trans hcode.symm)
  subst heq
  rw [decode, hfind]
  exact Row.read_of_operands hmask hop hwf

theorem decode_encode_ledColor (c : ColorIx) : decode (encode (.ledColor c)) = .ok (.ledColor c) := by
  have hr : rows[1] ∈ rows := List.getElem_mem (by decide)
  refine decode_encode_of_row (Laws.OpField.ledColor c) hr rfl ?operands rfl
  exact congrArg (fun x => some (Instr.ledColor x)) (fieldA_assemble 0x11 c 0 0 0)

theorem decode_encode_ledGetc : decode (encode .ledGetc) = .ok .ledGetc := by
  have hr : rows[4] ∈ rows := List.getElem_mem (by decide)
  exact decode_encode_of_row Laws.OpField.ledGetc hr rfl rfl rfl

end Sys2Proof
end

/-! ## LED.COLOR and LED.GETC (R80, R82, R83, R89) -/
section
namespace Sys2Proof.Machine

section LedColorAndGetc

variable (s : State) (c : ColorIx)

theorem whenLedConfigured_of_configured (k : Result) (h : s.siConfigured = true) : whenLedConfigured s k = k :=
  if_pos h

theorem whenLedConfigured_of_not_configured (k : Result) (h : s.siConfigured = false) :
    whenLedConfigured s k = .refused .notConfigured :=
  if_neg (ne_true_of_eq_false h)

/-- R83: `LED.COLOR` on a configured LED, whatever the mode. -/
theorem execLedColor_of_configured (h : s.siConfigured = true) :
    exec (.ledColor c) s = .next (s.apply c).advance :=
  whenLedConfigured_of_configured s _ h

/-- R89: `LED.GETC` on a configured LED. -/
theorem execLedGetc_of_configured (h : s.siConfigured = true) :
    exec .ledGetc s = .next (s.setRes (zext64 s.siColor.toNat)).advance :=
  whenLedConfigured_of_configured s _ h

/-- A bit vector's number, zero-extended, is the vector zero-extended. -/
theorem zext64_toNat {n : Nat} (x : BitVec n) : zext64 x.toNat = x.setWidth 64 :=
  BitVec.ofNat_toNat 64 x

/-- R82: what a done step that applies a colour leaves unchanged. -/
theorem State.advance_apply_frame :
    (s.apply c).advance = { s with cp := s.cp + 1, siColor := clamp s.cfg c, pwm := (s.apply c).pwm } := by
  rw [State.apply_frame]
  rfl

/-- R82: the end of the step leaves what the applied colour shows. -/
theorem State.shown_advance_apply {r g b : LedChannel} (h : LedReady s r g b) :
    (s.apply c).advance.ledOut = shown (duties s.cfg (clamp s.cfg c)) ∧ OnlyDuties s (s.apply c).advance r g b := by
  obtain ⟨hshown, honly⟩ := s.shown_apply c r g b h
  have hout : (s.apply c).advance.ledOut = (s.apply c).ledOut := State.ledOut_congr rfl rfl rfl rfl
  exact ⟨hout.trans hshown, honly⟩

end LedColorAndGetc

/-- Settles O16: the step applies the colour, and its end leaves the stored index, the duties shown and the frame. -/
theorem ledColorShowsClampedColor : Obligations.LedColorShowsClampedColor := by
  refine ⟨fun s c r g b hready => ?applied, fun s c h => ?refused, decode_encode_ledColor⟩
  case applied =>
    have hcolor : (s.apply c).advance.siColor = clamp s.cfg c := s.apply_siColor c
    obtain ⟨hshown, honly⟩ := s.shown_advance_apply c hready
    refine ⟨_, execLedColor_of_configured s c hready.1, hcolor, ?_, ?_, honly⟩
    · rw [hcolor, hshown]
    · rw [hcolor]
      exact s.advance_apply_frame c
  case refused => exact whenLedConfigured_of_not_configured s _ h

/-- Settles O23: the meaning's number of the stored colour is the colour zero-extended. -/
theorem ledGetcReadsStoredColor : Obligations.LedGetcReadsStoredColor := by
  refine ⟨fun s h => ?read, fun s h => ?refused, decode_encode_ledGetc⟩
  case read =>
    rw [execLedGetc_of_configured s h, zext64_toNat]
    rfl
  case refused => exact whenLedConfigured_of_not_configured s _ h

end Sys2Proof.Machine
end

/-! ## The words of the spin commands (R69, R70, R72, R74) -/
section
namespace Sys2Proof

theorem selectorOfBits_code (sel : Selector) : selectorOfBits sel.code = some sel := by
  cases sel <;> rfl

/-- R70: the selector field is the two low bits of the field `a`. -/
theorem selectorBits_assemble (o a b c : Byte) (d : BitVec 32) :
    (assemble o a b c d).extractLsb' 48 2 = a.setWidth 2 := by
  rw [← BitVec.setWidth_extractLsb'_of_le (show 2 ≤ 8 by decide), fieldA_assemble]

theorem selectorBits_encoded (o b c : Byte) (d : BitVec 32) (sel : Selector) :
    selectorOfBits ((assemble o (0#6 ++ sel.code) b c d).extractLsb' 48 2) = some sel := by
  rw [selectorBits_assemble, BitVec.setWidth_append_eq_right, selectorOfBits_code]

/-- R72, R74: above the selectors a field `a` has a reserved bit set, or its two low bits name no selector. -/
theorem selectorOfBits_eq_none_of_unreserved :
    ∀ a : Byte, 2 < a.toNat → a &&& 0xFC = 0 → selectorOfBits (a.setWidth 2) = none := by decide

theorem Row.read_of_no_operands {r : Row} {w : Word} (h : r.operands w = none) : r.read w = .error .reserved := by
  rw [Row.read, h]
  exact ite_self _

/-- R72, R74: a row that reads a selector from the field `a`, its other bits reserved, rejects every number above the
selectors. -/
theorem decode_of_selector_above {r : Row} {o a : Byte} (b c : Byte) (d : BitVec 32) (hr : r ∈ rows) (hop : r.op = o)
    (hmask : r.mask.extractLsb' 48 8 = 0xFC)
    (hoperands : ∀ w, selectorOfBits (w.extractLsb' 48 2) = none → r.operands w = none) (ha : 2 < a.toNat) :
    decode (assemble o a b c d) = .error .reserved := by
  subst hop
  rw [decode_of_mem_rows hr (opOf_assemble ..)]
  by_cases hm : assemble r.op a b c d &&& r.mask = r.pattern
  case neg => exact Row.read_of_mask_ne hm
  case pos =>
    have hfield : a &&& 0xFC = 0 := by
      have h := congrArg (fun w => w.extractLsb' 48 8) hm
      rwa [(rows_patterns r hr).2, BitVec.extractLsb'_and, fieldA_assemble, fieldA_assemble, hmask] at h
    refine Row.read_of_no_operands (hoperands _ ?_)
    rw [selectorBits_assemble]
    exact selectorOfBits_eq_none_of_unreserved a ha hfield

theorem decode_encode_motSpin (sel : Selector) (speed : Byte) :
    decode (encode (.motSpin sel speed)) = .ok (.motSpin sel speed) := by
  have hr : rows[14] ∈ rows := List.getElem_mem (by decide)
  refine decode_encode_of_row (Laws.OpField.motSpin sel speed) hr rfl ?operands rfl
  have hsel := selectorBits_encoded 0x34 speed 0 0 sel
  have hspeed := fieldB_assemble 0x34 (0#6 ++ sel.code) speed 0 0
  exact congrArg₂ (fun x y => Option.map (fun sel => Instr.motSpin sel y) x) hsel hspeed

theorem decode_encode_motStop (sel : Selector) : decode (encode (.motStop sel)) = .ok (.motStop sel) := by
  have hr : rows[15] ∈ rows := List.getElem_mem (by decide)
  refine decode_encode_of_row (Laws.OpField.motStop sel) hr rfl ?operands rfl
  exact congrArg (Option.map Instr.motStop) (selectorBits_encoded 0x35 0 0 0 sel)

theorem decode_motSpin_selector_above (a speed : Byte) (ha : 2 < a.toNat) :
    decode (assemble 0x34 a speed 0 0) = .error .reserved := by
  have hr : rows[14] ∈ rows := List.getElem_mem (by decide)
  exact decode_of_selector_above speed 0 0 hr rfl (by decide) (fun _ h => congrArg (Option.map _) h) ha

theorem decode_motStop_selector_above (a : Byte) (ha : 2 < a.toNat) :
    decode (assemble 0x35 a 0 0 0) = .error .reserved := by
  have hr : rows[15] ∈ rows := List.getElem_mem (by decide)
  exact decode_of_selector_above 0 0 0 hr rfl (by decide) (fun _ h => congrArg (Option.map _) h) ha

end Sys2Proof
end

/-! ## MOT.SPIN and MOT.STOP (R110, R116, R117) -/
section
namespace Sys2Proof.Machine

/-- The state between the two writes of a spin (R116). -/
def State.inSpinMode (s : State) (sel : Selector) : State :=
  (busWrite s.cfg.motorBus s.cfg.motorAddr [s.cfg.regMode, spinMode s.cfg sel] s).2

section Spin

variable (s : State) (sel : Selector) (speed : Byte)

theorem whenBusConfigured_of_configured (b : BusId) (k : Result) (h : (s.bus b).configured = true) :
    whenBusConfigured s b k = k :=
  if_pos h

theorem whenBusConfigured_of_not_configured (b : BusId) (k : Result) (h : (s.bus b).configured = false) :
    whenBusConfigured s b k = .refused .notConfigured :=
  if_neg (ne_true_of_eq_false h)

/-- R116: the two records of a spin, each with the acknowledge of the state its write is issued in. -/
theorem spinPair_records :
    spinPair sel speed s = { s with
      busLog := s.busLog ++
        [.write s.cfg.motorBus s.cfg.motorAddr [s.cfg.regMode, spinMode s.cfg sel]
          (s.envWrite s.cfg.motorBus s.cfg.motorAddr [s.cfg.regMode, spinMode s.cfg sel]).1,
         .write s.cfg.motorBus s.cfg.motorAddr [spinReg s.cfg sel, speed]
          ((s.inSpinMode sel).envWrite s.cfg.motorBus s.cfg.motorAddr [spinReg s.cfg sel, speed]).1]
      env := ((s.inSpinMode sel).envWrite s.cfg.motorBus s.cfg.motorAddr [spinReg s.cfg sel, speed]).2
      envClock := s.envClock + 2 } := by
  rw [spinPair, motorWrite_eq, motorWrite_eq]
  exact s.logged_logged _ _ _ _

theorem execMotSpin_of_configured (h : (s.bus s.cfg.motorBus).configured = true) :
    exec (.motSpin sel speed) s = .next (spinPair sel speed s).advance :=
  whenBusConfigured_of_configured s _ _ h

theorem execMotSpin_of_not_configured (h : (s.bus s.cfg.motorBus).configured = false) :
    exec (.motSpin sel speed) s = .refused .notConfigured :=
  whenBusConfigured_of_not_configured s _ _ h

/-- R117: the two meanings are one. -/
theorem execMotStop_eq : exec (.motStop sel) s = exec (.motSpin sel s.cfg.stopSpeed) s := rfl

end Spin

/-- Settles O52: a configured `MOT.SPIN` is the spin pair and the end of the step, and the pair's records are known; the
statement's tables of modes and registers are those of the meaning. -/
theorem motSpinWritesModeThenSpeed : Obligations.MotSpinWritesModeThenSpeed := by
  refine ⟨fun s sel speed h => ?spun, execMotSpin_of_not_configured, fun speed => ?words⟩
  case spun =>
    rw [execMotSpin_of_configured s sel speed h, spinPair_records]
    rfl
  case words =>
    exact ⟨decode_encode_motSpin .left speed, decode_encode_motSpin .right speed, decode_encode_motSpin .both speed,
      fun a ha => decode_motSpin_selector_above a speed ha⟩

/-- Settles O53: `MOT.STOP` is `MOT.SPIN` at the stop speed, so its two outcomes are those of O52; the words are its
own. -/
theorem motStopIsSpinAtStopSpeed : Obligations.MotStopIsSpinAtStopSpeed := by
  obtain ⟨hspun, hrefused, -⟩ := motSpinWritesModeThenSpeed
  refine ⟨rfl, fun s sel => ⟨execMotStop_eq s sel, fun h => ?spun, fun h => ?refused⟩, ?words⟩
  case spun => exact (execMotStop_eq s sel).trans (hspun s sel s.cfg.stopSpeed h)
  case refused => exact (execMotStop_eq s sel).trans (hrefused s sel s.cfg.stopSpeed h)
  case words =>
    exact ⟨decode_encode_motStop .left, decode_encode_motStop .right, decode_encode_motStop .both,
      decode_motStop_selector_above⟩

end Sys2Proof.Machine
end

/-! ## Operand fields of a word (R67, R70, R71, R72) -/
section
namespace Sys2Proof

section Fields

variable (o a b c : Byte) (d : BitVec 32)

/-- Bits of a field of a word are bits of the word. -/
theorem extractLsb'_field {n : Nat} {w : Word} {x : BitVec n} {start : Nat} (hx : w.extractLsb' start n = x) (k m : Nat)
    (h : k + m ≤ n) : w.extractLsb' (start + k) m = x.extractLsb' k m := by
  subst hx
  ext i hi
  have hk : k + i < n := by omega
  simp [hk, Nat.add_assoc]

@[simp] theorem opcode_assemble : (assemble o a b c d).extractLsb' 56 8 = o := opOf_assemble o a b c d

@[simp] theorem nibbleA_assemble : (assemble o a b c d).extractLsb' 48 4 = a.extractLsb' 0 4 :=
  extractLsb'_field (fieldA_assemble o a b c d) 0 4 (by decide)

@[simp] theorem nibbleB_assemble : (assemble o a b c d).extractLsb' 40 4 = b.extractLsb' 0 4 :=
  extractLsb'_field (fieldB_assemble o a b c d) 0 4 (by decide)

@[simp] theorem nibbleC_assemble : (assemble o a b c d).extractLsb' 32 4 = c.extractLsb' 0 4 :=
  extractLsb'_field (fieldC_assemble o a b c d) 0 4 (by decide)

@[simp] theorem lowBitA_assemble : (assemble o a b c d).extractLsb' 48 1 = a.extractLsb' 0 1 :=
  extractLsb'_field (fieldA_assemble o a b c d) 0 1 (by decide)

@[simp] theorem selectorA_assemble : (assemble o a b c d).extractLsb' 48 2 = a.extractLsb' 0 2 :=
  extractLsb'_field (fieldA_assemble o a b c d) 0 2 (by decide)

@[simp] theorem addressA_assemble : (assemble o a b c d).extractLsb' 48 7 = a.extractLsb' 0 7 :=
  extractLsb'_field (fieldA_assemble o a b c d) 0 7 (by decide)

@[simp] theorem topBitA_assemble : (assemble o a b c d).extractLsb' 55 1 = a.extractLsb' 7 1 :=
  extractLsb'_field (fieldA_assemble o a b c d) 7 1 (by decide)

@[simp] theorem countC_assemble : (assemble o a b c d).extractLsb' 32 3 = c.extractLsb' 0 3 :=
  extractLsb'_field (fieldC_assemble o a b c d) 0 3 (by decide)

@[simp] theorem byteD0_assemble : (assemble o a b c d).extractLsb' 0 8 = d.extractLsb' 0 8 :=
  extractLsb'_field (fieldD_assemble o a b c d) 0 8 (by decide)

@[simp] theorem byteD1_assemble : (assemble o a b c d).extractLsb' 8 8 = d.extractLsb' 8 8 :=
  extractLsb'_field (fieldD_assemble o a b c d) 8 8 (by decide)

@[simp] theorem byteD2_assemble : (assemble o a b c d).extractLsb' 16 8 = d.extractLsb' 16 8 :=
  extractLsb'_field (fieldD_assemble o a b c d) 16 8 (by decide)

end Fields

theorem assemble_inj {o a b c o' a' b' c' : Byte} {d d' : BitVec 32} (h : assemble o a b c d = assemble o' a' b' c' d') :
    o = o' ∧ a = a' ∧ b = b' ∧ c = c' ∧ d = d' :=
  ⟨by simpa using congrArg opOf h, by simpa using congrArg (fun w => w.extractLsb' 48 8) h,
    by simpa using congrArg (fun w => w.extractLsb' 40 8) h, by simpa using congrArg (fun w => w.extractLsb' 32 8) h,
    by simpa using congrArg (fun w => w.extractLsb' 0 32) h⟩

/-- R67, R72: a word that passes a row's mask is the row's opcode with four fields, each zero in its reserved bits. -/
theorem exists_fields_of_masked {o ma mb mc : Byte} {md : BitVec 32} {w : Word}
    (h : w &&& assemble 0xFF ma mb mc md = assemble o 0 0 0 0) :
    ∃ a b c d, w = assemble o a b c d ∧ a &&& ma = 0 ∧ b &&& mb = 0 ∧ c &&& mc = 0 ∧ d &&& md = 0 := by
  rw [← assemble_fields w, assemble_and] at h
  obtain ⟨hop, ha, hb, hc, hd⟩ := assemble_inj h
  refine ⟨_, _, _, _, ?_, ha, hb, hc, hd⟩
  have hfull : opOf w &&& 0xFF = opOf w := BitVec.and_allOnes
  rw [← hop, hfull, assemble_fields]

/-- A value whose high bits are zero is its low bits below them. -/
theorem zeros_append_low {n m : Nat} {x : BitVec (m + n)} (h : x &&& (BitVec.allOnes m ++ 0#n) = 0) :
    0#m ++ x.extractLsb' 0 n = x := by
  ext i hi
  have hbit := congrArg (fun y => y.getLsbD i) h
  by_cases hn : i < n
  case pos => simp [BitVec.getElem_append, hn, BitVec.getLsbD_eq_getElem hi]
  case neg =>
    have him : i - n < m := by omega
    simpa [BitVec.getElem_append, BitVec.getLsbD_append, hn, hi, him] using hbit

theorem nibble_eq {a : Byte} (h : a &&& 0xF0 = 0) : 0#4 ++ a.extractLsb' 0 4 = a := zeros_append_low (m := 4) h
theorem bit_eq {a : Byte} (h : a &&& 0xFE = 0) : 0#7 ++ a.extractLsb' 0 1 = a := zeros_append_low (m := 7) h
theorem selectorBits_eq {a : Byte} (h : a &&& 0xFC = 0) : 0#6 ++ a.extractLsb' 0 2 = a := zeros_append_low (m := 6) h
theorem count_eq {c : Byte} (h : c &&& 0xF8 = 0) : 0#5 ++ c.extractLsb' 0 3 = c := zeros_append_low (m := 5) h

/-- R71: `a[7]` and `a[6:0]` are the whole of the field. -/
theorem busBit_append_address (a : Byte) : a.extractLsb' 7 1 ++ a.extractLsb' 0 7 = a :=
  (BitVec.extractLsb'_append_extractLsb'_eq_extractLsb' rfl).trans BitVec.extractLsb'_eq_self

/-- R71: the three pins are the field `d` below its reserved byte. -/
theorem pins_eq {d : BitVec 32} (h : d &&& 0xFF000000 = 0) :
    0#8 ++ d.extractLsb' 16 8 ++ d.extractLsb' 8 8 ++ d.extractLsb' 0 8 = d := by
  have hpins : d.extractLsb' 16 8 ++ (d.extractLsb' 8 8 ++ d.extractLsb' 0 8) = d.extractLsb' 0 24 := by
    rw [BitVec.extractLsb'_append_extractLsb'_eq_extractLsb' (by rfl)]
    exact BitVec.extractLsb'_append_extractLsb'_eq_extractLsb' (by rfl)
  rw [BitVec.append_assoc, BitVec.append_assoc, hpins]
  exact zeros_append_low (m := 8) (n := 24) h

theorem eq_zero_of_reserved {n : Nat} {x : BitVec n} (h : x &&& BitVec.allOnes n = 0) : x = 0 := by
  rwa [BitVec.and_allOnes] at h

@[simp] theorem busOfBit_code (b : BusId) : busOfBit b.code = b := by cases b <;> rfl
@[simp] theorem sideOfBit_code (sd : Side) : sideOfBit sd.code = sd := by cases sd <;> rfl
theorem code_busOfBit : ∀ x : BitVec 1, (busOfBit x).code = x := by decide
theorem code_sideOfBit : ∀ x : BitVec 1, (sideOfBit x).code = x := by decide

theorem code_of_selectorOfBits {x : BitVec 2} {sel : Selector} (h : selectorOfBits x = some sel) : sel.code = x := by
  revert x
  cases sel <;> decide

end Sys2Proof
end

/-! ## The encoding round trip (R67 to R74, R79) -/
section
namespace Sys2Proof

theorem lowBits_append {n m : Nat} (x : BitVec m) (y : BitVec n) : (x ++ y).extractLsb' 0 n = y := by
  rw [BitVec.extractLsb'_append_eq_of_add_le (by omega), BitVec.extractLsb'_eq_self]

theorem busBit_of_code (b : BusId) (addr : Addr7) : (b.code ++ addr).extractLsb' 7 1 = b.code :=
  BitVec.extractLsb'_append_eq_left

section Pins

variable (pinR pinG pinB : Byte)

theorem pinR_of_pins : (0#8 ++ pinB ++ pinG ++ pinR).extractLsb' 0 8 = pinR := lowBits_append _ _

theorem pinG_of_pins : (0#8 ++ pinB ++ pinG ++ pinR).extractLsb' 8 8 = pinG := by
  rw [BitVec.extractLsb'_append_eq_of_le (by decide)]
  exact lowBits_append _ _

theorem pinB_of_pins : (0#8 ++ pinB ++ pinG ++ pinR).extractLsb' 16 8 = pinB := by
  rw [BitVec.extractLsb'_append_eq_of_le (by decide), BitVec.extractLsb'_append_eq_of_le (by decide)]
  exact lowBits_append _ _

end Pins

/-- R70, R71: the row of a command reads its operands back from its word. -/
theorem exists_row_operands_encode (i : Instr) :
    ∃ r ∈ rows, r.op = Laws.OpField.opcode i ∧ r.operands (encode i) = some i := by
  have hmem : ∀ (k : Nat) (hk : k < rows.length), rows[k] ∈ rows := fun _ _ => List.getElem_mem _
  cases i with
  | ledCfg idR idG idB pinR pinG pinB =>
    refine ⟨_, hmem 0 (by decide), rfl, ?_⟩
    simp [rows, ledRows, encode, lowBits_append (0#4), pinR_of_pins, pinG_of_pins, pinB_of_pins]
  | ledColor color => exact ⟨_, hmem 1 (by decide), rfl, by simp [rows, ledRows, encode]⟩
  | ledMode mode => exact ⟨_, hmem 2 (by decide), rfl, by simp [rows, ledRows, encode]⟩
  | ledUpdate => exact ⟨_, hmem 3 (by decide), rfl, rfl⟩
  | ledGetc => exact ⟨_, hmem 4 (by decide), rfl, rfl⟩
  | ledGetn => exact ⟨_, hmem 5 (by decide), rfl, rfl⟩
  | busCfg bus sda scl clk => 
    refine ⟨_, hmem 6 (by decide), rfl, ?_⟩
    simp [rows, ledRows, busRows, encode, lowBits_append (0#7)]
  | busWr bus addr reg n value => 
    refine ⟨_, hmem 7 (by decide), rfl, ?_⟩
    simp [rows, ledRows, busRows, encode, lowBits_append bus.code, lowBits_append (0#5), busBit_of_code]
  | busRd bus addr reg n => 
    refine ⟨_, hmem 8 (by decide), rfl, ?_⟩
    simp [rows, ledRows, busRows, encode, lowBits_append bus.code, lowBits_append (0#5), busBit_of_code]
  | busScan bus =>
    refine ⟨_, hmem 9 (by decide), rfl, ?_⟩
    simp [rows, ledRows, busRows, encode, lowBits_append (0#7)]
  | motVer => exact ⟨_, hmem 10 (by decide), rfl, rfl⟩
  | motRstenc => exact ⟨_, hmem 11 (by decide), rfl, rfl⟩
  | motEnc side => 
    refine ⟨_, hmem 12 (by decide), rfl, ?_⟩
    simp [rows, ledRows, busRows, motRows, encode, lowBits_append (0#7)]
  | motMode mode => 
    refine ⟨_, hmem 13 (by decide), rfl, ?_⟩
    simp [rows, ledRows, busRows, motRows, encode]
  | motSpin sel speed => 
    refine ⟨_, hmem 14 (by decide), rfl, ?_⟩
    simp [rows, ledRows, busRows, motRows, encode, lowBits_append (0#6), selectorOfBits_code]
  | motStop sel => 
    refine ⟨_, hmem 15 (by decide), rfl, ?_⟩
    simp [rows, ledRows, busRows, motRows, encode, lowBits_append (0#6), selectorOfBits_code]
  | motSpind sel speed dist => 
    refine ⟨_, hmem 16 (by decide), rfl, ?_⟩
    simp [rows, ledRows, busRows, motRows, encode, lowBits_append (0#6), selectorOfBits_code]

theorem opField_statement (i : Instr) : Laws.OpField.Statement i := by
  cases i with
  | ledCfg => exact Laws.OpField.ledCfg ..
  | ledColor => exact Laws.OpField.ledColor ..
  | ledMode => exact Laws.OpField.ledMode ..
  | ledUpdate => exact Laws.OpField.ledUpdate
  | ledGetc => exact Laws.OpField.ledGetc
  | ledGetn => exact Laws.OpField.ledGetn
  | busCfg => exact Laws.OpField.busCfg ..
  | busWr => exact Laws.OpField.busWr ..
  | busRd => exact Laws.OpField.busRd ..
  | busScan => exact Laws.OpField.busScan ..
  | motVer => exact Laws.OpField.motVer
  | motRstenc => exact Laws.OpField.motRstenc
  | motEnc => exact Laws.OpField.motEnc ..
  | motMode => exact Laws.OpField.motMode ..
  | motSpin => exact Laws.OpField.motSpin ..
  | motStop => exact Laws.OpField.motStop ..
  | motSpind => exact Laws.OpField.motSpind ..

/-- Settles O2: the word of a command lies in its row, and the row reads its operands back. -/
theorem decodeInvertsEncode : Obligations.DecodeInvertsEncode := by
  intro i hwf
  obtain ⟨r, hr, hcode, hop⟩ := exists_row_operands_encode i
  exact decode_encode_of_row (opField_statement i) hr hcode hop hwf

theorem nibble_inj {a b : Byte} (ha : a &&& 0xF0 = 0) (hb : b &&& 0xF0 = 0) :
    a.extractLsb' 0 4 = b.extractLsb' 0 4 ↔ a = b :=
  ⟨fun h => by rw [← nibble_eq ha, h, nibble_eq hb], congrArg _⟩

theorem count_toNat {c : Byte} (h : c &&& 0xF8 = 0) : (c.extractLsb' 0 3).toNat = c.toNat := by
  have hnat := congrArg BitVec.toNat (count_eq h)
  rwa [BitVec.toNat_append, BitVec.toNat_ofNat, Nat.zero_mod, Nat.zero_shiftLeft, Nat.zero_or] at hnat

theorem selectorOfBits_eq_none_iff :
    ∀ a : Byte, a &&& 0xFC = 0 → (selectorOfBits (a.extractLsb' 0 2) = none ↔ a = 3) := by decide

/-- R74: the operand values that five separate checks refuse, by the fields of the word. -/
def BadOperands (w : Word) : Prop :=
  let op := (w.extractLsb' 56 8).toNat
  let a := w.extractLsb' 48 8
  let b := w.extractLsb' 40 8
  let c := w.extractLsb' 32 8
  let d := w.extractLsb' 0 32
  (op = 0x10 ∧ (a = b ∨ a = c ∨ b = c)) ∨ ((op = 0x21 ∨ op = 0x22) ∧ (c.toNat = 0 ∨ 4 < c.toNat)) ∨
    (op = 0x21 ∧ 2 ^ (8 * c.toNat) ≤ d.toNat) ∨ ((op = 0x34 ∨ op = 0x35 ∨ op = 0x36) ∧ a = 3)

/-- What a row makes of a word that passes its mask (R70 to R72, R74): a command whose encoding is the word, well-formed
exactly if no check refuses it; or no command, refused by a check. -/
def ReadsWord (r : Row) (w : Word) : Prop :=
  (∃ i, r.operands w = some i ∧ encode i = w ∧ (i.wellFormed = true ↔ ¬ BadOperands w)) ∨
    (r.operands w = none ∧ BadOperands w)

section Rows

variable {r : Row} {o a b c : Byte} {d : BitVec 32}

theorem readsWord_of_unchecked {i : Instr} (ho : o ∉ ([0x10, 0x21, 0x22, 0x34, 0x35, 0x36] : List Byte))
    (hop : r.operands (assemble o a b c d) = some i) (henc : encode i = assemble o a b c d)
    (hwf : i.wellFormed = true) : ReadsWord r (assemble o a b c d) := by
  refine .inl ⟨i, hop, henc, iff_of_true hwf ?_⟩
  simp only [List.mem_cons, List.not_mem_nil, or_false, not_or, ← BitVec.toNat_inj, BitVec.reduceToNat] at ho
  obtain ⟨h10, h21, h22, h34, h35, h36⟩ := ho
  simp [BadOperands, h10, h21, h22, h34, h35, h36]

theorem readsWord_of_no_field {w : Word} {i : Instr} (ho : o ∉ ([0x10, 0x21, 0x22, 0x34, 0x35, 0x36] : List Byte))
    (hm : w &&& BitVec.allOnes 64 = assemble o 0 0 0 0) (hop : r.operands w = some i)
    (henc : encode i = assemble o 0 0 0 0) (hwf : i.wellFormed = true) : ReadsWord r w := by
  rw [BitVec.and_allOnes] at hm
  subst hm
  exact readsWord_of_unchecked ho hop henc hwf

theorem readsWord_of_selector {f : Selector → Instr} (ho : o ∈ ([0x34, 0x35, 0x36] : List Byte)) (ha : a &&& 0xFC = 0)
    (hop : r.operands (assemble o a b c d) = (selectorOfBits (a.extractLsb' 0 2)).map f)
    (henc : ∀ sel, encode (f sel) = assemble o (0#6 ++ sel.code) b c d) (hwf : ∀ sel, (f sel).wellFormed = true) :
    ReadsWord r (assemble o a b c d) := by
  have hbad : BadOperands (assemble o a b c d) ↔ a = 3 := by
    simp only [List.mem_cons, List.not_mem_nil, or_false] at ho
    rcases ho with rfl | rfl | rfl <;> simp [BadOperands]
  have hnone := selectorOfBits_eq_none_iff a ha
  cases hsel : selectorOfBits (a.extractLsb' 0 2) with
  | none =>
    rw [hsel] at hop
    exact .inr ⟨hop, hbad.2 (hnone.1 hsel)⟩
  | some sel =>
    rw [hsel] at hop
    refine .inl ⟨f sel, hop, ?_, iff_of_true (hwf sel) fun h => ?_⟩
    · rw [henc, code_of_selectorOfBits hsel, selectorBits_eq ha]
    · rw [hnone.2 (hbad.1 h)] at hsel
      cases hsel

end Rows

theorem readsWord_of_masked : ∀ r ∈ rows, ∀ w : Word, w &&& r.mask = r.pattern → ReadsWord r w := by
  intro r hr w hm
  simp only [rows, ledRows, busRows, motRows, List.cons_append, List.nil_append, List.mem_cons, List.not_mem_nil,
    or_false] at hr
  rcases hr with rfl | rfl | rfl | rfl | rfl | rfl | rfl | rfl | rfl | rfl | rfl | rfl | rfl | rfl | rfl | rfl | rfl
  · -- LED.CFG
    obtain ⟨a, b, c, d, rfl, ha, hb, hc, hd⟩ :=
      exists_fields_of_masked (o := 0x10) (ma := 0xF0) (mb := 0xF0) (mc := 0xF0) (md := 0xFF000000) hm
    refine .inl ⟨_, rfl, ?_, ?_⟩
    · simp [encode, nibble_eq ha, nibble_eq hb, nibble_eq hc, pins_eq hd]
    · simp [Instr.wellFormed, idsDistinct, BadOperands, nibble_inj ha hb, nibble_inj ha hc, nibble_inj hb hc, and_assoc]
  · -- LED.COLOR
    obtain ⟨a, b, c, d, rfl, -, hb, hc, hd⟩ :=
      exists_fields_of_masked (o := 0x11) (ma := 0) (mb := 0xFF) (mc := 0xFF) (md := 0xFFFFFFFF) hm
    refine readsWord_of_unchecked (by decide) rfl ?_ rfl
    simp [encode, eq_zero_of_reserved hb, eq_zero_of_reserved hc, eq_zero_of_reserved hd]
  · -- LED.MODE
    obtain ⟨a, b, c, d, rfl, -, hb, hc, hd⟩ :=
      exists_fields_of_masked (o := 0x12) (ma := 0) (mb := 0xFF) (mc := 0xFF) (md := 0xFFFFFFFF) hm
    refine readsWord_of_unchecked (by decide) rfl ?_ rfl
    simp [encode, eq_zero_of_reserved hb, eq_zero_of_reserved hc, eq_zero_of_reserved hd]
  · exact readsWord_of_no_field (o := 0x13) (by decide) hm rfl rfl rfl
  · exact readsWord_of_no_field (o := 0x14) (by decide) hm rfl rfl rfl
  · exact readsWord_of_no_field (o := 0x15) (by decide) hm rfl rfl rfl
  · -- BUS.CFG
    obtain ⟨a, b, c, d, rfl, ha, -, -, -⟩ :=
      exists_fields_of_masked (o := 0x20) (ma := 0xFE) (mb := 0) (mc := 0) (md := 0) hm
    refine readsWord_of_unchecked (by decide) rfl ?_ rfl
    simp [encode, code_busOfBit, bit_eq ha]
  · -- BUS.WR
    obtain ⟨a, b, c, d, rfl, -, -, hc, -⟩ :=
      exists_fields_of_masked (o := 0x21) (ma := 0) (mb := 0) (mc := 0xF8) (md := 0) hm
    refine .inl ⟨_, rfl, ?_, ?_⟩
    · simp [encode, code_busOfBit, busBit_append_address, count_eq hc]
    · simp [Instr.wellFormed, byteCountLegal, valueFits, Config.encodedMaxBytes, BadOperands, count_toNat hc]
      omega
  · -- BUS.RD
    obtain ⟨a, b, c, d, rfl, -, -, hc, hd⟩ :=
      exists_fields_of_masked (o := 0x22) (ma := 0) (mb := 0) (mc := 0xF8) (md := 0xFFFFFFFF) hm
    refine .inl ⟨_, rfl, ?_, ?_⟩
    · simp [encode, code_busOfBit, busBit_append_address, count_eq hc, eq_zero_of_reserved hd]
    · simp [Instr.wellFormed, byteCountLegal, Config.encodedMaxBytes, BadOperands, count_toNat hc]
      omega
  · -- BUS.SCAN
    obtain ⟨a, b, c, d, rfl, ha, hb, hc, hd⟩ :=
      exists_fields_of_masked (o := 0x23) (ma := 0xFE) (mb := 0xFF) (mc := 0xFF) (md := 0xFFFFFFFF) hm
    refine readsWord_of_unchecked (by decide) rfl ?_ rfl
    simp [encode, code_busOfBit, bit_eq ha, eq_zero_of_reserved hb, eq_zero_of_reserved hc, eq_zero_of_reserved hd]
  · exact readsWord_of_no_field (o := 0x30) (by decide) hm rfl rfl rfl
  · exact readsWord_of_no_field (o := 0x31) (by decide) hm rfl rfl rfl
  · -- MOT.ENC
    obtain ⟨a, b, c, d, rfl, ha, hb, hc, hd⟩ :=
      exists_fields_of_masked (o := 0x32) (ma := 0xFE) (mb := 0xFF) (mc := 0xFF) (md := 0xFFFFFFFF) hm
    refine readsWord_of_unchecked (by decide) rfl ?_ rfl
    simp [encode, code_sideOfBit, bit_eq ha, eq_zero_of_reserved hb, eq_zero_of_reserved hc, eq_zero_of_reserved hd]
  · -- MOT.MODE
    obtain ⟨a, b, c, d, rfl, -, hb, hc, hd⟩ :=
      exists_fields_of_masked (o := 0x33) (ma := 0) (mb := 0xFF) (mc := 0xFF) (md := 0xFFFFFFFF) hm
    refine readsWord_of_unchecked (by decide) rfl ?_ rfl
    simp [encode, eq_zero_of_reserved hb, eq_zero_of_reserved hc, eq_zero_of_reserved hd]
  · -- MOT.SPIN
    obtain ⟨a, b, c, d, rfl, ha, -, hc, hd⟩ :=
      exists_fields_of_masked (o := 0x34) (ma := 0xFC) (mb := 0) (mc := 0xFF) (md := 0xFFFFFFFF) hm
    refine readsWord_of_selector (f := fun sel => .motSpin sel b) (by decide) ha (by simp) (fun sel => ?_) fun _ => rfl
    simp [encode, eq_zero_of_reserved hc, eq_zero_of_reserved hd]
  · -- MOT.STOP
    obtain ⟨a, b, c, d, rfl, ha, hb, hc, hd⟩ :=
      exists_fields_of_masked (o := 0x35) (ma := 0xFC) (mb := 0xFF) (mc := 0xFF) (md := 0xFFFFFFFF) hm
    refine readsWord_of_selector (f := Instr.motStop) (by decide) ha (by simp) (fun sel => ?_) fun _ => rfl
    simp [encode, eq_zero_of_reserved hb, eq_zero_of_reserved hc, eq_zero_of_reserved hd]
  · -- MOT.SPIND
    obtain ⟨a, b, c, d, rfl, ha, -, hc, -⟩ :=
      exists_fields_of_masked (o := 0x36) (ma := 0xFC) (mb := 0) (mc := 0xFF) (md := 0) hm
    refine readsWord_of_selector (f := fun sel => .motSpind sel b d) (by decide) ha (by simp) (fun sel => ?_) fun _ => rfl
    simp [encode, eq_zero_of_reserved hc]

/-- R69: the decoder reads a word by a row whose opcode and mask it passes. -/
theorem row_of_decode {w : Word} {i : Instr} (h : decode w = .ok i) :
    ∃ r ∈ rows, w &&& r.mask = r.pattern ∧ r.operands w = some i ∧ i.wellFormed = true := by
  unfold decode at h
  split at h
  case h_2 => cases h
  case h_1 r hfind =>
    refine ⟨r, List.mem_of_find?_eq_some hfind, ?_⟩
    unfold Row.read at h
    split at h
    case isFalse => cases h
    case isTrue hm =>
      split at h
      case h_2 => cases h
      case h_1 j hop =>
        split at h
        case isFalse => cases h
        case isTrue hwf =>
          cases h
          exact ⟨hm, hop, hwf⟩

/-- Settles O3: the word passes the mask of its row, and a row's command encodes to the word it was read from. -/
theorem encodeInvertsDecode : Obligations.EncodeInvertsDecode := by
  intro w i h
  obtain ⟨r, hr, hm, hop, hwf⟩ := row_of_decode h
  rcases readsWord_of_masked r hr w hm with ⟨j, hj, henc, -⟩ | ⟨hnone, -⟩
  · rw [hop] at hj
    cases hj
    exact ⟨henc, hwf⟩
  · rw [hop] at hnone
    cases hnone

/-- Settles O6: past the mask a row refuses exactly the operands the five checks refuse. -/
theorem rangeChecksDecideLegality : Obligations.RangeChecksDecideLegality := by
  intro w mask pattern hmem hm
  have htable : (opOf w, pattern, mask) ∈ rows.map fun r => (r.op, r.pattern, r.mask) := hmem
  obtain ⟨r, hr, heq⟩ := List.mem_map.1 htable
  obtain ⟨hop, rfl, rfl⟩ : r.op = opOf w ∧ r.pattern = pattern ∧ r.mask = mask := by simpa using heq
  show (BadOperands w → decode w = .error .reserved) ∧ (¬ BadOperands w → ∃ j, decode w = .ok j)
  rw [decode_of_mem_rows hr hop.symm]
  rcases readsWord_of_masked r hr w hm with ⟨i, hi, -, hwf⟩ | ⟨hnone, hbad⟩
  · refine ⟨fun hbad => ?_, fun hgood => ⟨i, Row.read_of_operands hm hi (hwf.2 hgood)⟩⟩
    have hill : ¬ i.wellFormed = true := fun h => hwf.1 h hbad
    rw [Row.read, if_pos hm, hi]
    exact if_neg hill
  · exact ⟨fun _ => Row.read_of_no_operands hnone, fun hgood => absurd hbad hgood⟩

/-- Settles O1: each worked word is closed data for the decoder and the encoder. -/
theorem workedWordsDecode : Obligations.WorkedWordsDecode := by
  unfold Obligations.WorkedWordsDecode
  decide

end Sys2Proof
end

/-! ## What a command that goes on leaves, for all seventeen at once -/
section
namespace Sys2Proof.Machine

/-- The bus a command reads one register of and puts the value in `res` (R101, R112, R114). -/
def ReadsOn (cfg : Config) (i : Instr) (b : BusId) : Prop :=
  (∃ a r n, i = .busRd b a r n) ∨ (b = cfg.motorBus ∧ (i = .motVer ∨ ∃ side, i = .motEnc side))

/-- The bus a command may hang on (R54, R118). -/
def HangsOn (cfg : Config) (i : Instr) (b : BusId) : Prop :=
  ReadsOn cfg i b ∨ (b = cfg.motorBus ∧ ∃ sel speed dist, i = .motSpind sel speed dist)

/-- The six commands of the StatusIndicator (R80 to R90). -/
def isLed : Instr → Bool
  | .ledCfg .. | .ledColor _ | .ledMode _ | .ledUpdate | .ledGetc | .ledGetn => true
  | .busCfg .. | .busWr .. | .busRd .. | .busScan _ => false
  | .motVer | .motRstenc | .motEnc _ | .motMode _ | .motSpin .. | .motStop _ | .motSpind .. => false

/-- The PWM registers, stored colour and mode a command of the LED leaves: the duties are as they were or show one triple, and
the colour is as it was or within the table, each written by the commands R24 and R25 name. -/
structure Redraw (s : State) (i : Instr) (p : Vector PwmChannel 16) (c : ColorIx) (m : LedMode) : Prop where
  duties : p = s.pwm ∨ ∃ t, p = (s.show t).pwm
  color : c = s.siColor ∨ ∃ x, c = clamp s.cfg x
  modeWriter : m ≠ s.siMode → ∃ x, i = .ledMode x
  colorWriter : c ≠ s.siColor →
    (∃ x, i = .ledColor x) ∨ i = .ledMode s.cfg.ledOn ∨ i = .ledMode s.cfg.ledBlink ∨
      (i = .ledUpdate ∧ (s.siMode = .blink ∨ s.siMode = .cycle))

/-- The state `t` a command that goes on from `s` leaves: its step is done, or it hangs on a bus that stays busy. -/
inductive Effect (s : State) : Instr → State → Prop
  | ledCfg {idR idG idB : ChannelId} {pinR pinG pinB : Byte} (distinct : idR ≠ idG ∧ idR ≠ idB ∧ idG ≠ idB)
      (exist : idR.toNat < s.cfg.pwmChannels ∧ idG.toNat < s.cfg.pwmChannels ∧ idB.toNat < s.cfg.pwmChannels)
      (fresh : s.siConfigured = false) :
      Effect s (.ledCfg idR idG idB pinR pinG pinB) { s with
        cp := s.cp + 1
        pwm := (((s.setPin idR pinR).setPin idG pinG).setPin idB pinB).pwm
        chanR := some ⟨idR, pinR⟩
        chanG := some ⟨idG, pinG⟩
        chanB := some ⟨idB, pinB⟩
        siConfigured := true
        tmrArmed := true }
  | redraw {i : Instr} {p : Vector PwmChannel 16} {c : ColorIx} {m : LedMode} (h : Redraw s i p c m)
      (hi : (∃ x, i = .ledColor x) ∨ ∃ x, i = .ledMode x) :
      Effect s i { s with cp := s.cp + 1, pwm := p, siColor := c, siMode := m }
  | idle (h : s.siTicks = 0) : Effect s .ledUpdate s.advance
  | drain {p : Vector PwmChannel 16} {c : ColorIx} {m : LedMode} {n : Nat} (h : Redraw s .ledUpdate p c m)
      (owed : 0 < s.siTicks) (left : s.irqPending = false → n = s.siTicks - 1) :
      Effect s .ledUpdate { s with
        cp := s.cp + 1, pwm := p, siColor := c, siMode := m, siTicks := n, csHeld := false, irqPending := false }
  | result {i : Instr} {v : Word} (hi : i = .ledGetc ∨ i = .ledGetn) : Effect s i (s.setRes v).advance
  | busCfg {b : BusId} {sda scl : Byte} {clk : BitVec 32} (fresh : (s.bus b).configured = false) :
      Effect s (.busCfg b sda scl clk)
        (s.setBus b ⟨true, some sda, some scl, some clk, (s.bus b).dev, (s.bus b).busy⟩).advance
  | written {i : Instr} {u : State} (hu : OnlyLogged s u) (hi : isLed i = false) : Effect s i u.advance
  | read {i : Instr} {b : BusId} {u : State} {v : Word} (hi : ReadsOn s.cfg i b) (hu : OnlyLogged s u) :
      Effect s i (u.setRes v).advance
  | scanned {b : BusId} {u : State} {found : List DevRecord} (configured : (s.bus b).configured = true)
      (hu : OnlyLogged s u) (probed : (found.map DevRecord.addr).Sublist (scanAddrs s.cfg)) :
      Effect s (.busScan b) ((u.setBus b { u.bus b with dev := found }).setRes (zext64 found.length)).advance
  | hung {i : Instr} {b : BusId} {u : State} (hi : HangsOn s.cfg i b) (configured : (s.bus b).configured = true)
      (hu : OnlyLogged s u) : Effect s i { u.markBusy b with phase := .hung }
  | polling {sel : Selector} {speed : Byte} {dist : BitVec 32} {u : State}
      (configured : (s.bus s.cfg.motorBus).configured = true) (hu : OnlyLogged s u) :
      Effect s (.motSpind sel speed dist) { u.markBusy s.cfg.motorBus with phase := .polling sel dist }

section EffectOfExec

variable {s t : State}

/-- A command that shows nothing and keeps the stored colour. -/
theorem Redraw.keep {i : Instr} {m : LedMode} (hm : m ≠ s.siMode → ∃ x, i = .ledMode x) :
    Redraw s i s.pwm s.siColor m :=
  ⟨.inl rfl, .inl rfl, hm, fun h => absurd rfl h⟩

/-- A command that applies a colour (R82). -/
theorem Redraw.apply {i : Instr} {m : LedMode} (x : ColorIx) (hm : m ≠ s.siMode → ∃ x, i = .ledMode x)
    (hc : (∃ x, i = .ledColor x) ∨ i = .ledMode s.cfg.ledOn ∨ i = .ledMode s.cfg.ledBlink ∨
      (i = .ledUpdate ∧ (s.siMode = .blink ∨ s.siMode = .cycle))) :
    Redraw s i (s.apply x).pwm (s.apply x).siColor m :=
  ⟨.inr ⟨_, rfl⟩, .inr ⟨x, rfl⟩, hm, fun _ => hc⟩

theorem effect_ledMode {m : Byte} (h : exec (.ledMode m) s = .next t) : Effect s (.ledMode m) t := by
  have happly : ∀ (c : ColorIx) (k : LedMode), ({ s.apply c with siMode := k } : State).advance =
      { s with cp := s.cp + 1, pwm := (s.apply c).pwm, siColor := (s.apply c).siColor, siMode := k } := by
    intro c k
    rw [State.apply_frame]
    rfl
  have hmode : ∀ k : LedMode, k ≠ s.siMode → ∃ x, Instr.ledMode m = .ledMode x := fun _ _ => ⟨m, rfl⟩
  obtain ⟨-, ⟨rfl, rfl⟩ | ⟨rfl, rfl⟩ | ⟨rfl, rfl⟩ | ⟨-, -, -, rfl⟩⟩ := execLedMode_next s m t h
  · rw [happly]
    exact .redraw (.apply _ (hmode _) (.inr (.inl rfl))) (.inr ⟨_, rfl⟩)
  · rw [happly]
    exact .redraw (.apply _ (hmode _) (.inr (.inr (.inl rfl)))) (.inr ⟨_, rfl⟩)
  · exact .redraw (.keep (hmode _)) (.inr ⟨_, rfl⟩)
  · split
    · rw [State.show_frame]
      exact .redraw ⟨.inr ⟨_, rfl⟩, .inl rfl, hmode _, fun h => absurd rfl h⟩ (.inr ⟨_, rfl⟩)
    · exact .redraw (.keep (hmode _)) (.inr ⟨_, rfl⟩)

/-- R85: the dispatch of a productive update redraws the LED. -/
theorem updateLed_frame : ∃ p c, Redraw s .ledUpdate p c s.siMode ∧ updateLed s = { s with pwm := p, siColor := c } := by
  unfold updateLed
  split
  case h_1 hmode =>
    refine ⟨_, _, .apply (blinkNext s.cfg s.siColor) (fun h => absurd rfl h) (.inr (.inr (.inr ⟨rfl, .inl hmode⟩))), ?_⟩
    exact State.apply_frame s _
  case h_2 hmode =>
    refine ⟨_, _, .apply (cycleNext s.cfg s.siColor) (fun h => absurd rfl h) (.inr (.inr (.inr ⟨rfl, .inr hmode⟩))), ?_⟩
    exact State.apply_frame s _
  case h_3 => exact ⟨_, _, .keep (fun h => absurd rfl h), rfl⟩
  case h_4 => exact ⟨_, _, .keep (fun h => absurd rfl h), rfl⟩

/-- R61: the drain subtracts the tick, and serves an expiry that stood latched. -/
theorem drainOne_next_cases {u : State} (h : drainOne u = .next t) :
    ∃ n, (u.irqPending = false → n = u.siTicks - 1) ∧
      t = { u with siTicks := n, csHeld := false, irqPending := false } := by
  cases hirq : u.irqPending with
  | false =>
    rw [drainOne_next u hirq] at h
    cases h
    exact ⟨_, fun _ => rfl, by rw [← hirq]⟩
  | true =>
    simp only [drainOne, leaveCs, State.enterCs, hirq, if_true] at h
    unfold tick at h
    split at h
    · cases h
    · cases h
      exact ⟨u.siTicks - 1 + 1, nofun, rfl⟩

theorem effect_ledUpdate (h : exec .ledUpdate s = .next t) : Effect s .ledUpdate t := by
  simp only [exec, execLedUpdate] at h
  split at h
  case isFalse hnone =>
    cases h
    exact .idle (by omega)
  case isTrue hpos =>
    cases hd : drainOne (updateLed s) with
    | fault e => simp [hd, Result.andThen] at h
    | refused e => simp [hd, Result.andThen] at h
    | next u =>
      rw [hd] at h
      cases h
      obtain ⟨n, hn, rfl⟩ := drainOne_next_cases hd
      obtain ⟨p, c, hred, heq⟩ := updateLed_frame (s := s)
      rw [heq] at hn ⊢
      exact .drain hred hpos hn

theorem effect_of_read {i : Instr} {b : BusId} (hi : ReadsOn s.cfg i b) (h : ReadOutcome b s t) : Effect s i t := by
  obtain ⟨hc, u, hu, ⟨v, rfl⟩ | rfl⟩ := h
  · exact .read hi hu
  · exact .hung (.inl hi) hc hu

theorem effect_of_write {i : Instr} (hi : isLed i = false) (h : WriteOutcome s t) : Effect s i t := by
  obtain ⟨-, u, hu, rfl⟩ := h
  exact .written hu hi

/-- Everything a command that goes on can leave. -/
theorem exec_effect {i : Instr} (h : exec i s = .next t) : Effect s i t := by
  cases i with
  | ledCfg idR idG idB pinR pinG pinB =>
    obtain ⟨h1, h2, h3, hex, hfresh, rfl⟩ := execLedCfg_next s _ _ _ _ _ _ t h
    exact .ledCfg ⟨h1, h2, h3⟩ hex hfresh
  | ledColor c =>
    obtain ⟨-, rfl⟩ := execLedColor_next s c t h
    rw [State.advance_apply_frame]
    exact .redraw (.apply c (fun h => absurd rfl h) (.inl ⟨c, rfl⟩)) (.inl ⟨c, rfl⟩)
  | ledMode m => exact effect_ledMode h
  | ledUpdate => exact effect_ledUpdate h
  | ledGetc =>
    obtain ⟨-, h⟩ := whenLedConfigured_next s _ t h
    cases h
    exact .result (.inl rfl)
  | ledGetn =>
    obtain ⟨-, h⟩ := whenLedConfigured_next s _ t h
    cases h
    exact .result (.inr rfl)
  | busCfg b sda scl clk =>
    obtain ⟨hfresh, rfl⟩ := execBusCfg_next s b sda scl clk t h
    exact .busCfg hfresh
  | busWr b a r n v =>
    obtain ⟨-, u, hu, rfl⟩ := execBusWr_next s b a r n v t h
    exact .written hu rfl
  | busRd b a r n => exact effect_of_read (.inl ⟨a, r, n, rfl⟩) (execBusRd_next s b a r n t h)
  | busScan b =>
    obtain ⟨hc, u, l, hu, hsub, rfl⟩ := execBusScan_next s b t h
    exact .scanned hc hu hsub
  | motVer => exact effect_of_read (.inr ⟨rfl, .inl rfl⟩) (execMotVer_next s t h)
  | motRstenc => exact effect_of_write rfl (execMotRstenc_next s t h)
  | motEnc side => exact effect_of_read (.inr ⟨rfl, .inr ⟨side, rfl⟩⟩) (execMotEnc_next s side t h)
  | motMode m => exact effect_of_write rfl (execMotMode_next s m t h)
  | motSpin sel speed => exact effect_of_write rfl (execMotSpin_next s sel speed t h)
  | motStop sel => exact effect_of_write rfl (execMotStop_next s sel t h)
  | motSpind sel speed dist =>
    obtain ⟨hc, u, hu, rfl | rfl | rfl⟩ := execMotSpind_next s sel speed dist t h
    · exact .written hu rfl
    · exact .polling hc hu
    · exact .hung (.inr ⟨rfl, sel, speed, dist, rfl⟩) hc hu

end EffectOfExec

end Sys2Proof.Machine
end

/-! ## The invariant (R44), update by update -/
section
namespace Sys2Proof.Machine

section InvariantUpdates

variable {s u : State}

theorem Invariant.popEvent (h : Invariant s) : Invariant s.popEvent :=
  ⟨h.1, h.2, h.3, h.4, h.5, h.6, h.7, h.8, h.9, h.10, h.11, h.12, h.13, h.14, h.15⟩

theorem Invariant.advance (h : Invariant s) : Invariant s.advance :=
  ⟨h.1, h.2, h.3, h.4, h.5, h.6, h.7, h.8, h.9, h.10, h.11, h.12, h.13, h.14, h.15⟩

theorem Invariant.setRes (h : Invariant s) (v : Word) : Invariant (s.setRes v) :=
  ⟨h.1, h.2, h.3, h.4, h.5, h.6, h.7, h.8, h.9, h.10, h.11, h.12, h.13, h.14, h.15⟩

theorem Invariant.logged (h : Invariant s) (hu : OnlyLogged s u) : Invariant u := by
  obtain ⟨e, l, hcanonical, rfl⟩ := hu
  exact ⟨h.1, h.2, h.3, h.4, h.5, h.6, h.7, h.8, h.9, h.10, h.11, h.12, h.13, h.14, hcanonical h.15⟩

/-- R14, R88: a count within the limit, and none before `LED.CFG`. -/
theorem Invariant.setTicks (h : Invariant s) {n : Nat} (hmax : n ≤ s.cfg.tickMax)
    (hconf : s.siConfigured = false → n = 0) : Invariant { s with siTicks := n } :=
  ⟨h.1, hmax, h.3, h.4, hconf, h.6, h.7, h.8, h.9, h.10, h.11, h.12, h.13, h.14, h.15⟩

theorem Invariant.clearHidden (h : Invariant s) : Invariant { s with csHeld := false, irqPending := false } :=
  ⟨h.1, h.2, h.3, h.4, h.5, h.6, h.7, h.8, h.9, h.10, ⟨rfl, rfl⟩, h.12, h.13, h.14, h.15⟩

/-- R34, R35, R97, R102: new registers of a bus, with an ordered table, on a bus no less configured and as busy. -/
theorem Invariant.setBus (h : Invariant s) {b : BusId} {r : BusRegs} (hdev : DevTableOk s.cfg r.dev)
    (hconf : r.configured = true) (hbusy : r.busy = (s.bus b).busy) : Invariant (s.setBus b r) := by
  have hfresh : BusFresh r := fun hf => absurd hconf (ne_true_of_eq_false hf)
  have hpolling : ∀ sel dist, s.phase = .polling sel dist →
      ((s.setBus b r).bus s.cfg.motorBus).configured = true ∧ ((s.setBus b r).bus s.cfg.motorBus).busy = true := by
    intro sel dist hp
    obtain ⟨h1, h2⟩ := h.pollingBus sel dist hp
    by_cases hb : s.cfg.motorBus = b
    · subst hb
      rw [State.bus_setBus_same]
      exact ⟨hconf, hbusy.trans h2⟩
    · rw [State.bus_setBus_other s b _ r hb]
      exact ⟨h1, h2⟩
  cases b with
  | bus0 =>
    have hbusy0 : r.busy = s.rb0.busy := hbusy
    exact ⟨h.1, h.2, h.3, h.4, h.5, h.6, hdev, h.8, hfresh, h.10, h.11, hbusy0 ▸ h.12, hbusy0 ▸ h.13, hpolling, h.15⟩
  | bus1 =>
    have hbusy1 : r.busy = s.rb1.busy := hbusy
    exact ⟨h.1, h.2, h.3, h.4, h.5, h.6, h.7, hdev, h.9, hfresh, h.11, hbusy1 ▸ h.12, hbusy1 ▸ h.13, hpolling, h.15⟩

/-- R36, R155: a hang leaves its bus busy, and no other bus is. -/
theorem Invariant.hang (h : Invariant s) {b : BusId} {p : HostPhase} (hconf : (s.bus b).configured = true)
    (hother : ∀ b', b' ≠ b → (s.bus b').busy = false) (hp : p ≠ .ready)
    (hmotor : ∀ sel dist, p = .polling sel dist → b = s.cfg.motorBus) :
    Invariant { s.markBusy b with phase := p } := by
  have hpolling : ∀ sel dist, p = .polling sel dist →
      ((s.markBusy b).bus s.cfg.motorBus).configured = true ∧ ((s.markBusy b).bus s.cfg.motorBus).busy = true := by
    intro sel dist he
    rw [← hmotor sel dist he, State.bus_markBusy_same]
    exact ⟨hconf, rfl⟩
  cases b with
  | bus0 =>
    have hb1 : s.rb1.busy = false := hother .bus1 (by simp)
    have hfresh : BusFresh { s.rb0 with busy := true } := fun hf => absurd hconf (ne_true_of_eq_false hf)
    exact ⟨h.1, h.2, h.3, h.4, h.5, h.6, h.7, h.8, hfresh, h.10, h.11, iff_of_true (.inl rfl) hp,
      fun hb => absurd hb.2 (ne_true_of_eq_false hb1), hpolling, h.15⟩
  | bus1 =>
    have hb0 : s.rb0.busy = false := hother .bus0 (by simp)
    have hfresh : BusFresh { s.rb1 with busy := true } := fun hf => absurd hconf (ne_true_of_eq_false hf)
    exact ⟨h.1, h.2, h.3, h.4, h.5, h.6, h.7, h.8, h.9, hfresh, h.11, iff_of_true (.inr rfl) hp,
      fun hb => absurd hb.1 (ne_true_of_eq_false hb0), hpolling, h.15⟩

/-- R36: while no command hangs, no bus is busy. -/
theorem Invariant.busy_of_ready (h : Invariant s) (hp : s.phase = .ready) (b : BusId) : (s.bus b).busy = false := by
  have hno : ¬ (s.rb0.busy = true ∨ s.rb1.busy = true) := fun hb => h.busyIffHangs.1 hb hp
  cases b
  · exact eq_false_of_ne_true fun hb => hno (.inl hb)
  · exact eq_false_of_ne_true fun hb => hno (.inr hb)

/-- R155: beside a busy bus the other is not. -/
theorem Invariant.busy_other (h : Invariant s) {b b' : BusId} (hb : (s.bus b).busy = true) (hne : b' ≠ b) :
    (s.bus b').busy = false := by
  refine eq_false_of_ne_true fun hb' => h.oneBusy ?_
  cases b <;> cases b'
  · exact absurd rfl hne
  · exact ⟨hb, hb'⟩
  · exact ⟨hb', hb⟩
  · exact absurd rfl hne

/-- Before `LED.CFG` no duty register belongs to the LED. -/
theorem State.show_of_no_channels (hr : s.chanR = none) (hg : s.chanG = none) (hb : s.chanB = none) (d : Duty) :
    s.show d = s := by
  rw [State.show, hr, hg, hb]
  rfl

theorem LedWired.redraw (h : LedWired s) {p : Vector PwmChannel 16} (hp : p = s.pwm ∨ ∃ d, p = (s.show d).pwm) :
    LedWired { s with pwm := p } := by
  obtain rfl | ⟨d, rfl⟩ := hp
  · exact h
  rw [← State.show_frame]
  rcases h with ⟨hconf, hr, hg, hb, hpwm⟩ | ⟨r, g, b, hready, hxr, hxg, hxb, hpr, hpg, hpb, -, hother⟩
  · rw [State.show_of_no_channels hr hg hb]
    exact .inl ⟨hconf, hr, hg, hb, hpwm⟩
  · obtain ⟨hshown, honly⟩ := s.shown_show d r g b hready
    obtain ⟨hconf, hr, hg, hb, hdistinct⟩ := hready
    have hready' : LedReady (s.show d) r g b := by
      rw [State.show_frame]
      exact ⟨hconf, hr, hg, hb, hdistinct⟩
    have hcfg : (s.show d).cfg = s.cfg := by rw [State.show_frame]
    refine .inr ⟨r, g, b, hready', hcfg ▸ hxr, hcfg ▸ hxg, hcfg ▸ hxb, ?_, ?_, ?_, .inr ⟨d, hshown⟩, ?_⟩
    · exact (honly r.id).1.trans hpr
    · exact (honly g.id).1.trans hpg
    · exact (honly b.id).1.trans hpb
    · exact fun ch h1 h2 h3 => ((honly ch).2 h1 h2 h3).trans (hother ch h1 h2 h3)

theorem Invariant.redraw (h : Invariant s) {i : Instr} {p : Vector PwmChannel 16} {c : ColorIx} {m : LedMode}
    (hred : Redraw s i p c m) : Invariant { s with pwm := p, siColor := c, siMode := m } := by
  have hcolor : c.toNat < s.cfg.colorCount := by
    obtain rfl | ⟨x, rfl⟩ := hred.color
    · exact h.colorInTable
    · exact clamp_lt s.cfg x h.validConfig.1.2.2.1
  exact ⟨h.1, h.2, hcolor, h.4, h.5, h.6.redraw hred.duties, h.7, h.8, h.9, h.10, h.11, h.12, h.13, h.14, h.15⟩

/-- R81: the pins of the three channels, and no other register, change. -/
theorem pwmAt_setPins {idR idG idB : ChannelId} (pinR pinG pinB : Byte) (hRG : idR ≠ idG) (hRB : idR ≠ idB)
    (hGB : idG ≠ idB) :
    (let t := ((s.setPin idR pinR).setPin idG pinG).setPin idB pinB
     t.pwmAt idR = ⟨some pinR, (s.pwmAt idR).duty⟩ ∧ t.pwmAt idG = ⟨some pinG, (s.pwmAt idG).duty⟩ ∧
     t.pwmAt idB = ⟨some pinB, (s.pwmAt idB).duty⟩ ∧
     ∀ ch : ChannelId, ch ≠ idR → ch ≠ idG → ch ≠ idB → t.pwmAt ch = s.pwmAt ch) := by
  simp only [State.pwmAt_setPin]
  refine ⟨?_, ?_, ?_, fun ch h1 h2 h3 => ?_⟩
  · simp [hRG, hRB]
  · simp [hGB, hRG.symm]
  · simp [hGB.symm, hRB.symm]
  · simp [h1, h2, h3]

theorem Invariant.ledCfg (h : Invariant s) {idR idG idB : ChannelId} (pinR pinG pinB : Byte)
    (hdistinct : idR ≠ idG ∧ idR ≠ idB ∧ idG ≠ idB)
    (hexist : idR.toNat < s.cfg.pwmChannels ∧ idG.toNat < s.cfg.pwmChannels ∧ idB.toNat < s.cfg.pwmChannels)
    (hfresh : s.siConfigured = false) :
    Invariant { s with
      pwm := (((s.setPin idR pinR).setPin idG pinG).setPin idB pinB).pwm
      chanR := some ⟨idR, pinR⟩
      chanG := some ⟨idG, pinG⟩
      chanB := some ⟨idB, pinB⟩
      siConfigured := true
      tmrArmed := true } := by
  obtain ⟨hRG, hRB, hGB⟩ := hdistinct
  obtain ⟨hR, hG, hB⟩ := hexist
  have hpwm : ∀ ch : ChannelId, s.pwmAt ch = ⟨none, none⟩ := by
    rcases h.ledWired with ⟨-, -, -, -, hpwm⟩ | ⟨r, g, b, ⟨hconf, -⟩, -⟩
    · exact hpwm
    · rw [hfresh] at hconf
      cases hconf
  obtain ⟨hpR, hpG, hpB, hother⟩ := pwmAt_setPins (s := s) pinR pinG pinB hRG hRB hGB
  have hwired : LedWired { s with
      pwm := (((s.setPin idR pinR).setPin idG pinG).setPin idB pinB).pwm
      chanR := some ⟨idR, pinR⟩
      chanG := some ⟨idG, pinG⟩
      chanB := some ⟨idB, pinB⟩
      siConfigured := true
      tmrArmed := true } := by
    refine .inr ⟨⟨idR, pinR⟩, ⟨idG, pinG⟩, ⟨idB, pinB⟩, ⟨rfl, rfl, rfl, rfl, hRG, hRB, hGB⟩, decide_eq_true hR,
      decide_eq_true hG, decide_eq_true hB, congrArg PwmChannel.pin hpR, congrArg PwmChannel.pin hpG,
      congrArg PwmChannel.pin hpB, .inl ?_, fun ch h1 h2 h3 => (hother ch h1 h2 h3).trans (hpwm ch)⟩
    have hduty : ∀ (ch : ChannelId) (x : Option Byte) (q : PwmChannel), q = ⟨x, (s.pwmAt ch).duty⟩ → q.duty = none := by
      rintro ch x _ rfl
      rw [hpwm]
    exact congrArg₂ Prod.mk (hduty _ _ _ hpR) (congrArg₂ Prod.mk (hduty _ _ _ hpG) (hduty _ _ _ hpB))
  exact ⟨h.1, h.2, h.3, rfl, nofun, hwired, h.7, h.8, h.9, h.10, h.11, h.12, h.13, h.14, h.15⟩

/-- R35, R102: the records of a scan are ordered, in range and no more than the range. -/
theorem devTableOk_of_scan {cfg : Config} {found : List DevRecord} (hlast : cfg.scanLast ≤ 127)
    (hsub : (found.map DevRecord.addr).Sublist (scanAddrs cfg)) : DevTableOk cfg found := by
  have hascending := (scanAddrs_ascending cfg hlast).sublist hsub
  rw [List.pairwise_map] at hascending
  refine ⟨hascending, fun x hx => ?_, ?_⟩
  · exact mem_scanAddrs cfg hlast x.addr (hsub.subset (List.mem_map_of_mem hx))
  · simpa using hsub.length_le

theorem Invariant.devTable (h : Invariant s) (b : BusId) : DevTableOk s.cfg (s.bus b).dev := by
  cases b
  · exact h.devTable0
  · exact h.devTable1

/-- Every command that goes on keeps the invariant. -/
theorem Invariant.effect (h : Invariant s) (hready : s.phase = .ready) {i : Instr} {t : State} (he : Effect s i t) :
    Invariant t := by
  have hother : ∀ u, OnlyLogged s u → ∀ b b', b' ≠ b → (u.bus b').busy = false := by
    rintro _ ⟨e, l, -, rfl⟩ b b' -
    exact h.busy_of_ready hready b'
  cases he with
  | ledCfg hdistinct hexist hfresh => exact (h.ledCfg _ _ _ hdistinct hexist hfresh).advance
  | redraw hred => exact (h.redraw hred).advance
  | idle => exact h.advance
  | drain hred howed hleft =>
    have hn := hleft h.hiddenClear.2
    have hmax := h.ticksBounded
    have hnone : s.siConfigured = false → s.siTicks - 1 = 0 := fun hc => by
      rw [h.noTicksBeforeConfig hc]
    subst hn
    exact ((h.redraw hred).setTicks ((Nat.sub_le _ _).trans hmax) hnone).clearHidden.advance
  | result => exact (h.setRes _).advance
  | busCfg => exact (h.setBus (r := ⟨true, _, _, _, _, _⟩) (h.devTable _) rfl rfl).advance
  | written hu => exact (h.logged hu).advance
  | read _ hu => exact ((h.logged hu).setRes _).advance
  | @scanned b u found hconf hu hprobed =>
    have hi := h.logged hu
    obtain ⟨e, l, -, rfl⟩ := hu
    have hlast : s.cfg.scanLast ≤ 127 := h.validConfig.2.2.2.1
    exact ((hi.setBus (b := b) (r := { s.bus b with dev := found }) (devTableOk_of_scan hlast hprobed) hconf rfl).setRes _).advance
  | hung _ hconf hu =>
    have hi := h.logged hu
    have ho := hother _ hu
    obtain ⟨e, l, -, rfl⟩ := hu
    exact hi.hang hconf (ho _) (by simp) (by simp)
  | polling hconf hu =>
    have hi := h.logged hu
    have ho := hother _ hu
    obtain ⟨e, l, -, rfl⟩ := hu
    exact hi.hang hconf (ho _) (by simp) fun _ _ _ => rfl

/-- R118: a further poll of a hanging `MOT.SPIND` keeps the invariant. -/
theorem Invariant.pollAgain (h : Invariant s) {sel : Selector} {dist : BitVec 32} (hp : s.phase = .polling sel dist)
    {t : State} (ht : pollAgain sel dist s = .next t) : Invariant t := by
  obtain ⟨hconf, hbusy⟩ := h.pollingBus sel dist hp
  rcases pollAgain_next s sel dist with ⟨x, -, -, he⟩ | ⟨-, he⟩
  · rw [he] at ht
    cases ht
    exact h.logged (polled_onlyLogged s sel _)
  · rw [he] at ht
    cases ht
    exact (h.logged (polled_onlyLogged s sel none)).hang hconf (fun b' hne => h.busy_other hbusy hne) (by simp) (by simp)

theorem Invariant.hostStep (h : Invariant s) {t : State} (ht : hostStep s = .next t) : Invariant t := by
  rcases hostStep_next s t ht with ⟨-, rfl⟩ | ⟨sel, dist, hp, ht⟩ | ⟨hp, w, i, -, -, ht⟩
  · exact h
  · exact h.pollAgain hp ht
  · exact h.effect hp (exec_effect ht)

/-- R44, R145: the invariant holds where the reset input leaves the block, for valid parameters and canonical devices. -/
theorem invariant_assertReset (hvalid : s.cfg.Valid) (henv : s.env.Canonical) : Invariant s.assertReset where
  validConfig := hvalid
  ticksBounded := Nat.zero_le _
  colorInTable := hvalid.1.2.2.1
  armedIffConfigured := rfl
  noTicksBeforeConfig := fun _ => rfl
  ledWired := .inl ⟨rfl, rfl, rfl, rfl, State.reset_pwmAt⟩
  devTable0 := ⟨List.Pairwise.nil, by simp [State.assertReset, State.reset, BusRegs.reset], Nat.zero_le _⟩
  devTable1 := ⟨List.Pairwise.nil, by simp [State.assertReset, State.reset, BusRegs.reset], Nat.zero_le _⟩
  busFresh0 := fun _ => ⟨rfl, rfl, rfl, rfl, rfl⟩
  busFresh1 := fun _ => ⟨rfl, rfl, rfl, rfl, rfl⟩
  hiddenClear := ⟨rfl, rfl⟩
  busyIffHangs := by simp [State.assertReset, State.reset, BusRegs.reset]
  oneBusy := by simp [State.assertReset, State.reset, BusRegs.reset]
  pollingBus := nofun
  envCanonical := henv

end InvariantUpdates

/-- Settles O12: the reset input, a tick and a turn of the Host each keep the invariant. -/
theorem stepKeepsInvariant : Obligations.StepKeepsInvariant := by
  intro s t h ht
  rcases step_next s h.hiddenClear.1 t ht with ⟨-, rfl⟩ | ⟨htick, hlt, rfl⟩ | ⟨-, ht⟩
  · exact invariant_assertReset h.validConfig h.envCanonical
  · have harmed : s.siConfigured = true := h.armedIffConfigured ▸ ((tickNext_iff s).1 htick).2
    exact (h.setTicks hlt fun hc => absurd harmed (ne_true_of_eq_false hc)).popEvent
  · exact h.popEvent.hostStep ht

/-- Settles O11: the defaults are valid, and reset is where the reset input leads. -/
theorem invariantHoldsAtReset : Obligations.InvariantHoldsAtReset := by
  have henv : State.reset.env.Canonical := nofun
  exact invariant_assertReset (s := State.reset) (by decide) henv

end Sys2Proof.Machine
end

/-! ## Which commands write which register (R21 to R26, R34 to R37) -/
section
namespace Sys2Proof.Machine

section Writers

variable {s t : State} {i : Instr}

theorem ReadsOn.not_isLed {cfg : Config} {b : BusId} (h : ReadsOn cfg i b) : isLed i = false := by
  rcases h with ⟨a, r, n, rfl⟩ | ⟨-, rfl | ⟨side, rfl⟩⟩ <;> rfl

theorem HangsOn.not_isLed {cfg : Config} {b : BusId} (h : HangsOn cfg i b) : isLed i = false := by
  rcases h with h | ⟨-, sel, speed, dist, rfl⟩
  · exact h.not_isLed
  · rfl

theorem ne_ledUpdate_of_not_isLed (h : isLed i = false) : i ≠ .ledUpdate := by
  rintro rfl
  cases h

/-- R10, R20, R64: what no command writes. -/
theorem Effect.fixed (h : Effect s i t) : t.prog = s.prog ∧ t.cfg = s.cfg ∧ t.sched = s.sched := by
  cases h with
  | ledCfg | redraw | idle | drain | result => exact ⟨rfl, rfl, rfl⟩
  | busCfg => exact ⟨by simp, by simp, by simp⟩
  | written hu | read _ hu | scanned _ hu | hung _ _ hu | polling _ hu =>
    obtain ⟨e, l, -, rfl⟩ := hu
    exact ⟨by simp, by simp, by simp⟩

/-- R26, R86. -/
theorem Effect.siTicks (h : Effect s i t) (hirq : s.irqPending = false) :
    t.siTicks = if i = .ledUpdate then s.siTicks - 1 else s.siTicks := by
  cases h with
  | ledCfg => rfl
  | redraw _ hi => rcases hi with ⟨x, rfl⟩ | ⟨x, rfl⟩ <;> rfl
  | idle hnone => rw [if_pos rfl, State.advance_siTicks, hnone]
  | drain _ _ hleft => exact hleft hirq
  | result hi => rcases hi with rfl | rfl <;> rfl
  | busCfg => simp
  | written hu hi =>
    obtain ⟨e, l, -, rfl⟩ := hu
    exact (if_neg (ne_ledUpdate_of_not_isLed hi)).symm
  | read hi hu =>
    obtain ⟨e, l, -, rfl⟩ := hu
    exact (if_neg (ne_ledUpdate_of_not_isLed hi.not_isLed)).symm
  | scanned _ hu =>
    obtain ⟨e, l, -, rfl⟩ := hu
    simp
  | hung hi _ hu =>
    obtain ⟨e, l, -, rfl⟩ := hu
    simp [ne_ledUpdate_of_not_isLed hi.not_isLed]
  | polling _ hu =>
    obtain ⟨e, l, -, rfl⟩ := hu
    simp

/-- R22. -/
theorem Effect.res (h : Effect s i t) (hne : t.res ≠ s.res) :
    t.phase = s.phase ∧
      (i = .ledGetc ∨ i = .ledGetn ∨ (∃ b a r n, i = .busRd b a r n) ∨ (∃ b, i = .busScan b) ∨ i = .motVer ∨
        ∃ side, i = .motEnc side) := by
  cases h with
  | ledCfg | redraw | idle | drain => exact absurd rfl hne
  | result hi => exact ⟨rfl, hi.imp_right .inl⟩
  | busCfg => exact absurd (by simp) hne
  | written hu =>
    obtain ⟨e, l, -, rfl⟩ := hu
    exact absurd rfl hne
  | read hi hu =>
    obtain ⟨e, l, -, rfl⟩ := hu
    refine ⟨rfl, ?_⟩
    rcases hi with hi | ⟨-, rfl | hi⟩
    · exact .inr (.inr (.inl ⟨_, hi⟩))
    · simp
    · exact .inr (.inr (.inr (.inr (.inr hi))))
  | scanned _ hu =>
    obtain ⟨e, l, -, rfl⟩ := hu
    exact ⟨by simp, .inr (.inr (.inr (.inl ⟨_, rfl⟩)))⟩
  | hung _ _ hu | polling _ hu =>
    obtain ⟨e, l, -, rfl⟩ := hu
    exact absurd (by simp) hne

/-- R24, R25. -/
theorem Effect.modeAndColor (h : Effect s i t) :
    (t.siMode ≠ s.siMode → ∃ m, i = .ledMode m) ∧
    (t.siColor ≠ s.siColor →
      (∃ c, i = .ledColor c) ∨ i = .ledMode s.cfg.ledOn ∨ i = .ledMode s.cfg.ledBlink ∨
        (i = .ledUpdate ∧ (s.siMode = .blink ∨ s.siMode = .cycle))) := by
  cases h with
  | redraw hred | drain hred => exact ⟨hred.modeWriter, hred.colorWriter⟩
  | ledCfg | idle | result => exact ⟨fun h => absurd rfl h, fun h => absurd rfl h⟩
  | busCfg => exact ⟨fun h => absurd (by simp) h, fun h => absurd (by simp) h⟩
  | written hu | read _ hu | scanned _ hu | hung _ _ hu | polling _ hu =>
    obtain ⟨e, l, -, rfl⟩ := hu
    exact ⟨fun h => absurd (by simp) h, fun h => absurd (by simp) h⟩

/-- R21, R8: done, or hanging. -/
theorem Effect.cp (h : Effect s i t) : (t.phase = s.phase ∧ t.cp = s.cp + 1) ∨ (t.phase ≠ .ready ∧ t.cp = s.cp) := by
  cases h with
  | ledCfg | redraw | idle | drain | result => exact .inl ⟨rfl, rfl⟩
  | busCfg => exact .inl ⟨by simp, by simp⟩
  | written hu | read _ hu | scanned _ hu =>
    obtain ⟨e, l, -, rfl⟩ := hu
    exact .inl ⟨by simp, by simp⟩
  | hung _ _ hu | polling _ hu =>
    obtain ⟨e, l, -, rfl⟩ := hu
    exact .inr ⟨by simp, by simp⟩

/-- R37. -/
theorem Effect.busLog (h : Effect s i t) : ∃ l, t.busLog = s.busLog ++ l := by
  cases h with
  | ledCfg | redraw | idle | drain | result => exact ⟨[], (List.append_nil _).symm⟩
  | busCfg => exact ⟨[], by simp⟩
  | written hu | read _ hu | scanned _ hu | hung _ _ hu | polling _ hu =>
    obtain ⟨e, l, -, rfl⟩ := hu
    exact ⟨l, by simp⟩

/-- R23, R29, R32: once configured, the LED stays so, on the same channels. -/
theorem Effect.ledConfigured (h : Effect s i t) (hc : s.siConfigured = true) :
    t.siConfigured = true ∧ t.tmrArmed = s.tmrArmed ∧ t.chanR = s.chanR ∧ t.chanG = s.chanG ∧ t.chanB = s.chanB := by
  cases h with
  | ledCfg _ _ hfresh => exact absurd hc (ne_true_of_eq_false hfresh)
  | redraw | idle | drain | result => exact ⟨hc, rfl, rfl, rfl, rfl⟩
  | busCfg => exact ⟨by simpa using hc, by simp, by simp, by simp, by simp⟩
  | written hu | read _ hu | scanned _ hu | hung _ _ hu | polling _ hu =>
    obtain ⟨e, l, -, rfl⟩ := hu
    exact ⟨by simpa using hc, by simp, by simp, by simp, by simp⟩

/-- R80, R93: a command of the StatusIndicator leaves the buses, the log, the environment and the Host's status. -/
theorem Effect.led (h : Effect s i t) (hled : isLed i = true) :
    t.rb0 = s.rb0 ∧ t.rb1 = s.rb1 ∧ t.busLog = s.busLog ∧ t.env = s.env ∧ t.phase = s.phase ∧ t.cp = s.cp + 1 := by
  cases h with
  | ledCfg | redraw | idle | drain | result => exact ⟨rfl, rfl, rfl, rfl, rfl, rfl⟩
  | busCfg | scanned | polling => cases hled
  | written _ hi => rw [hi] at hled; cases hled
  | read hi | hung hi => rw [hi.not_isLed] at hled; cases hled

/-- R34 to R36: what a command leaves of a bus: all of it, or its own `BUS.CFG`, its own `BUS.SCAN`, or a hang on it. -/
def BusEffect (s : State) (i : Instr) (b : BusId) (r : BusRegs) : Prop :=
  r = s.bus b ∨
  (∃ sda scl clk, i = .busCfg b sda scl clk ∧ (s.bus b).configured = false ∧
    r = ⟨true, some sda, some scl, some clk, (s.bus b).dev, (s.bus b).busy⟩) ∨
  (i = .busScan b ∧ ∃ d, r = { s.bus b with dev := d }) ∨
  (HangsOn s.cfg i b ∧ r = { s.bus b with busy := true })

theorem State.bus_congr {u v : State} (h0 : u.rb0 = v.rb0) (h1 : u.rb1 = v.rb1) (b : BusId) : u.bus b = v.bus b := by
  cases b
  · exact h0
  · exact h1

/-- Writing one bus leaves the other's registers. -/
theorem busEffect_of_setBus {u : State} {b' : BusId} {r : BusRegs} (hu : ∀ b, u.bus b = s.bus b)
    (h : BusEffect s i b' r) (b : BusId) : BusEffect s i b ((u.setBus b' r).bus b) := by
  by_cases hb : b = b'
  · subst hb
    rwa [State.bus_setBus_same]
  · rw [State.bus_setBus_other u b' b r hb]
    exact .inl (hu b)

theorem busEffect_of_markBusy {u : State} {b' : BusId} (hu : ∀ b, u.bus b = s.bus b) (h : HangsOn s.cfg i b')
    (b : BusId) : BusEffect s i b ((u.markBusy b').bus b) :=
  busEffect_of_setBus hu (.inr (.inr (.inr ⟨h, by rw [hu]⟩))) b

theorem OnlyLogged.bus {u : State} (hu : OnlyLogged s u) (b : BusId) : u.bus b = s.bus b := by
  obtain ⟨e, l, -, rfl⟩ := hu
  exact State.bus_congr rfl rfl b

theorem Effect.bus (h : Effect s i t) (b : BusId) : BusEffect s i b (t.bus b) := by
  cases h with
  | ledCfg | redraw | idle | drain | result => exact .inl (State.bus_congr rfl rfl b)
  | busCfg hfresh =>
    exact busEffect_of_setBus (fun _ => rfl) (.inr (.inl ⟨_, _, _, rfl, hfresh, rfl⟩)) b
  | written hu | read _ hu => exact .inl (hu.bus b)
  | scanned _ hu => exact busEffect_of_setBus hu.bus (.inr (.inr (.inl ⟨rfl, _, by rw [hu.bus]⟩))) b
  | hung hi _ hu => exact busEffect_of_markBusy hu.bus hi b
  | polling _ hu => exact busEffect_of_markBusy hu.bus (.inr ⟨rfl, _, _, _, rfl⟩) b

end Writers

/-- Settles O31. -/
theorem onlyUpdateLowersTheCounter : Obligations.OnlyUpdateLowersTheCounter :=
  fun _ _ _ hirq h => (exec_effect h).siTicks hirq

/-- Settles O32. -/
theorem resultRegisterWriters : Obligations.ResultRegisterWriters := by
  intro i s t _ hready h hne
  obtain ⟨hphase, hwriter⟩ := (exec_effect h).res hne
  exact ⟨hphase.trans hready, hwriter⟩

/-- Settles O33. -/
theorem modeAndColorWriters : Obligations.ModeAndColorWriters :=
  fun _ _ _ _ h => (exec_effect h).modeAndColor

/-- Settles O38. -/
theorem commandIndexAdvancesOnDone : Obligations.CommandIndexAdvancesOnDone := by
  intro i s t _ hready h
  have hcp := (exec_effect h).cp
  rwa [hready] at hcp

/-- Settles O34: each of the four things a command can leave of a bus, against each register. -/
theorem busRegisterWriters : Obligations.BusRegisterWriters := by
  intro i s t b _ h
  rcases (exec_effect h).bus b with heq | ⟨sda, scl, clk, hi, -, heq⟩ | ⟨hi, d, heq⟩ | ⟨hi, heq⟩
  · rw [heq]
    exact ⟨fun h => absurd rfl h, fun h => absurd rfl h, fun h => absurd rfl h⟩
  · rw [heq]
    exact ⟨fun _ => ⟨sda, scl, clk, hi⟩, fun h => absurd rfl h, fun h => absurd rfl h⟩
  · rw [heq]
    exact ⟨fun h => absurd rfl h, fun _ => hi, fun h => absurd rfl h⟩
  · rw [heq]
    refine ⟨fun h => absurd rfl h, fun h => absurd rfl h, fun _ => ?_⟩
    rcases hi with (hread | ⟨hb, hver | henc⟩) | ⟨hb, hspin⟩
    · exact .inl hread
    · exact .inr ⟨hb, .inl hver⟩
    · exact .inr ⟨hb, .inr (.inl henc)⟩
    · exact .inr ⟨hb, .inr (.inr hspin)⟩

end Sys2Proof.Machine
end

/-! ## Every outcome of a command, and of a step (R7, R8, R132) -/
section
namespace Sys2Proof.Machine

/-- An outcome of a command: a next state, or one of three refusals. -/
def Answers (r : Result) : Prop :=
  (∃ t, r = .next t) ∨ r = .refused .notConfigured ∨ r = .refused .reconfig ∨ r = .refused .reserved

section Outcomes

variable {s : State}

theorem answers_next (t : State) : Answers (.next t) := .inl ⟨t, rfl⟩

theorem answers_done (t : State) : Answers (done t) := answers_next _

theorem answers_reserved : Answers (.refused .reserved) := .inr (.inr (.inr rfl))

theorem answers_whenLedConfigured {k : Result} (h : Answers k) : Answers (whenLedConfigured s k) := by
  unfold whenLedConfigured
  split
  · exact h
  · exact .inr (.inl rfl)

theorem answers_whenBusConfigured {b : BusId} {k : Result} (h : Answers k) : Answers (whenBusConfigured s b k) := by
  unfold whenBusConfigured
  split
  · exact h
  · exact .inr (.inl rfl)

theorem answers_withRead {q : Option Nat × State} {k : Nat → State → Result} (h : ∀ v u, Answers (k v u)) :
    Answers (withRead q k) := by
  unfold withRead
  split
  · exact h _ _
  · exact answers_next _

/-- R8, R132: no command faults, and none is refused for another reason. -/
theorem exec_answers (i : Instr) (hirq : s.irqPending = false) : Answers (exec i s) := by
  cases i with
  | ledCfg idR idG idB pinR pinG pinB =>
    simp only [exec, execLedCfg]
    split
    · split
      · exact .inr (.inr (.inl rfl))
      · exact answers_done _
    · exact answers_reserved
  | ledColor c => exact answers_whenLedConfigured (answers_done _)
  | ledMode m =>
    refine answers_whenLedConfigured ?_
    split_ifs <;> exact answers_done _
  | ledUpdate =>
    rw [execLedUpdate_eq s hirq]
    split <;> exact answers_next _
  | ledGetc | ledGetn => exact answers_whenLedConfigured (answers_done _)
  | busCfg b sda scl clk =>
    simp only [exec, execBusCfg]
    split
    · exact .inr (.inr (.inl rfl))
    · exact answers_done _
  | busWr b a r n v =>
    simp only [exec, execBusWr]
    split
    · exact answers_whenBusConfigured (answers_done _)
    · exact answers_reserved
  | busRd b a r n =>
    simp only [exec, execBusRd]
    split
    · exact answers_whenBusConfigured (answers_withRead fun _ _ => answers_done _)
    · exact answers_reserved
  | busScan | motRstenc | motMode | motSpin | motStop => exact answers_whenBusConfigured (answers_done _)
  | motVer | motEnc => exact answers_whenBusConfigured (answers_withRead fun _ _ => answers_done _)
  | motSpind sel speed dist =>
    refine answers_whenBusConfigured ?_
    obtain ⟨t, ht, -⟩ := spinPolls_next (spinPair sel speed (motorWrite s.cfg.regCommand s.cfg.cmdResetEnc s)) sel dist
      (spinPair sel speed (motorWrite s.cfg.regCommand s.cfg.cmdResetEnc s)).pollsBeforeHang
    exact ht ▸ answers_next t

theorem exec_ne_fault (i : Instr) (hirq : s.irqPending = false) (e : Fault) : exec i s ≠ .fault e := by
  intro h
  rcases exec_answers i hirq with ⟨t, ht⟩ | ht | ht | ht <;> rw [h] at ht <;> cases ht

/-- A further poll of a hanging `MOT.SPIND`: what transactions leave, and the hang in a read if the poll is not answered. -/
theorem pollAgain_logs (sel : Selector) (dist : BitVec 32) :
    ∃ u, OnlyLogged s u ∧ (pollAgain sel dist s = .next u ∨
      pollAgain sel dist s = .next { u.markBusy s.cfg.motorBus with phase := .hung }) := by
  rcases pollAgain_next s sel dist with ⟨x, -, -, h⟩ | ⟨-, h⟩
  · exact ⟨_, polled_onlyLogged s sel (some x), .inl h⟩
  · exact ⟨_, polled_onlyLogged s sel none, .inr h⟩

theorem hostStep_ne_fault (hirq : s.irqPending = false) (e : Fault) : hostStep s ≠ .fault e := by
  intro h
  unfold hostStep at h
  split at h
  case h_1 => cases h
  case h_2 sel dist _ =>
    obtain ⟨u, -, hu | hu⟩ := pollAgain_logs (s := s) sel dist <;> rw [hu] at h <;> cases h
  case h_3 =>
    split at h
    case h_2 => cases h
    case h_1 =>
      unfold runWord at h
      split at h
      case h_1 i _ => exact exec_ne_fault i hirq e h
      case h_2 => cases h
      case h_3 => cases h

/-- R7: a step takes the reset input, a firing of the armed timer, or the Host's turn. -/
theorem event_cases (s : State) : s.nextEvent = .reset ∨ tickNext s = true ∨ hostNext s = true := by
  unfold tickNext hostNext
  cases s.nextEvent <;> cases s.tmrArmed <;> simp

theorem not_tickNext_of_hostNext (h : hostNext s = true) : tickNext s = false := by
  unfold hostNext at h
  unfold tickNext
  cases he : s.nextEvent <;> simp_all

/-- R88: a firing of the armed timer that goes on. -/
theorem tick_next {t : State} (h : tick s = .next t) :
    s.siTicks < s.cfg.tickMax ∧ t = { s with siTicks := s.siTicks + 1, csHeld := false } := by
  by_cases hlt : s.siTicks < s.cfg.tickMax
  · rw [tick_below s hlt] at h
    cases h
    exact ⟨hlt, rfl⟩
  · rw [tick_at_limit s (by omega)] at h
    cases h

theorem hostStep_fixed {t : State} (h : hostStep s = .next t) : t.prog = s.prog ∧ t.cfg = s.cfg ∧ t.sched = s.sched := by
  rcases hostStep_next s t h with ⟨-, rfl⟩ | ⟨sel, dist, -, h⟩ | ⟨-, w, i, -, -, h⟩
  · exact ⟨rfl, rfl, rfl⟩
  · obtain ⟨_, ⟨e, l, -, rfl⟩, hu | hu⟩ := pollAgain_logs (s := s) sel dist
    · rw [hu] at h
      cases h
      exact ⟨rfl, rfl, rfl⟩
    · rw [hu] at h
      cases h
      exact ⟨by simp, by simp, by simp⟩
  · exact (exec_effect h).fixed

theorem step_fixed {t : State} (h : step s = .next t) : t.prog = s.prog ∧ t.cfg = s.cfg := by
  rcases event_cases s with hreset | htick | hhost
  · rw [step_of_reset s hreset] at h
    cases h
    exact ⟨rfl, rfl⟩
  · obtain ⟨he, harmed⟩ := (tickNext_iff s).1 htick
    have hstep : step s = timerExpiry s.popEvent := by
      simp [step, runEvent, he, harmed]
    rw [hstep] at h
    unfold timerExpiry at h
    split at h
    · cases h
      exact ⟨rfl, rfl⟩
    · obtain ⟨-, rfl⟩ := tick_next h
      exact ⟨rfl, rfl⟩
  · rw [step_of_host s hhost] at h
    obtain ⟨hprog, hcfg, -⟩ := hostStep_fixed h
    exact ⟨hprog, hcfg⟩

/-- A step that is not the reset input: a tick, or the Host's turn. -/
theorem step_next_of_not_reset {t : State} (hcs : s.csHeld = false) (hreset : s.nextEvent ≠ .reset)
    (h : step s = .next t) :
    (tickNext s = true ∧ t = { s with sched := s.sched.tail, siTicks := s.siTicks + 1 }) ∨
    (hostNext s = true ∧ hostStep s.popEvent = .next t) := by
  rcases step_next s hcs t h with ⟨he, -⟩ | ⟨htick, -, ht⟩ | hhost
  · exact absurd he hreset
  · exact .inl ⟨htick, ht⟩
  · exact .inr hhost

theorem hostStep_busLog {t : State} (h : hostStep s = .next t) : ∃ l, t.busLog = s.busLog ++ l := by
  rcases hostStep_next s t h with ⟨-, rfl⟩ | ⟨sel, dist, -, h⟩ | ⟨-, w, i, -, -, h⟩
  · exact ⟨[], (List.append_nil _).symm⟩
  · obtain ⟨_, ⟨e, l, -, rfl⟩, hu | hu⟩ := pollAgain_logs (s := s) sel dist
    · rw [hu] at h
      cases h
      exact ⟨l, rfl⟩
    · rw [hu] at h
      cases h
      exact ⟨l, by simp⟩
  · exact (exec_effect h).busLog

/-- R23, R29, R32: the Host's turn leaves the LED configured, on the same channels. -/
theorem hostStep_ledConfigured {t : State} (h : hostStep s = .next t) (hc : s.siConfigured = true) :
    t.siConfigured = true ∧ t.tmrArmed = s.tmrArmed ∧ t.chanR = s.chanR ∧ t.chanG = s.chanG ∧ t.chanB = s.chanB := by
  rcases hostStep_next s t h with ⟨-, rfl⟩ | ⟨sel, dist, -, h⟩ | ⟨-, w, i, -, -, h⟩
  · exact ⟨hc, rfl, rfl, rfl, rfl⟩
  · obtain ⟨_, ⟨e, l, -, rfl⟩, hu | hu⟩ := pollAgain_logs (s := s) sel dist
    · rw [hu] at h
      cases h
      exact ⟨hc, rfl, rfl, rfl, rfl⟩
    · rw [hu] at h
      cases h
      exact ⟨by simpa using hc, by simp, by simp, by simp, by simp⟩
  · exact (exec_effect h).ledConfigured hc

/-- The parameters of a bus (R34). -/
def SameParameters (r r' : BusRegs) : Prop := r'.sda = r.sda ∧ r'.scl = r.scl ∧ r'.clk = r.clk

theorem BusEffect.parameters {i : Instr} {b : BusId} {r : BusRegs} (h : BusEffect s i b r)
    (hc : (s.bus b).configured = true) : r.configured = true ∧ SameParameters (s.bus b) r := by
  rcases h with rfl | ⟨_, _, _, -, hfresh, -⟩ | ⟨-, d, rfl⟩ | ⟨-, rfl⟩
  · exact ⟨hc, rfl, rfl, rfl⟩
  · exact absurd hc (ne_true_of_eq_false hfresh)
  · exact ⟨hc, rfl, rfl, rfl⟩
  · exact ⟨hc, rfl, rfl, rfl⟩

/-- R34: the Host's turn leaves a configured bus's parameters. -/
theorem hostStep_busConfigured {t : State} (h : hostStep s = .next t) {b : BusId} (hc : (s.bus b).configured = true) :
    (t.bus b).configured = true ∧ SameParameters (s.bus b) (t.bus b) := by
  rcases hostStep_next s t h with ⟨-, rfl⟩ | ⟨sel, dist, -, h⟩ | ⟨-, w, i, -, -, h⟩
  · exact ⟨hc, rfl, rfl, rfl⟩
  · have hhang : HangsOn s.cfg (.motSpind sel 0 dist) s.cfg.motorBus := .inr ⟨rfl, _, _, _, rfl⟩
    obtain ⟨u, hu, he | he⟩ := pollAgain_logs (s := s) sel dist
    · rw [he] at h
      cases h
      rw [hu.bus]
      exact ⟨hc, rfl, rfl, rfl⟩
    · rw [he] at h
      cases h
      exact BusEffect.parameters (busEffect_of_markBusy hu.bus hhang b) hc
  · exact ((exec_effect h).bus b).parameters hc

end Outcomes

/-- Settles O25: a command answers a next state or a refusal, and what a StatusIndicator command leaves is its effect. -/
theorem ledCommandsNeverBlockOrTouchABus : Obligations.LedCommandsNeverBlockOrTouchABus := by
  intro i s hirq hi
  have hled : isLed i = true := by
    rcases hi with rfl | rfl | rfl | ⟨c, rfl⟩ | ⟨m, rfl⟩ | ⟨x, y, z, p, q, u, rfl⟩ <;> rfl
  exact (exec_answers i hirq).imp_left fun ⟨t, ht⟩ => ⟨t, ht, (exec_effect ht).led hled⟩

/-- Settles O27: a tick faults at the limit only, and neither the reset input nor a turn of the Host does. -/
theorem onlyTheTimerFaults : Obligations.OnlyTheTimerFaults := by
  intro s e h
  obtain ⟨hcs, hirq⟩ := h.hiddenClear
  constructor
  · intro hfault
    rcases event_cases s with hreset | htick | hhost
    · rw [step_of_reset s hreset] at hfault
      cases hfault
    · obtain ⟨he, harmed⟩ := (tickNext_iff s).1 htick
      refine ⟨he, harmed, le_antisymm h.ticksBounded ?_⟩
      by_contra hlt
      rw [step_of_tick_below s htick hcs (by omega)] at hfault
      cases hfault
    · rw [step_of_host s hhost] at hfault
      exact absurd hfault (hostStep_ne_fault (s := s.popEvent) hirq e)
  · rintro ⟨he, harmed, heq⟩
    rw [step_of_tick_at_limit s ((tickNext_iff s).2 ⟨he, harmed⟩) hcs heq.ge]

/-- Settles O35. -/
theorem configurationIsPermanent : Obligations.ConfigurationIsPermanent := by
  intro s t h hreset ht
  rcases step_next_of_not_reset h.hiddenClear.1 hreset ht with ⟨-, rfl⟩ | ⟨-, ht⟩
  · exact ⟨fun hc => ⟨hc, h.armedIffConfigured.trans hc, rfl, rfl, rfl⟩, fun b hc => ⟨hc, rfl, rfl, rfl⟩⟩
  · refine ⟨fun hc => ?_, fun b hc => hostStep_busConfigured ht hc⟩
    obtain ⟨hconf, harmed, hchan⟩ := hostStep_ledConfigured ht hc
    exact ⟨hconf, harmed.trans (h.armedIffConfigured.trans hc), hchan⟩

/-- Settles O36. -/
theorem busLogOnlyGrows : Obligations.BusLogOnlyGrows := by
  intro s t h hreset ht
  rcases step_next_of_not_reset h.hiddenClear.1 hreset ht with ⟨-, rfl⟩ | ⟨-, ht⟩
  · exact ⟨[], (List.append_nil _).symm⟩
  · exact hostStep_busLog (s := s.popEvent) ht

/-- Settles O37. -/
theorem commandListAndParametersAreImmutable : Obligations.CommandListAndParametersAreImmutable :=
  fun _ _ ht => step_fixed ht

end Sys2Proof.Machine
end

/-! ## Runs without the reset input (R8, R62, R91) -/
section
namespace Sys2Proof.Machine

/-- A run of one step more is a step, then the run. -/
theorem core_run_succ (M : Host.Core) (k : Nat) (s t : M.State) (h : M.run (k + 1) s = .next t) :
    ∃ u, M.step s = .next u ∧ M.run k u = .next t := by
  unfold Host.Core.run at h
  split at h
  case h_1 u hu => exact ⟨u, hu, h⟩
  case h_2 | h_3 => cases h

theorem run_succ {k : Nat} {s t : State} (h : Host.Core.run core (k + 1) s = .next t) :
    ∃ u, step s = .next u ∧ Host.Core.run core k u = .next t :=
  core_run_succ core k s t h

section Runs

variable {s t u : State} {k : Nat}

theorem countSteps_succ {p : State → Bool} (h : step s = .next u) :
    countSteps p (k + 1) s = (if p s then 1 else 0) + countSteps p k u := by
  rw [countSteps, h]

theorem countSteps_le {p q : State → Bool} (h : ∀ s, p s = true → q s = true) (k : Nat) (s : State) :
    countSteps p k s ≤ countSteps q k s := by
  induction k generalizing s with
  | zero => exact le_rfl
  | succ k ih =>
    have hfirst : (if p s then 1 else 0) ≤ (if q s then 1 else 0) := by
      by_cases hp : p s = true
      · simp [hp, h s hp]
      · simp [hp]
    unfold countSteps
    cases step s with
    | next u => exact Nat.add_le_add hfirst (ih u)
    | fault e | refused e => exact Nat.add_le_add hfirst le_rfl

theorem NoReset.first (h : NoReset (k + 1) s) : s.nextEvent ≠ .reset := by
  unfold State.nextEvent
  cases hs : s.sched with
  | nil => simp
  | cons e es =>
    exact h e (by simp [hs])

theorem NoReset.rest (h : NoReset (k + 1) s) (hu : u.sched = s.sched.tail) : NoReset k u := by
  intro e he
  refine h e ?_
  rw [hu] at he
  cases hs : s.sched with
  | nil => simp [hs] at he
  | cons x xs =>
    rw [hs] at he
    exact List.mem_cons_of_mem x he

/-- The induction over a run without the reset input: `I` holds at every step, `Q` relates the ends of the run. -/
theorem run_induction {I : State → Prop} {Q : Nat → State → State → Prop} (start : ∀ s, I s → Q 0 s s)
    (keep : ∀ s u, I s → s.nextEvent ≠ .reset → step s = .next u → I u ∧ u.sched = s.sched.tail)
    (cons : ∀ k s u t, I s → s.nextEvent ≠ .reset → step s = .next u → Q k u t → Q (k + 1) s t)
    (k : Nat) (s t : State) (hs : I s) (hno : NoReset k s) (h : Host.Core.run core k s = .next t) : Q k s t := by
  induction k generalizing s with
  | zero =>
    cases h
    exact start _ hs
  | succ k ih =>
    obtain ⟨u, hu, hrun⟩ := run_succ h
    obtain ⟨hIu, hsched⟩ := keep s u hs hno.first hu
    exact cons k s u t hs hno.first hu (ih u hIu (hno.rest hsched) hrun)

end Runs

section HungRuns

variable {s t u : State}

theorem hostStep_of_hung (h : s.phase = .hung) : hostStep s = .next s := by
  rw [hostStep, h]

/-- R8: a step of a block whose Host hangs in a read uses up its event, and counts if it is a tick. -/
theorem step_of_hung (hp : s.phase = .hung) (hcs : s.csHeld = false) (hreset : s.nextEvent ≠ .reset)
    (h : step s = .next u) :
    u = { s with sched := s.sched.tail, siTicks := s.siTicks + if tickNext s then 1 else 0 } := by
  rcases step_next_of_not_reset hcs hreset h with ⟨htick, rfl⟩ | ⟨hhost, h⟩
  · rw [htick]
    rfl
  · rw [hostStep_of_hung (s := s.popEvent) hp] at h
    cases h
    rw [not_tickNext_of_hostNext hhost]
    rfl

/-- A record of a poll of the encoder this selector polls (R118). -/
def PollRecord (cfg : Config) (sel : Selector) (x : Transaction) : Prop :=
  (∃ ack, x = .write cfg.motorBus cfg.motorAddr [polledEncoder cfg sel] ack) ∨
    ∃ y, x = .read cfg.motorBus cfg.motorAddr 4 y

/-- What `k` steps with `n` ticks leave of a block whose Host hangs (R8, R36, R118). -/
def StillHangs (k n : Nat) (s t : State) : Prop :=
  ∃ (p : HostPhase) (b0 b1 : Bool) (l : List Transaction) (e : Env),
    p ≠ .ready ∧ (∀ sel dist, p = .polling sel dist → s.phase = .polling sel dist) ∧
    (s.rb0.busy = true → b0 = true) ∧ (s.rb1.busy = true → b1 = true) ∧
    (∀ x ∈ l, ∃ sel dist, s.phase = .polling sel dist ∧ PollRecord s.cfg sel x) ∧
    t = { s with
      phase := p
      rb0 := { s.rb0 with busy := b0 }
      rb1 := { s.rb1 with busy := b1 }
      busLog := s.busLog ++ l
      env := e
      envClock := s.envClock + l.length
      sched := s.sched.drop k
      siTicks := s.siTicks + n }

theorem StillHangs.refl (h : s.phase ≠ .ready) : StillHangs 0 0 s s :=
  ⟨s.phase, s.rb0.busy, s.rb1.busy, [], s.env, h, fun _ _ hp => hp, id, id, by simp, by simp⟩

theorem StillHangs.trans {k n k' n' : Nat} (h : StillHangs k n s u) (h' : StillHangs k' n' u t) :
    StillHangs (k + k') (n + n') s t := by
  obtain ⟨p, b0, b1, l, e, -, hpoll, hb0, hb1, hl, rfl⟩ := h
  obtain ⟨p', b0', b1', l', e', hp', hpoll', hb0', hb1', hl', rfl⟩ := h'
  refine ⟨p', b0', b1', l ++ l', e', hp', fun sel dist hq => hpoll sel dist (hpoll' sel dist hq), hb0' ∘ hb0, hb1' ∘ hb1,
    fun x hx => ?_, by simp [Nat.add_assoc]⟩
  rcases List.mem_append.1 hx with hx | hx
  · exact hl x hx
  · obtain ⟨sel, dist, hq, hrec⟩ := hl' x hx
    exact ⟨sel, dist, hpoll sel dist hq, hrec⟩

theorem stillHangs_of_count (hp : s.phase ≠ .ready) (n : Nat) :
    StillHangs 1 n s { s with sched := s.sched.tail, siTicks := s.siTicks + n } :=
  ⟨s.phase, s.rb0.busy, s.rb1.busy, [], s.env, hp, fun _ _ h => h, id, id, by simp, by simp⟩

theorem stillHangs_of_poll {sel : Selector} {dist : BitVec 32} (hp : s.phase = .polling sel dist)
    (h : pollAgain sel dist s.popEvent = .next u) : StillHangs 1 0 s u := by
  have hrec : ∀ x : Option (List Byte), ∀ y ∈ pollRecords s.cfg sel (s.popEvent.pollAck sel) x,
      ∃ sel dist, s.phase = .polling sel dist ∧ PollRecord s.cfg sel y := by
    intro x y hy
    refine ⟨sel, dist, hp, ?_⟩
    simp only [pollRecords, List.mem_cons, List.not_mem_nil, or_false] at hy
    rcases hy with rfl | rfl
    · exact .inl ⟨_, rfl⟩
    · exact .inr ⟨_, rfl⟩
  rcases pollAgain_next s.popEvent sel dist with ⟨x, -, -, he⟩ | ⟨-, he⟩
  · rw [he] at h
    cases h
    exact ⟨s.phase, s.rb0.busy, s.rb1.busy, _, (s.popEvent.polled sel (some x)).env, by simp [hp], fun _ _ h => h, id, id, hrec (some x),
      by simp [State.polled, pollRecords, State.popEvent]⟩
  · rw [he] at h
    cases h
    cases hb : s.cfg.motorBus
    · refine ⟨.hung, true, s.rb1.busy, _, (s.popEvent.polled sel none).env, by simp, by simp, fun _ => rfl, id, hrec none, ?_⟩
      simp [State.polled, pollRecords, State.popEvent, hb, State.markBusy, State.setBus, State.bus]
    · refine ⟨.hung, s.rb0.busy, true, _, (s.popEvent.polled sel none).env, by simp, by simp, id, fun _ => rfl, hrec none, ?_⟩
      simp [State.polled, pollRecords, State.popEvent, hb, State.markBusy, State.setBus, State.bus]

theorem step_of_hanging (hp : s.phase ≠ .ready) (hcs : s.csHeld = false) (hreset : s.nextEvent ≠ .reset)
    (h : step s = .next u) : StillHangs 1 (if tickNext s then 1 else 0) s u := by
  rcases step_next_of_not_reset hcs hreset h with ⟨htick, rfl⟩ | ⟨hhost, h⟩
  · rw [htick]
    exact stillHangs_of_count hp 1
  · rw [not_tickNext_of_hostNext hhost]
    rcases hostStep_next s.popEvent u h with ⟨hq, rfl⟩ | ⟨sel, dist, hq, h⟩ | ⟨hq, -⟩
    · exact stillHangs_of_count hp 0
    · exact stillHangs_of_poll hq h
    · exact absurd hq hp

theorem StillHangs.phase {k n : Nat} (h : StillHangs k n s t) : t.phase ≠ .ready := by
  obtain ⟨p, b0, b1, l, e, hp, -, -, -, -, rfl⟩ := h
  exact hp

theorem StillHangs.csHeld {k n : Nat} (h : StillHangs k n s t) : t.csHeld = s.csHeld := by
  obtain ⟨p, b0, b1, l, e, -, -, -, -, -, rfl⟩ := h
  rfl

theorem StillHangs.sched {k n : Nat} (h : StillHangs k n s t) : t.sched = s.sched.drop k := by
  obtain ⟨p, b0, b1, l, e, -, -, -, -, -, rfl⟩ := h
  rfl

end HungRuns

/-- Settles O43: by induction over the run; each step uses up its event and counts a tick. -/
theorem hungHostNeverMoves : Obligations.HungHostNeverMoves := by
  intro k s t hp hcs hno h
  refine run_induction (I := fun s => s.phase = .hung ∧ s.csHeld = false)
    (Q := fun k s t => t = { s with sched := s.sched.drop k, siTicks := s.siTicks + countSteps tickNext k s })
    (fun s _ => rfl) (fun s u hI hreset hu => ?keep) (fun k s u t hI hreset hu hQ => ?cons) k s t ⟨hp, hcs⟩ hno h
  case keep =>
    rw [step_of_hung hI.1 hI.2 hreset hu]
    exact ⟨hI, rfl⟩
  case cons =>
    rw [hQ, countSteps_succ hu, step_of_hung hI.1 hI.2 hreset hu]
    simp [Nat.add_assoc]

/-- Settles O60: by induction over the run; what each step leaves composes. -/
theorem hangIsForEver : Obligations.HangIsForEver := by
  intro k s t hp hcs hno h
  have hrun : StillHangs k (countSteps tickNext k s) s t := by
    refine run_induction (I := fun s => s.phase ≠ .ready ∧ s.csHeld = false)
      (Q := fun k s t => StillHangs k (countSteps tickNext k s) s t)
      (fun s hI => .refl hI.1) (fun s u hI hreset hu => ?keep) (fun k s u t hI hreset hu hQ => ?cons) k s t ⟨hp, hcs⟩ hno h
    case keep =>
      have hstep := step_of_hanging hI.1 hI.2 hreset hu
      exact ⟨⟨hstep.phase, hstep.csHeld.trans hI.2⟩, hstep.sched.trans List.drop_one⟩
    case cons =>
      rw [countSteps_succ hu, Nat.add_comm k 1]
      exact (step_of_hanging hI.1 hI.2 hreset hu).trans hQ
  obtain ⟨p, b0, b1, l, e, hphase, -, hb0, hb1, hl, rfl⟩ := hrun
  refine ⟨hphase, fun b hb => ?_, l, hl, rfl⟩
  cases b
  · exact hb0 hb
  · exact hb1 hb

section TickCount

variable {s t : State}

theorem not_hostNext_of_tickNext (h : tickNext s = true) : hostNext s = false := by
  cases hh : hostNext s with
  | false => rfl
  | true => rw [not_tickNext_of_hostNext hh] at h; cases h

theorem not_drainNext_of_not_updateNext (h : updateNext s = false) : drainNext s = false := by
  simp [drainNext, h]

theorem updateNext_of_not_ready (h : s.phase ≠ .ready) : updateNext s = false := by
  simp [updateNext, h]

theorem updateNext_of_ready {w : Word} {i : Instr} (hhost : hostNext s = true) (hp : s.phase = .ready)
    (hf : s.fetch = some w) (hd : decode w = .ok i) : updateNext s = decide (i = .ledUpdate) := by
  simp only [updateNext, hhost, hp, hf, hd]
  rfl

theorem step_sched (hcs : s.csHeld = false) (hreset : s.nextEvent ≠ .reset) (h : step s = .next t) :
    t.sched = s.sched.tail := by
  rcases step_next_of_not_reset hcs hreset h with ⟨-, rfl⟩ | ⟨-, h⟩
  · rfl
  · exact (hostStep_fixed h).2.2

/-- R91: a step lowers the counter by a productive update and raises it by a tick, and by nothing else. -/
theorem step_siTicks (h : Invariant s) (hreset : s.nextEvent ≠ .reset) (ht : step s = .next t) :
    t.siTicks + (if drainNext s then 1 else 0) = s.siTicks + if tickNext s then 1 else 0 := by
  rcases step_next_of_not_reset h.hiddenClear.1 hreset ht with ⟨htick, rfl⟩ | ⟨hhost, ht⟩
  · have hno : drainNext s = false := by simp [drainNext, updateNext, not_hostNext_of_tickNext htick]
    simp [hno, htick]
  · rw [not_tickNext_of_hostNext hhost]
    have hsame : updateNext s = false → t.siTicks = s.siTicks →
        t.siTicks + (if drainNext s then 1 else 0) = s.siTicks + if false = true then 1 else 0 := by
      intro hno heq
      simp [not_drainNext_of_not_updateNext hno, heq]
    rcases hostStep_next s.popEvent t ht with ⟨hp, rfl⟩ | ⟨sel, dist, hp, ht⟩ | ⟨hp, w, i, hf, hd, ht⟩
    · have hp : s.phase = .hung := hp
      exact hsame (updateNext_of_not_ready (by simp [hp])) rfl
    · have hp : s.phase = .polling sel dist := hp
      refine hsame (updateNext_of_not_ready (by simp [hp])) ?_
      obtain ⟨_, ⟨e, l, -, rfl⟩, hu | hu⟩ := pollAgain_logs (s := s.popEvent) sel dist
      · rw [hu] at ht
        cases ht
        rfl
      · rw [hu] at ht
        cases ht
        simp
    · have hupd := updateNext_of_ready hhost hp hf hd
      have hticks : t.siTicks = if i = .ledUpdate then s.siTicks - 1 else s.siTicks :=
        (exec_effect ht).siTicks h.hiddenClear.2
      by_cases hi : i = .ledUpdate
      · simp [drainNext, hupd, hi, hticks]
        split <;> omega
      · exact hsame (hupd.trans (decide_eq_false hi)) (hticks.trans (if_neg hi))

end TickCount

/-- Settles O30: by induction over the run, the count of each step added up. -/
theorem ticksAreConserved : Obligations.TicksAreConserved := by
  intro k s t h hno hrun
  have hcount : t.siTicks + countSteps drainNext k s = s.siTicks + countSteps tickNext k s := by
    refine run_induction (I := Invariant)
      (Q := fun k s t => t.siTicks + countSteps drainNext k s = s.siTicks + countSteps tickNext k s)
      (fun s _ => rfl) (fun s u hI hreset hu => ?keep) (fun k s u t hI hreset hu hQ => ?cons) k s t h hno hrun
    case keep => exact ⟨stepKeepsInvariant s u hI hu, step_sched hI.hiddenClear.1 hreset hu⟩
    case cons =>
      have hstep := step_siTicks hI hreset hu
      rw [countSteps_succ hu, countSteps_succ hu]
      omega
  have hle : countSteps drainNext k s ≤ countSteps updateNext k s :=
    countSteps_le (fun s hd => (Bool.and_eq_true_iff.1 hd).1) k s
  exact ⟨hcount, hle, fun h0 => by omega⟩

end Sys2Proof.Machine
end

/-! ## The step, the reset input and the refusals (R9, R42, R80, R96, R132, R145) -/
section
namespace Sys2Proof.Machine

/-- Settles O7. -/
theorem stepRunsDecodedCommand : Obligations.StepRunsDecodedCommand := by
  intro s w i hhost hp hf hd
  have hrun : hostStep s.popEvent = runWord w s.popEvent := hostStep_of_fetch hp hf
  rw [step_of_host s hhost, hrun, runWord, hd]
  rfl

/-- Settles O8: the fetch finds no word. -/
theorem runIsOverPastTheLastCommand : Obligations.RunIsOverPastTheLastCommand := by
  intro s hhost hp hend
  have hready : s.popEvent.phase = .ready := hp
  have hfetch : s.popEvent.fetch = none := List.getElem?_eq_none hend
  rw [step_of_host s hhost, hostStep, hready, hfetch]

/-- Settles O10. -/
theorem resetInputRestoresResetValues : Obligations.ResetInputRestoresResetValues := by
  intro s hreset
  have hbus : ∀ b, s.popEvent.assertReset.bus b = ⟨false, none, none, none, [], false⟩ := fun b => by cases b <;> rfl
  exact ⟨_, step_of_reset s hreset, rfl, rfl, rfl, rfl, rfl, rfl, rfl, rfl, rfl, State.reset_pwmAt, rfl, rfl, rfl, hbus,
    rfl, rfl, rfl, rfl, rfl, rfl, rfl⟩

section Refusals

variable {s : State} {idR idG idB : ChannelId} {pinR pinG pinB : Byte}

/-- R74, R81: the operands `LED.CFG` takes. -/
theorem ledCfg_legal_iff :
    (idsDistinct idR idG idB && [idR, idG, idB].all (channelExists s.cfg)) = true ↔
      (idR ≠ idG ∧ idR ≠ idB ∧ idG ≠ idB) ∧
        idR.toNat < s.cfg.pwmChannels ∧ idG.toNat < s.cfg.pwmChannels ∧ idB.toNat < s.cfg.pwmChannels := by
  simp [idsDistinct, channelExists, and_assoc]

theorem execLedCfg_of_legal (hdistinct : idR ≠ idG ∧ idR ≠ idB ∧ idG ≠ idB)
    (hexist : idR.toNat < s.cfg.pwmChannels ∧ idG.toNat < s.cfg.pwmChannels ∧ idB.toNat < s.cfg.pwmChannels) :
    exec (.ledCfg idR idG idB pinR pinG pinB) s =
      if s.siConfigured then .refused .reconfig
      else done { ((s.setPin idR pinR).setPin idG pinG).setPin idB pinB with
        chanR := some ⟨idR, pinR⟩
        chanG := some ⟨idG, pinG⟩
        chanB := some ⟨idB, pinB⟩
        siConfigured := true
        tmrArmed := true } := by
  rw [exec, execLedCfg, if_pos (ledCfg_legal_iff.2 ⟨hdistinct, hexist⟩)]

theorem execLedCfg_of_not_legal
    (h : ¬ ((idR ≠ idG ∧ idR ≠ idB ∧ idG ≠ idB) ∧
      idR.toNat < s.cfg.pwmChannels ∧ idG.toNat < s.cfg.pwmChannels ∧ idB.toNat < s.cfg.pwmChannels)) :
    exec (.ledCfg idR idG idB pinR pinG pinB) s = .refused .reserved := by
  rw [exec, execLedCfg, if_neg fun hl => h (ledCfg_legal_iff.1 hl)]

/-- R54, R74: a byte count within the command's bound. -/
theorem byteCountLegal_iff {bound : Nat} {n : BitVec 3} :
    byteCountLegal bound n = true ↔ 1 ≤ n.toNat ∧ n.toNat ≤ bound := by
  simp [byteCountLegal]

/-- R15, R74: a value within its byte count. -/
theorem valueFits_iff {n : BitVec 3} {v : BitVec 32} : valueFits n v = true ↔ v.toNat < 2 ^ (8 * n.toNat) := by
  simp [valueFits]

variable {b : BusId} {a : Addr7} {r : Byte} {n : BitVec 3} {v : BitVec 32}

theorem execBusWr_of_legal (h1 : 1 ≤ n.toNat) (hmax : n.toNat ≤ s.cfg.busMaxBytes) (hfit : v.toNat < 2 ^ (8 * n.toNat)) :
    exec (.busWr b a r n v) s = whenBusConfigured s b (done (regWrite b a r n.toNat v.toNat s)) := by
  rw [exec, execBusWr, if_pos (by simp [byteCountLegal_iff, valueFits_iff, h1, hmax, hfit])]

theorem execBusWr_of_not_legal (h : n.toNat = 0 ∨ s.cfg.busMaxBytes < n.toNat ∨ 2 ^ (8 * n.toNat) ≤ v.toNat) :
    exec (.busWr b a r n v) s = .refused .reserved := by
  have hill : ¬ (byteCountLegal s.cfg.busMaxBytes n && valueFits n v) = true := by
    rw [Bool.and_eq_true, byteCountLegal_iff, valueFits_iff]
    omega
  rw [exec, execBusWr, if_neg hill]

theorem execBusRd_of_legal (h1 : 1 ≤ n.toNat) (hmax : n.toNat ≤ s.cfg.busMaxBytes) :
    exec (.busRd b a r n) s =
      whenBusConfigured s b (withRead (regRead b a r n.toNat s) fun v t => done (t.setRes (zext64 v))) := by
  rw [exec, execBusRd, if_pos (byteCountLegal_iff.2 ⟨h1, hmax⟩)]

theorem execBusRd_of_not_legal (h : n.toNat = 0 ∨ s.cfg.busMaxBytes < n.toNat) :
    exec (.busRd b a r n) s = .refused .reserved := by
  have hill : ¬ byteCountLegal s.cfg.busMaxBytes n = true := by
    rw [byteCountLegal_iff]
    omega
  rw [exec, execBusRd, if_neg hill]

theorem execBusCfg_of_fresh (sda scl : Byte) (clk : BitVec 32) (h : (s.bus b).configured = false) :
    exec (.busCfg b sda scl clk) s =
      .next (s.setBus b ⟨true, some sda, some scl, some clk, (s.bus b).dev, (s.bus b).busy⟩).advance := by
  rw [exec, execBusCfg, if_neg (ne_true_of_eq_false h)]
  rfl

theorem execBusCfg_of_configured (sda scl : Byte) (clk : BitVec 32) (h : (s.bus b).configured = true) :
    exec (.busCfg b sda scl clk) s = .refused .reconfig := by
  rw [exec, execBusCfg, if_pos h]

end Refusals

/-- Settles O14: the operands are checked before the configuration. -/
theorem secondConfigurationRefused : Obligations.SecondConfigurationRefused := by
  refine ⟨fun s idR idG idB pinR pinG pinB => ⟨fun hbad => ?_, fun h1 h2 h3 hR hG hB hconf => ?_⟩,
    fun s b sda scl clk h => execBusCfg_of_configured sda scl clk h⟩
  · refine execLedCfg_of_not_legal fun ⟨⟨h1, h2, h3⟩, hR, hG, hB⟩ => ?_
    rcases hbad with h | h | h | h | h | h
    · exact h1 h
    · exact h2 h
    · exact h3 h
    · omega
    · omega
    · omega
  · rw [execLedCfg_of_legal ⟨h1, h2, h3⟩ ⟨hR, hG, hB⟩, if_pos hconf]

/-- Settles O15: each meaning opens with the guard of its unit, once its operands are legal. -/
theorem commandsNeedTheirConfiguration : Obligations.CommandsNeedTheirConfiguration := by
  refine ⟨fun s c m h => ?led, fun s b a r n v h => ?bus, fun s side m speed sel dist h => ?motor⟩
  case led =>
    have hrefused : ∀ k, whenLedConfigured s k = .refused .notConfigured :=
      fun k => whenLedConfigured_of_not_configured s k h
    exact ⟨hrefused _, hrefused _, hrefused _, hrefused _⟩
  case bus =>
    have hrefused : ∀ k, whenBusConfigured s b k = .refused .notConfigured :=
      fun k => whenBusConfigured_of_not_configured s b k h
    refine ⟨fun h1 hmax => ⟨fun hfit => ?_, ?_⟩, hrefused _⟩
    · exact (execBusWr_of_legal h1 hmax hfit).trans (hrefused _)
    · exact (execBusRd_of_legal h1 hmax).trans (hrefused _)
  case motor =>
    have hrefused : ∀ k, whenBusConfigured s s.cfg.motorBus k = .refused .notConfigured :=
      fun k => whenBusConfigured_of_not_configured s s.cfg.motorBus k h
    exact ⟨hrefused _, hrefused _, hrefused _, hrefused _, hrefused _, hrefused _, hrefused _⟩

/-- Settles O39. -/
theorem busCfgStoresParameters : Obligations.BusCfgStoresParameters :=
  fun _ sda scl clk => ⟨fun h => execBusCfg_of_fresh (b := .bus0) sda scl clk h,
    fun h => execBusCfg_of_fresh (b := .bus1) sda scl clk h⟩

/-- Settles O13: the pins are written one after the other, on distinct channels. -/
theorem ledCfgBindsThreeChannels : Obligations.LedCfgBindsThreeChannels := by
  intro s idR idG idB pinR pinG pinB h1 h2 h3 hR hG hB hfresh
  have hexec := execLedCfg_of_legal (pinR := pinR) (pinG := pinG) (pinB := pinB) ⟨h1, h2, h3⟩ ⟨hR, hG, hB⟩
  exact ⟨_, hexec.trans (if_neg (ne_true_of_eq_false hfresh)), rfl, pwmAt_setPins pinR pinG pinB h1 h2 h3⟩

end Sys2Proof.Machine
end

/-! ## The modes and updates of the LED (R18, R84, R86, R92) -/
section
namespace Sys2Proof.Machine

section LedUpdates

variable {s : State} {r g b : LedChannel}

theorem clamp_of_lt {cfg : Config} {c : ColorIx} (h : c.toNat < cfg.colorCount) : clamp cfg c = c :=
  if_pos h

/-- R82: what the three duty writes show, in any state with their registers. -/
theorem shows_of_show {t : State} {d : Duty} (hready : LedReady s r g b) (hp : t.pwm = (s.show d).pwm)
    (hr : t.chanR = s.chanR) (hg : t.chanG = s.chanG) (hb : t.chanB = s.chanB) :
    t.ledOut = shown d ∧ OnlyDuties s t r g b := by
  obtain ⟨hshown, honly⟩ := s.shown_show d r g b hready
  have hout : t.ledOut = (s.show d).ledOut := State.ledOut_congr hp (by simp [hr]) (by simp [hg]) (by simp [hb])
  refine ⟨hout.trans hshown, fun ch => ?_⟩
  rw [State.pwmAt_of_pwm_eq (s.show d) t ch hp]
  exact honly ch

theorem onlyDuties_of_pwm_eq {t : State} (hp : t.pwm = s.pwm) : OnlyDuties s t r g b := by
  intro ch
  rw [State.pwmAt_of_pwm_eq s t ch hp]
  exact ⟨rfl, fun _ _ _ => rfl⟩

/-- R82: applying a colour of the table. -/
theorem State.apply_of_lt {c : ColorIx} (hc : c.toNat < s.cfg.colorCount) :
    s.apply c = { s with pwm := (s.show (duties s.cfg c)).pwm, siColor := c } := by
  rw [State.apply_frame, clamp_of_lt hc]

theorem execLedMode_of_configured (m : Byte) (h : s.siConfigured = true) :
    exec (.ledMode m) s =
      if m = s.cfg.ledOn then done { s.apply s.siColor with siMode := .on }
      else if m = s.cfg.ledBlink then done { s.apply s.siColor with siMode := .blink }
      else if m = s.cfg.ledCycle then done { s with siMode := .cycle }
      else done { (if s.cfg.offBlanks then s.show (duties s.cfg s.cfg.black) else s) with siMode := .off } :=
  whenLedConfigured_of_configured s _ h

/-- Settles O18. -/
theorem ledUpdateWithoutTickIsNoOp : Obligations.LedUpdateWithoutTickIsNoOp := by
  intro s h
  have hnone : ¬ 0 < s.siTicks := by omega
  exact if_neg hnone

/-- R86: a productive update, by what the dispatch leaves. -/
theorem execLedUpdate_of_owed (hcs : s.csHeld = false) (hirq : s.irqPending = false) (hpos : 0 < s.siTicks) :
    exec .ledUpdate s = .next ({ updateLed s with siTicks := s.siTicks - 1 } : State).advance := by
  rw [execLedUpdate_eq s hirq, if_pos hpos, ← hcs, ← updateLed_csHeld s]

/-- Settles O19. -/
theorem ledUpdateOnAndOffOnlyDrain : Obligations.LedUpdateOnAndOffOnlyDrain := by
  intro s hpos hcs hirq hmode
  have hsame : updateLed s = s := by
    rcases hmode with h | h <;> rw [updateLed, h]
  rw [execLedUpdate_of_owed hcs hirq hpos, hsame]
  rfl

/-- R86: a productive update whose dispatch applies a colour of the table. -/
theorem execLedUpdate_applies {c : ColorIx} (hready : LedReady s r g b) (hcs : s.csHeld = false)
    (hirq : s.irqPending = false) (hpos : 0 < s.siTicks) (hc : c.toNat < s.cfg.colorCount)
    (hupd : updateLed s = s.apply c) :
    ∃ t, exec .ledUpdate s = .next t ∧ t.ledOut = shown (duties s.cfg c) ∧
      t = { s with cp := s.cp + 1, siTicks := s.siTicks - 1, siColor := c, pwm := t.pwm } ∧ OnlyDuties s t r g b := by
  obtain ⟨hshown, honly⟩ := shows_of_show hready (t := { s with
    cp := s.cp + 1, siTicks := s.siTicks - 1, siColor := c, pwm := (s.show (duties s.cfg c)).pwm }) rfl rfl rfl rfl
  refine ⟨_, ?_, hshown, rfl, honly⟩
  rw [execLedUpdate_of_owed hcs hirq hpos, hupd, State.apply_of_lt hc]
  rfl

theorem updateLed_of_blink (h : s.siMode = .blink) : updateLed s = s.apply (blinkNext s.cfg s.siColor) := by
  rw [updateLed, h]

theorem updateLed_of_cycle (h : s.siMode = .cycle) : updateLed s = s.apply (cycleNext s.cfg s.siColor) := by
  rw [updateLed, h]

end LedUpdates

/-- Settles O20: the update applies the blink successor of the stored colour. -/
theorem ledUpdateBlinkToggles : Obligations.LedUpdateBlinkToggles := by
  intro s r g b hready hvalid hcs hirq hpos hmode
  obtain ⟨-, -, -, -, -, ha, hb, -⟩ := hvalid.1
  obtain ⟨t, hexec, hshown, hframe, honly⟩ := execLedUpdate_applies hready hcs hirq hpos (blinkNext_lt s.cfg s.siColor ha hb)
    (updateLed_of_blink hmode)
  have hcolor : t.siColor = blinkNext s.cfg s.siColor := congrArg State.siColor hframe
  refine ⟨t, hexec, hcolor, ?_, ?_, honly⟩
  · rw [hcolor, hshown]
  · rw [hcolor]
    exact hframe

/-- Settles O17: the four branches of the mode code, with the duties each shows. -/
theorem ledModeEntryActions : Obligations.LedModeEntryActions := by
  refine ⟨fun s m r g b hready hvalid hcolor => ?_, rfl, rfl, rfl, rfl⟩
  have hdistinct : [s.cfg.ledOff, s.cfg.ledOn, s.cfg.ledBlink, s.cfg.ledCycle].Nodup := hvalid.2.1
  simp only [List.nodup_cons, List.mem_cons, List.not_mem_nil, or_false, not_or] at hdistinct
  obtain ⟨⟨hoff_on, hoff_blink, hoff_cycle⟩, ⟨hon_blink, hon_cycle⟩, hblink_cycle, -⟩ := hdistinct
  have happly := State.apply_of_lt hcolor
  rw [execLedMode_of_configured m hready.1, happly]
  by_cases hon : m = s.cfg.ledOn
  · subst hon
    obtain ⟨hshown, honly⟩ := shows_of_show hready (d := duties s.cfg s.siColor) (t := { s with
      cp := s.cp + 1, siMode := .on, pwm := (s.show (duties s.cfg s.siColor)).pwm }) rfl rfl rfl rfl
    refine ⟨_, if_pos rfl, rfl, honly, fun _ => ⟨rfl, hshown⟩, fun h => absurd h hon_blink, fun h => absurd h hon_cycle, ?_⟩
    rintro (h | ⟨h, -, -⟩)
    · exact absurd h.symm hoff_on
    · exact absurd rfl h
  rw [if_neg hon]
  by_cases hblink : m = s.cfg.ledBlink
  · subst hblink
    obtain ⟨hshown, honly⟩ := shows_of_show hready (d := duties s.cfg s.siColor) (t := { s with
      cp := s.cp + 1, siMode := .blink, pwm := (s.show (duties s.cfg s.siColor)).pwm }) rfl rfl rfl rfl
    refine ⟨_, if_pos rfl, rfl, honly, fun h => absurd h hon, fun _ => ⟨rfl, hshown⟩, fun h => absurd h hblink_cycle, ?_⟩
    rintro (h | ⟨-, h, -⟩)
    · exact absurd h.symm hoff_blink
    · exact absurd rfl h
  rw [if_neg hblink]
  by_cases hcycle : m = s.cfg.ledCycle
  · subst hcycle
    refine ⟨_, if_pos rfl, rfl, onlyDuties_of_pwm_eq rfl, fun h => absurd h hon, fun h => absurd h hblink,
      fun _ => ⟨rfl, rfl⟩, ?_⟩
    rintro (h | ⟨-, -, h⟩)
    · exact absurd h.symm hoff_cycle
    · exact absurd rfl h
  rw [if_neg hcycle]
  by_cases hblanks : s.cfg.offBlanks = true
  · obtain ⟨hshown, honly⟩ := shows_of_show hready (d := duties s.cfg s.cfg.black) (t := { s with
      cp := s.cp + 1, siMode := .off, pwm := (s.show (duties s.cfg s.cfg.black)).pwm }) rfl rfl rfl rfl
    rw [if_pos hblanks, State.show_frame]
    exact ⟨_, rfl, rfl, honly, fun h => absurd h hon, fun h => absurd h hblink, fun h => absurd h hcycle,
      fun _ => ⟨rfl, fun _ => hshown, fun h => absurd hblanks (ne_true_of_eq_false h)⟩⟩
  · rw [if_neg hblanks]
    exact ⟨_, rfl, rfl, onlyDuties_of_pwm_eq rfl, fun h => absurd h hon, fun h => absurd h hblink,
      fun h => absurd h hcycle, fun _ => ⟨rfl, fun h => absurd h hblanks, fun _ => rfl⟩⟩

section Cycle

variable {cfg : Config} {c : ColorIx}

/-- R18: the member after a member of the order, wrapping. -/
theorem getElem?_cycleNext {i : Nat} (hnodup : cfg.cycleOrder.Nodup) (h : cfg.cycleOrder[i]? = some c) :
    cfg.cycleOrder[(i + 1) % cfg.cycleOrder.length]? = some (cycleNext cfg c) := by
  obtain ⟨hi, rfl⟩ := List.getElem?_eq_some_iff.1 h
  have hnext : (i + 1) % cfg.cycleOrder.length < cfg.cycleOrder.length := Nat.mod_lt _ (by omega)
  rw [cycleNext, if_pos (List.getElem_mem hi), hnodup.idxOf_getElem i hi, List.getD_eq_getElem _ _ hnext,
    List.getElem?_eq_getElem hnext]

/-- R18: the first member, from a colour outside the order. -/
theorem getElem?_cycleNext_of_not_mem (hlen : 1 ≤ cfg.cycleOrder.length) (h : c ∉ cfg.cycleOrder) :
    cfg.cycleOrder[0]? = some (cycleNext cfg c) := by
  rw [cycleNext, if_neg h]
  cases ho : cfg.cycleOrder with
  | nil => simp [ho] at hlen
  | cons x xs => rfl

theorem getElem?_iterate_cycleNext {i : Nat} (hnodup : cfg.cycleOrder.Nodup) (h : cfg.cycleOrder[i]? = some c) (k : Nat) :
    cfg.cycleOrder[(i + k) % cfg.cycleOrder.length]? = some ((cycleNext cfg)^[k] c) := by
  induction k with
  | zero =>
    obtain ⟨hi, -⟩ := List.getElem?_eq_some_iff.1 h
    rw [Nat.add_zero, Nat.mod_eq_of_lt hi]
    exact h
  | succ k ih =>
    have hnext := getElem?_cycleNext hnodup ih
    rw [Nat.mod_add_mod, Nat.add_assoc] at hnext
    rw [hnext, Function.iterate_succ_apply']

/-- R92: as many successors as the order has members lead back to a member. -/
theorem iterate_cycleNext_of_mem (hnodup : cfg.cycleOrder.Nodup) (h : c ∈ cfg.cycleOrder) :
    (cycleNext cfg)^[cfg.cycleOrder.length] c = c := by
  obtain ⟨i, hi⟩ := List.mem_iff_getElem?.1 h
  obtain ⟨hlt, -⟩ := List.getElem?_eq_some_iff.1 hi
  have hround := getElem?_iterate_cycleNext hnodup hi cfg.cycleOrder.length
  rw [Nat.add_mod_right, Nat.mod_eq_of_lt hlt, hi] at hround
  exact (Option.some_inj.1 hround).symm

/-- R92: from outside the order they lead to its last member. -/
theorem iterate_cycleNext_of_not_mem (hnodup : cfg.cycleOrder.Nodup) (hlen : 1 ≤ cfg.cycleOrder.length)
    (h : c ∉ cfg.cycleOrder) :
    cfg.cycleOrder[cfg.cycleOrder.length - 1]? = some ((cycleNext cfg)^[cfg.cycleOrder.length] c) := by
  have hround := getElem?_iterate_cycleNext hnodup (getElem?_cycleNext_of_not_mem hlen h) (cfg.cycleOrder.length - 1)
  rwa [Nat.zero_add, Nat.mod_eq_of_lt (by omega), ← Function.iterate_succ_apply, Nat.succ_eq_add_one,
    Nat.sub_add_cancel hlen] at hround

variable {s : State} {r g b : LedChannel}

theorem cycleNext_lt (hvalid : cfg.Valid) (c : ColorIx) : (cycleNext cfg c).toNat < cfg.colorCount := by
  obtain ⟨-, -, -, -, horder, -, -, -, hlen, -⟩ := hvalid.1
  exact horder _ (cycleNext_mem cfg c hlen)

/-- R86: a productive update in CYCLE applies the successor of the stored colour. -/
theorem execLedUpdate_of_cycle (hready : LedReady s r g b) (hvalid : s.cfg.Valid) (hcs : s.csHeld = false)
    (hirq : s.irqPending = false) (hpos : 0 < s.siTicks) (hmode : s.siMode = .cycle) :
    ∃ t, exec .ledUpdate s = .next t ∧ t.ledOut = shown (duties s.cfg (cycleNext s.cfg s.siColor)) ∧
      t = { s with
        cp := s.cp + 1, siTicks := s.siTicks - 1, siColor := cycleNext s.cfg s.siColor, pwm := t.pwm } ∧
      OnlyDuties s t r g b :=
  execLedUpdate_applies hready hcs hirq hpos (cycleNext_lt hvalid s.siColor) (updateLed_of_cycle hmode)

/-- A configured LED in CYCLE, between two steps. -/
def Cycling (s : State) (r g b : LedChannel) : Prop :=
  LedReady s r g b ∧ s.cfg.Valid ∧ s.csHeld = false ∧ s.irqPending = false ∧ s.siMode = .cycle

theorem Cycling.update (h : Cycling s r g b) (hpos : 0 < s.siTicks) :
    ∃ u, exec .ledUpdate s = .next u ∧ Cycling u r g b ∧ u.cfg = s.cfg ∧ u.siTicks = s.siTicks - 1 ∧
      u.siColor = cycleNext s.cfg s.siColor ∧ u.ledOut = shown (duties s.cfg u.siColor) := by
  obtain ⟨hready, hvalid, hcs, hirq, hmode⟩ := h
  obtain ⟨u, hexec, hshown, hframe, -⟩ := execLedUpdate_of_cycle hready hvalid hcs hirq hpos hmode
  rw [hframe] at hexec hshown
  exact ⟨_, hexec, ⟨hready, hvalid, hcs, hirq, hmode⟩, rfl, rfl, rfl, hshown⟩

/-- R92: `k` productive updates in CYCLE take as many successors, and show the last. -/
theorem Cycling.execTimes (k : Nat) (h : Cycling s r g b) (hshown : s.ledOut = shown (duties s.cfg s.siColor))
    (howed : k ≤ s.siTicks) :
    ∃ t, Machine.execTimes .ledUpdate k s = .next t ∧ t.siTicks = s.siTicks - k ∧
      t.siColor = (cycleNext s.cfg)^[k] s.siColor ∧ t.ledOut = shown (duties s.cfg t.siColor) := by
  induction k generalizing s with
  | zero => exact ⟨s, rfl, rfl, rfl, hshown⟩
  | succ k ih =>
    obtain ⟨u, hexec, hu, hcfg, hticks, hcolor, hout⟩ := h.update (by omega)
    obtain ⟨t, hrun, ht, htc, hts⟩ := ih hu (hcfg ▸ hout) (by omega)
    refine ⟨t, ?_, by omega, ?_, hcfg ▸ hts⟩
    · rw [Machine.execTimes, hexec]
      exact hrun
    · rw [htc, hcolor, hcfg]
      rfl

end Cycle

/-- Settles O21: the update applies the cycle successor of the stored colour. -/
theorem ledUpdateCycleAdvances : Obligations.LedUpdateCycleAdvances := by
  intro s r g b hready hvalid hcs hirq hpos hmode
  obtain ⟨-, -, -, -, -, -, -, hnodup, hlen, -⟩ := hvalid.1
  obtain ⟨t, hexec, hshown, hframe, honly⟩ := execLedUpdate_of_cycle hready hvalid hcs hirq hpos hmode
  have hcolor : t.siColor = cycleNext s.cfg s.siColor := congrArg State.siColor hframe
  rw [← hcolor] at hshown hframe
  refine ⟨t, hexec, fun i hi => ?_, fun hout => ?_, hshown, hframe, honly⟩
  · rw [hcolor]
    exact getElem?_cycleNext hnodup hi
  · rw [hcolor]
    exact getElem?_cycleNext_of_not_mem hlen hout

/-- Settles O22: the updates take one successor each, and the order's successors are cyclic. -/
theorem fullCycleReturnsToTheColor : Obligations.FullCycleReturnsToTheColor := by
  intro s r g b hready hvalid hcs hirq hmode howed
  obtain ⟨-, -, -, -, -, -, -, hnodup, hlen, -⟩ := hvalid.1
  obtain ⟨k, hk⟩ := Nat.exists_eq_add_of_le' hlen
  have hs : Cycling s r g b := ⟨hready, hvalid, hcs, hirq, hmode⟩
  obtain ⟨u, hexec, hu, hcfg, hticks, hcolor, hout⟩ := hs.update (by omega)
  obtain ⟨t, hrun, ht, htc, hts⟩ := hu.execTimes k (hcfg ▸ hout) (by omega)
  have hround : t.siColor = (cycleNext s.cfg)^[s.cfg.cycleOrder.length] s.siColor := by
    rw [htc, hcolor, hcfg, hk]
    rfl
  refine ⟨t, ?_, by omega, hcfg ▸ hts, fun hmem => ?_, fun hout => ?_⟩
  · rw [hk, execTimes, hexec]
    exact hrun
  · rw [hround, iterate_cycleNext_of_mem hnodup hmem]
  · rw [hround]
    exact iterate_cycleNext_of_not_mem hnodup hlen hout

end Sys2Proof.Machine
end

/-! ## The bytes of a number, by place; LED.GETN (R15, R90) -/
section
namespace Sys2Proof.Machine

/-- R15: a byte of a row, read off the number the row spells. -/
theorem beVal_place {bs : List Byte} {k : Nat} (hk : k < bs.length) :
    beVal bs / 256 ^ (bs.length - 1 - k) % 256 = (bs.getD k 0).toNat := by
  rw [List.getD_eq_getElem _ _ hk]
  have hsplit : bs = bs.take k ++ bs[k] :: bs.drop (k + 1) := by
    rw [← List.drop_eq_getElem_cons hk, List.take_append_drop]
  have hval := congrArg beVal hsplit
  have hlow := beVal_lt (bs.drop (k + 1))
  rw [beVal_append, beVal_cons, List.length_cons, List.length_drop, pow_succ] at hval
  rw [List.length_drop, show bs.length - (k + 1) = bs.length - 1 - k by omega] at hlow
  rw [show bs.length - (k + 1) = bs.length - 1 - k by omega] at hval
  have hb : bs[k].toNat < 256 := bs[k].isLt
  have harrange : ∀ x y z p : Nat, x * (p * 256) + (y * p + z) = z + p * (x * 256 + y) := by
    intros
    ring
  have hquot : beVal bs / 256 ^ (bs.length - 1 - k) = beVal (bs.take k) * 256 + bs[k].toNat := by
    rw [hval, harrange, Nat.add_mul_div_left _ _ (by positivity), Nat.div_eq_of_lt hlow, Nat.zero_add]
  omega

/-- R15: the number a row of bytes spells, as a sum over the places. -/
theorem beVal_eq_sum (bs : List Byte) :
    beVal bs = ∑ k ∈ Finset.range bs.length, (bs.getD k 0).toNat * 256 ^ (bs.length - 1 - k) := by
  induction bs with
  | nil => rfl
  | cons b bs ih =>
    rw [beVal_cons, List.length_cons, Finset.sum_range_succ', ih, Nat.add_comm]
    congr 1
    refine Finset.sum_congr rfl fun k hk => ?_
    rw [List.getD_cons_succ, show bs.length + 1 - 1 - (k + 1) = bs.length - 1 - k by omega]

theorem zext64_toNat_of_lt {v : Nat} (h : v < 2 ^ 64) : (zext64 v).toNat = v := by
  rw [zext64, BitVec.toNat_ofNat, Nat.mod_eq_of_lt h]

/-- R90: the bytes of a packed name. -/
def nameBytes (name : String) : List Byte :=
  ((name.toList.map fun ch => BitVec.ofNat 8 ch.toNat) ++ List.replicate 8 0#8).take 8

theorem length_nameBytes (name : String) : (nameBytes name).length = 8 := by
  simp [nameBytes]

/-- R90: byte `k` of a packed name, from the most significant. -/
theorem pack8_byte (name : String) {k : Nat} (hk : k < 8) :
    ((pack8 name).extractLsb' (56 - 8 * k) 8).toNat = ((nameBytes name).getD k 0).toNat := by
  have hlen := length_nameBytes name
  have hlt : beVal (nameBytes name) < 2 ^ 64 := by
    have := beVal_lt (nameBytes name)
    rwa [hlen, show 256 ^ 8 = 2 ^ 64 by norm_num] at this
  have hplace := beVal_place (bs := nameBytes name) (k := k) (by omega)
  have hpow : 2 ^ (56 - 8 * k) = 256 ^ (8 - 1 - k) := by
    rw [show 256 = 2 ^ 8 by norm_num, ← pow_mul, show 8 * (8 - 1 - k) = 56 - 8 * k by omega]
  have hpack : pack8 name = zext64 (beVal (nameBytes name)) := rfl
  rw [hlen] at hplace
  rw [hpack, BitVec.extractLsb'_toNat, zext64_toNat_of_lt hlt, Nat.shiftRight_eq_div_pow, hpow, ← hplace]

theorem nameBytes_getD {name : String} (hascii : name.toList.all (fun ch => ch.toNat < 128) = true) {k : Nat} (hk : k < 8) :
    ((nameBytes name).getD k 0).toNat = (name.toList.map Char.toNat).getD k 0 := by
  rw [List.getD_eq_getElem _ _ (by rwa [length_nameBytes])]
  simp only [nameBytes, List.getElem_take]
  by_cases hin : k < name.toList.length
  · have hch : name.toList[k].toNat < 128 := by simpa using List.all_eq_true.1 hascii _ (List.getElem_mem hin)
    rw [List.getElem_append_left (by simpa using hin), List.getD_eq_getElem _ _ (by simpa using hin)]
    simp only [List.getElem_map, BitVec.toNat_ofNat]
    omega
  · rw [List.getElem_append_right (by simpa using hin), List.getD_eq_default _ _ (by simpa using hin), List.getElem_replicate]
    rfl

/-- Settles O24: each byte of `res` is a place of the packed number. -/
theorem ledGetnPacksTheName : Obligations.LedGetnPacksTheName := by
  intro s e hconf hvalid he
  obtain ⟨-, -, -, -, -, -, -, -, -, -, hnames, -⟩ := hvalid.1
  obtain ⟨-, hascii⟩ := hnames e (List.mem_of_getElem? he)
  have hentry : colorEntry s.cfg s.siColor = e := by
    rw [colorEntry, List.getD_eq_getElem?_getD, he, Option.getD_some]
  have hexec : exec .ledGetn s = .next { s with cp := s.cp + 1, res := some (pack8 e.name) } := by
    rw [← hentry]
    exact whenLedConfigured_of_configured s _ hconf
  exact ⟨_, hexec, fun k hk => (pack8_byte e.name hk).trans (nameBytes_getD hascii hk)⟩

end Sys2Proof.Machine
end

/-! ## The tick against the critical section and the commands (R61, R62, R134) -/
section
namespace Sys2Proof.Machine

/-- Settles O28: the expiry is latched, and the end of the section runs the tick on the drained counter. -/
theorem expiryInCriticalSectionIsNotLost : Obligations.ExpiryInCriticalSectionIsNotLost := by
  intro s _ hcs hirq
  have hlatched : ∀ n, leaveCs { s.enterCs with irqPending := true, siTicks := n } =
      tick { s with siTicks := n, csHeld := false } := by
    intro n
    have hclear : ({ s with siTicks := n, csHeld := false } : State) =
        { s with siTicks := n, csHeld := false, irqPending := false } := by simp [hirq]
    rw [hclear]
    rfl
  have hdrain : Result.andThen (drainOne s) tick = tick { s with siTicks := s.siTicks - 1, csHeld := false } := by
    rw [drainOne_next s hirq]
    rfl
  rw [hdrain]
  exact ⟨hlatched _, hlatched _⟩

/-- The state with another count and the critical section left: what a tick changes. -/
def State.ticked (s : State) (n : Nat) : State := { s with siTicks := n, csHeld := false }

/-- An outcome with another count in its next state. -/
def Result.ticked (r : Result) (n : Nat) : Result := Result.andThen r fun t => .next (t.ticked n)

section Ticked

variable {s : State} {n : Nat}

theorem tick_eq (s : State) :
    tick s = if s.cfg.tickMax ≤ s.siTicks then .fault .tickOverflow else .next (s.ticked (s.siTicks + 1)) := rfl

theorem State.markBusy_ticked (b : BusId) : (s.ticked n).markBusy b = (s.markBusy b).ticked n := by
  cases b <;> rfl

theorem State.stall_ticked (sel : Selector) (dist : BitVec 32) :
    (s.ticked n).stall sel dist = (s.stall sel dist).ticked n := by
  show ({ (s.ticked n).markBusy s.cfg.motorBus with phase := .polling sel dist } : State) = _
  rw [State.markBusy_ticked]
  rfl

theorem State.setBus_ticked (b : BusId) (r : BusRegs) : (s.ticked n).setBus b r = (s.setBus b r).ticked n := by
  cases b <;> rfl

theorem State.bus_ticked (b : BusId) : (s.ticked n).bus b = s.bus b := by
  cases b <;> rfl

theorem State.setDuty_ticked (chan : Option LedChannel) (d : Byte) :
    (s.ticked n).setDuty chan d = (s.setDuty chan d).ticked n := by
  cases chan <;> rfl

theorem State.show_ticked (d : Duty) : (s.ticked n).show d = (s.show d).ticked n := by
  show (((s.ticked n).setDuty s.chanR d.r).setDuty s.chanG d.g).setDuty s.chanB d.b = _
  rw [State.setDuty_ticked, State.setDuty_ticked, State.setDuty_ticked]
  rfl

theorem State.apply_ticked (c : ColorIx) : (s.ticked n).apply c = (s.apply c).ticked n := by
  show ({ (s.ticked n).show (duties s.cfg (clamp s.cfg c)) with siColor := clamp s.cfg c } : State) = _
  rw [State.show_ticked]
  rfl

theorem updateLed_ticked : updateLed (s.ticked n) = (updateLed s).ticked n := by
  have hmode : (s.ticked n).siMode = s.siMode := rfl
  unfold updateLed
  rw [hmode]
  cases s.siMode with
  | on | off => rfl
  | blink | cycle => exact State.apply_ticked _

theorem busWrite_ticked (b : BusId) (a : Addr7) (bs : List Byte) :
    busWrite b a bs (s.ticked n) = ((busWrite b a bs s).1, (busWrite b a bs s).2.ticked n) := rfl

theorem State.takeAnswer_ticked (b : BusId) (a : Addr7) (m : Nat) (x : Option (List Byte)) (e : Env) :
    (s.ticked n).takeAnswer b a m x e = ((s.takeAnswer b a m x e).1, (s.takeAnswer b a m x e).2.ticked n) := by
  cases x with
  | some bs => rfl
  | none =>
    rw [State.takeAnswer_none, State.takeAnswer_none]
    exact congrArg (Prod.mk none) (State.markBusy_ticked (s := s.logged _ _) b)

theorem regRead_ticked (b : BusId) (a : Addr7) (r : Byte) (m : Nat) :
    regRead b a r m (s.ticked n) = ((regRead b a r m s).1, (regRead b a r m s).2.ticked n) := by
  have h := State.takeAnswer_ticked (s := (busWrite b a [r] s).2) (n := n) b a m
    ((busWrite b a [r] s).2.envRead b a m).1 ((busWrite b a [r] s).2.envRead b a m).2
  exact congrArg (fun q => (q.1.map beVal, q.2)) h

theorem scanOver_ticked (b : BusId) (as : List Addr7) :
    scanOver b as (s.ticked n) = ((scanOver b as s).1, (scanOver b as s).2.ticked n) := by
  induction as generalizing s with
  | nil => rfl
  | cons a as ih =>
    have hrest := ih (s := (busWrite b a [] s).2)
    simp only [scanOver, busWrite_ticked, hrest]
    rfl

theorem withRead_ticked {q q' : Option Nat × State} {k : Nat → State → Result} (hq : q' = (q.1, q.2.ticked n))
    (hk : ∀ v u, k v (u.ticked n) = (k v u).ticked n) : withRead q' k = (withRead q k).ticked n := by
  subst hq
  unfold withRead
  cases q.1 with
  | none => rfl
  | some v => exact hk v q.2

theorem done_ticked {u v : State} (h : v = u.ticked n) : done v = (done u).ticked n := by
  subst h
  rfl

theorem spinPolls_ticked (sel : Selector) (dist : BitVec 32) (m : Nat) :
    spinPolls sel dist m (s.ticked n) = (spinPolls sel dist m s).ticked n := by
  have hread := regRead_ticked (s := s) (n := n) s.cfg.motorBus s.cfg.motorAddr (encReg s.cfg (polledSide sel)) 4
  induction m generalizing s with
  | zero =>
    unfold spinPolls
    refine withRead_ticked hread fun v u => ?_
    dsimp only
    split
    · rfl
    · exact congrArg Host.Outcome.next (State.stall_ticked sel dist)
  | succ m ih =>
    unfold spinPolls
    refine withRead_ticked hread fun v u => ?_
    dsimp only
    split
    · rfl
    · exact ih (regRead_ticked ..)

theorem whenLedConfigured_ticked {k k' : Result} (h : k' = k.ticked n) :
    whenLedConfigured (s.ticked n) k' = (whenLedConfigured s k).ticked n := by
  subst h
  show (if s.siConfigured then _ else _) = Result.ticked (if s.siConfigured then _ else _) n
  split <;> rfl

theorem whenBusConfigured_ticked {b : BusId} {k k' : Result} (h : k' = k.ticked n) :
    whenBusConfigured (s.ticked n) b k' = (whenBusConfigured s b k).ticked n := by
  subst h
  rw [whenBusConfigured, State.bus_ticked, whenBusConfigured]
  split <;> rfl

theorem ite_ticked {p : Prop} [Decidable p] {x y x' y' : Result} (hx : x' = x.ticked n) (hy : y' = y.ticked n) :
    (if p then x' else y') = Result.ticked (if p then x else y) n := by
  split <;> assumption

/-- R62: no command but `LED.UPDATE` looks at the counter. -/
theorem exec_ticked {i : Instr} (hi : i ≠ .ledUpdate) : exec i (s.ticked n) = Result.ticked (exec i s) n := by
  cases i with
  | ledUpdate => exact absurd rfl hi
  | ledCfg idR idG idB pinR pinG pinB => exact ite_ticked (ite_ticked rfl rfl) rfl
  | ledColor c => exact whenLedConfigured_ticked (done_ticked (State.apply_ticked c))
  | ledMode m =>
    have hshow : ∀ k, ({ (s.ticked n).apply s.siColor with siMode := k } : State) =
        State.ticked { s.apply s.siColor with siMode := k } n := by
      intro k
      rw [State.apply_ticked]
      rfl
    have hblank : ({ (if s.cfg.offBlanks then (s.ticked n).show (duties s.cfg s.cfg.black) else s.ticked n) with
        siMode := .off } : State) =
        State.ticked { (if s.cfg.offBlanks then s.show (duties s.cfg s.cfg.black) else s) with siMode := .off } n := by
      rw [State.show_ticked]
      split <;> rfl
    exact whenLedConfigured_ticked (ite_ticked (done_ticked (hshow _)) (ite_ticked (done_ticked (hshow _))
      (ite_ticked rfl (done_ticked hblank))))
  | ledGetc | ledGetn => exact whenLedConfigured_ticked rfl
  | busCfg b sda scl clk =>
    simp only [exec, execBusCfg, State.bus_ticked]
    exact ite_ticked rfl (done_ticked (State.setBus_ticked _ _))
  | busWr b a r m v => exact ite_ticked (whenBusConfigured_ticked rfl) rfl
  | busRd b a r m =>
    refine ite_ticked (whenBusConfigured_ticked (withRead_ticked (regRead_ticked ..) ?_)) rfl
    exact fun _ _ => rfl
  | busScan b =>
    refine whenBusConfigured_ticked ?_
    have hscan : scanOver b (scanAddrs (s.ticked n).cfg) (s.ticked n) =
        ((scanOver b (scanAddrs s.cfg) s).1, (scanOver b (scanAddrs s.cfg) s).2.ticked n) := scanOver_ticked ..
    dsimp only
    rw [hscan, State.bus_ticked, State.setBus_ticked]
    rfl
  | motRstenc | motMode | motSpin | motStop => exact whenBusConfigured_ticked rfl
  | motVer | motEnc =>
    refine whenBusConfigured_ticked (withRead_ticked (regRead_ticked ..) ?_)
    exact fun _ _ => rfl
  | motSpind sel speed dist =>
    exact whenBusConfigured_ticked (spinPolls_ticked
      (s := spinPair sel speed (motorWrite s.cfg.regCommand s.cfg.cmdResetEnc s)) sel dist _)

/-- R62, R118: nor does a further poll of a hanging `MOT.SPIND`. -/
theorem pollAgain_ticked (sel : Selector) (dist : BitVec 32) :
    pollAgain sel dist (s.ticked n) = Result.ticked (pollAgain sel dist s) n := by
  have hanswer : (s.ticked n).pollAnswer sel = s.pollAnswer sel := rfl
  rcases pollAgain_next (s.ticked n) sel dist with ⟨x, hx, hshort, h⟩ | ⟨hreach, h⟩ <;>
    rcases pollAgain_next s sel dist with ⟨x', hx', hshort', h'⟩ | ⟨hreach', h'⟩
  · obtain rfl : x = x' := Option.some_inj.1 (hx.symm.trans hx')
    rw [h, h']
    rfl
  · have := hreach' x hx
    have := hshort.2
    omega
  · have := hreach x' hx'
    have := hshort'.2
    omega
  · rw [h, h']
    have hbusy := State.markBusy_ticked (s := s.polled sel none) (n := n) s.cfg.motorBus
    exact congrArg (fun u : State => Host.Outcome.next { u with phase := HostPhase.hung }) hbusy

/-- An outcome that leaves the counter and its limit is reached before or after the tick. -/
theorem tick_andThen_comm {f : State → Result} (hf : ∀ n, f (s.ticked n) = Result.ticked (f s) n)
    (hkeep : ∀ t, f s = .next t → t.siTicks = s.siTicks ∧ t.cfg = s.cfg)
    (hlimit : s.siTicks < s.cfg.tickMax ∨ ∃ t, f s = .next t) :
    Result.andThen (tick s) f = Result.andThen (f s) tick := by
  rw [tick_eq]
  cases hs : f s with
  | next t =>
    obtain ⟨hticks, hcfg⟩ := hkeep t hs
    rw [Result.andThen.eq_1, tick_eq, hticks, hcfg]
    split
    · rfl
    · exact (hf _).trans (by rw [hs]; rfl)
  | fault e | refused e =>
    have hlt : ¬ s.cfg.tickMax ≤ s.siTicks := by
      rcases hlimit with h | ⟨t, ht⟩
      · omega
      · rw [hs] at ht
        cases ht
    rw [if_neg hlt]
    exact (hf _).trans (by rw [hs]; rfl)

theorem pollAgain_keeps_siTicks {sel : Selector} {dist : BitVec 32} {t : State} (h : pollAgain sel dist s = .next t) :
    t.siTicks = s.siTicks ∧ t.cfg = s.cfg := by
  obtain ⟨_, ⟨e, l, -, rfl⟩, hu | hu⟩ := pollAgain_logs (s := s) sel dist
  · rw [hu] at h
    cases h
    exact ⟨rfl, rfl⟩
  · rw [hu] at h
    cases h
    exact ⟨by simp, by simp⟩

theorem tick_pollAgain_comm (sel : Selector) (dist : BitVec 32) (s : State) :
    Result.andThen (tick s) (pollAgain sel dist) = Result.andThen (pollAgain sel dist s) tick := by
  refine tick_andThen_comm (fun n => pollAgain_ticked sel dist) (fun t => pollAgain_keeps_siTicks) (.inr ?_)
  obtain ⟨u, -, hu | hu⟩ := pollAgain_logs (s := s) sel dist
  · exact ⟨_, hu⟩
  · exact ⟨_, hu⟩

/-- R62: a productive update drains one of the ticks, whichever came first. -/
theorem tick_ledUpdate_comm (hirq : s.irqPending = false) (hlt : s.siTicks < s.cfg.tickMax) (hpos : 0 < s.siTicks) :
    Result.andThen (tick s) (exec .ledUpdate) = Result.andThen (exec .ledUpdate s) tick := by
  have hbefore : exec .ledUpdate (s.ticked (s.siTicks + 1)) =
      .next ({ updateLed s with siTicks := s.siTicks, csHeld := false } : State).advance := by
    have hpos' : 0 < (s.ticked (s.siTicks + 1)).siTicks := Nat.succ_pos _
    rw [execLedUpdate_eq (s.ticked _) hirq, if_pos hpos', updateLed_ticked]
    rfl
  have hcfg : (updateLed s).cfg = s.cfg := by
    obtain ⟨p, c, -, h⟩ := updateLed_frame (s := s)
    rw [h]
  have hlow : ({ updateLed s with siTicks := s.siTicks - 1, csHeld := false } : State).advance.siTicks <
      ({ updateLed s with siTicks := s.siTicks - 1, csHeld := false } : State).advance.cfg.tickMax := by
    show s.siTicks - 1 < (updateLed s).cfg.tickMax
    rw [hcfg]
    omega
  rw [tick_eq, if_neg (by omega)]
  refine hbefore.trans ?_
  rw [execLedUpdate_eq s hirq, if_pos hpos]
  refine Eq.trans ?_ (tick_below _ hlow).symm
  have hback : s.siTicks - 1 + 1 = s.siTicks := by omega
  show _ = Host.Outcome.next ({ updateLed s with siTicks := s.siTicks - 1 + 1, csHeld := false } : State).advance
  rw [hback]

end Ticked

/-- Settles O29: no command but `LED.UPDATE` and no turn of a hanging Host looks at the counter, and each leaves it. -/
theorem tickCommutesWithCommands : Obligations.TickCommutesWithCommands := by
  refine ⟨fun i s hcs hirq hlt howed => ?_, fun s hp => ?_, tick_pollAgain_comm⟩
  · by_cases hi : i = .ledUpdate
    · subst hi
      exact tick_ledUpdate_comm hirq hlt (howed rfl)
    · refine tick_andThen_comm (fun n => exec_ticked hi) (fun t ht => ?_) (.inl hlt)
      have heff := exec_effect ht
      exact ⟨(heff.siTicks hirq).trans (if_neg hi), heff.fixed.2.1⟩
  · cases hphase : s.phase with
    | ready => exact absurd hphase hp
    | hung =>
      refine tick_andThen_comm (fun n => ?_) (fun t ht => ?_) (.inr ⟨s, hostStep_of_hung hphase⟩)
      · rw [hostStep_of_hung (s := s.ticked n) hphase, hostStep_of_hung hphase]
        rfl
      · rw [hostStep_of_hung hphase] at ht
        cases ht
        exact ⟨rfl, rfl⟩
    | polling sel dist =>
      have hturn : ∀ u : State, u.phase = .polling sel dist → hostStep u = pollAgain sel dist u := fun u hu => by
        rw [hostStep, hu]
      rw [hturn s hphase, ← tick_pollAgain_comm, tick_eq]
      split
      · rfl
      · exact hturn (s.ticked _) hphase

end Sys2Proof.Machine
end

/-! ## Reads and writes of a configured bus (R53 to R55, R66, R98 to R101, R112 to R115, R120) -/
section
namespace Sys2Proof.Machine

section BusAccess

variable {s : State} {b : BusId} {a : Addr7} {r : Byte}

theorem envWrite_of_silent (bs : List Byte) (hok : s.cfg.busOk b = false) : s.envWrite b a bs = (false, s.env) := by
  rw [State.envWrite, if_neg (ne_true_of_eq_false hok)]

theorem envRead_of_silent (n : Nat) (hok : s.cfg.busOk b = false) : s.envRead b a n = (none, s.env) := by
  rw [State.envRead, if_neg (ne_true_of_eq_false hok)]

/-- R55: an answer comes from a functional bus. -/
theorem busOk_of_envRead {n : Nat} {bs : List Byte} (h : (s.envRead b a n).1 = some bs) : s.cfg.busOk b = true := by
  by_contra hok
  rw [envRead_of_silent n (eq_false_of_ne_true hok)] at h
  cases h

theorem busOk_of_read {n : Nat} {bs : List Byte} (h : ((busWrite b a [r] s).2.envRead b a n).1 = some bs) :
    s.cfg.busOk b = true :=
  busOk_of_envRead (s := (busWrite b a [r] s).2) h

@[simp] theorem State.bus_advance (b : BusId) : s.advance.bus b = s.bus b := by cases b <;> rfl

@[simp] theorem State.bus_setRes (b : BusId) (v : Word) : (s.setRes v).bus b = s.bus b := by cases b <;> rfl

/-- R66: reference devices acknowledge at their addresses, and the addressed ones take the bytes. -/
theorem envWrite_of_reference {devs : List RefDevice} (bs : List Byte) (hok : s.cfg.busOk b = true)
    (he : s.env = .reference devs) :
    s.envWrite b a bs =
      (devs.any fun d => d.at b a, .reference (devs.map fun d => if d.at b a then d.receive s.cfg bs else d)) := by
  rw [State.envWrite, if_pos hok, he]
  rfl

theorem RefDevice.at_iff {d : RefDevice} : d.at b a = true ↔ d.bus = b ∧ d.addr = a := by
  simp [RefDevice.at]

/-- The bytes a reference device gives to a register read (R66). -/
def RefDevice.answer (d : RefDevice) (r : Byte) (n : Nat) : List Byte :=
  (List.range n).map fun k => Memory.read d.regs ((r.toNat + k) % 256)

/-- R66: a register read of reference devices: the first at the address answers, and only pointers move. -/
theorem envRead_of_reference {devs : List RefDevice} (n : Nat) (hok : s.cfg.busOk b = true)
    (he : s.env = .reference devs) :
    (busWrite b a [r] s).2.envRead b a n =
      ((devs.find? fun d => d.at b a).map fun d => d.answer r n, .reference (pointersAfterRead b a r n devs)) := by
  have hsel : ∀ d : RefDevice, (if d.at b a then d.receive s.cfg [r] else d).at b a = d.at b a := by
    intro d
    split <;> rfl
  have henv : (busWrite b a [r] s).2.env = .reference (devs.map fun d => if d.at b a then d.receive s.cfg [r] else d) :=
    congrArg Prod.snd (envWrite_of_reference [r] hok he)
  have hok' : (busWrite b a [r] s).2.cfg.busOk b = true := hok
  rw [State.envRead, if_pos hok', henv, Env.read]
  refine Prod.ext ?_ (congrArg Env.reference ?_)
  · dsimp only
    rw [List.find?_map, Option.map_map]
    simp only [Function.comp_def, hsel]
    refine Option.map_congr fun d hd => ?_
    rw [if_pos (List.find?_some hd)]
    rfl
  · rw [List.map_map]
    exact List.map_congr_left fun d _ => RefDevice.selected_advance s.cfg d b a r n

theorem execBusWr_eq {n : BitVec 3} {v : BitVec 32} (h1 : 1 ≤ n.toNat) (hmax : n.toNat ≤ s.cfg.busMaxBytes)
    (hfit : v.toNat < 2 ^ (8 * n.toNat)) (hc : (s.bus b).configured = true) :
    exec (.busWr b a r n v) s =
      .next (s.logged (.write b a (r :: beBytes v.toNat n.toNat) (s.envWrite b a (r :: beBytes v.toNat n.toNat)).1)
        (s.envWrite b a (r :: beBytes v.toNat n.toNat)).2).advance := by
  rw [execBusWr_of_legal h1 hmax hfit, whenBusConfigured_of_configured s b _ hc]
  rfl

theorem execBusRd_eq {n : BitVec 3} (h1 : 1 ≤ n.toNat) (hmax : n.toNat ≤ s.cfg.busMaxBytes)
    (hc : (s.bus b).configured = true) {bs : List Byte} (h : ((busWrite b a [r] s).2.envRead b a n.toNat).1 = some bs) :
    exec (.busRd b a r n) s = .next { s with
      cp := s.cp + 1
      res := some (zext64 (beVal bs))
      busLog := s.busLog ++ [.write b a [r] (s.envWrite b a [r]).1, .read b a n.toNat (some bs)]
      env := ((busWrite b a [r] s).2.envRead b a n.toNat).2
      envClock := s.envClock + 2 } :=
  (execBusRd_of_legal h1 hmax).trans (read_done s b a r n.toNat zext64 bs hc h)

theorem beVal_lt_of_count {n : BitVec 3} {bs : List Byte} (h : bs.length = n.toNat) : beVal bs < 2 ^ 64 := by
  have hn : n.toNat < 8 := n.isLt
  calc beVal bs < 256 ^ bs.length := beVal_lt bs
    _ ≤ 256 ^ 8 := Nat.pow_le_pow_right (by norm_num) (by omega)
    _ = 2 ^ 64 := by norm_num

end BusAccess

/-- Settles O40. -/
theorem busWrIssuesOneWrite : Obligations.BusWrIssuesOneWrite := by
  refine fun s b a r n v => ⟨fun h1 hmax hfit hc => ⟨fun hok => ?_, ?_⟩, execBusWr_of_not_legal⟩
  · rw [envWrite_of_silent _ hok]
  · rw [execBusWr_eq h1 hmax hfit hc, beBytes_eq_map]
    rfl

/-- Settles O41: the answer has the length asked for, so its number fits `res`. -/
theorem busRdAssemblesTheAnswer : Obligations.BusRdAssemblesTheAnswer := by
  refine fun s b a r n => ⟨fun bs h1 hmax hc h => ?_, execBusRd_of_not_legal⟩
  have hlen : bs.length = n.toNat := envRead_length _ b a n.toNat bs h
  refine ⟨zext64 (beVal bs), hlen, ?_, execBusRd_eq h1 hmax hc h, fun devs he => ?_⟩
  · rw [zext64_toNat_of_lt (beVal_lt_of_count hlen), beVal_eq_sum, hlen]
  · have hok : s.cfg.busOk b = true := busOk_of_read h
    rw [envRead_of_reference n.toNat hok he] at h ⊢
    obtain ⟨d, hd, rfl⟩ := Option.map_eq_some_iff.1 h
    exact ⟨rfl, d, hd, rfl⟩

section MotorAccess

variable {s : State}

/-- R111: a register read of the motor device leaves, of reference devices, pointers moved. -/
theorem motorRead_pointers {r : Byte} {n : Nat} {bs : List Byte} {devs : List RefDevice}
    (h : ((busWrite s.cfg.motorBus s.cfg.motorAddr [r] s).2.envRead s.cfg.motorBus s.cfg.motorAddr n).1 = some bs)
    (he : s.env = .reference devs) :
    ((busWrite s.cfg.motorBus s.cfg.motorAddr [r] s).2.envRead s.cfg.motorBus s.cfg.motorAddr n).2 =
      .reference (pointersAfterRead s.cfg.motorBus s.cfg.motorAddr r n devs) := by
  have hok : s.cfg.busOk s.cfg.motorBus = true := busOk_of_read h
  rw [envRead_of_reference n hok he]

/-- R16: sign extension keeps the signed value. -/
theorem sext64_toInt (v : BitVec 32) : (sext64 v).toInt = v.toInt := by
  have hlt := v.toInt_lt
  have hle := v.le_toInt
  rw [sext64, s32, BitVec.toInt_ofInt]
  exact Int.bmod_eq_of_le (by omega) (by omega)

/-- R16: the signed value of a number of 32 bits. -/
theorem toInt_ofNat_of_lt {n : Nat} (h : n < 2 ^ 32) :
    (BitVec.ofNat 32 n).toInt = if n < 2 ^ 31 then (n : Int) else (n : Int) - 2 ^ 32 := by
  rw [BitVec.toInt_eq_toNat_cond, BitVec.toNat_ofNat, Nat.mod_eq_of_lt h]
  split <;> split <;> omega

theorem execMotEnc_done {side : Side} {bs : List Byte} (hc : (s.bus s.cfg.motorBus).configured = true)
    (h : ((busWrite s.cfg.motorBus s.cfg.motorAddr [encReg s.cfg side] s).2.envRead
      s.cfg.motorBus s.cfg.motorAddr 4).1 = some bs) :
    exec (.motEnc side) s = .next { s with
      cp := s.cp + 1
      res := some (sext64 (BitVec.ofNat 32 (beVal bs)))
      busLog := s.busLog ++
        [.write s.cfg.motorBus s.cfg.motorAddr [encReg s.cfg side]
          (s.envWrite s.cfg.motorBus s.cfg.motorAddr [encReg s.cfg side]).1,
         .read s.cfg.motorBus s.cfg.motorAddr 4 (some bs)]
      env := ((busWrite s.cfg.motorBus s.cfg.motorAddr [encReg s.cfg side] s).2.envRead
        s.cfg.motorBus s.cfg.motorAddr 4).2
      envClock := s.envClock + 2 } :=
  read_done s _ _ _ 4 (fun v => sext64 (BitVec.ofNat 32 v)) bs hc h

end MotorAccess

/-- Settles O49: one byte is its own number. -/
theorem motVerReadsTheVersion : Obligations.MotVerReadsTheVersion := by
  intro s x hc asked answer h
  have hbyte : zext64 (beVal [x]) = x.setWidth 64 := by
    rw [← zext64_toNat x]
    simp [beVal]
  refine ⟨?_, fun devs he => motorRead_pointers h he⟩
  rw [← hbyte]
  exact read_done s _ _ _ 1 zext64 [x] hc h

/-- Settles O50: the four bytes spell the count, and sign extension keeps its signed value. -/
theorem motEncReadsTheSignedCount : Obligations.MotEncReadsTheSignedCount := by
  intro s side w x y z hc
  have hcount : beVal [w, x, y, z] = ((w.toNat * 256 + x.toNat) * 256 + y.toNat) * 256 + z.toNat := by simp [beVal]
  have hlt : beVal [w, x, y, z] < 2 ^ 32 := (beVal_lt [w, x, y, z]).trans_eq (by norm_num)
  have hvalue := toInt_ofNat_of_lt hlt
  rw [hcount] at hvalue
  intro base count asked answer h
  have hbase : base = encReg s.cfg side := rfl
  clear_value base
  subst hbase
  refine ⟨⟨sext64 (BitVec.ofNat 32 (beVal [w, x, y, z])), ?_, execMotEnc_done hc h⟩, fun devs he => motorRead_pointers h he⟩
  rw [sext64_toInt, hcount, hvalue]

/-- Settles O51: either command is one write of one byte to the motor device. -/
theorem motRstencAndModeWriteOneByte : Obligations.MotRstencAndModeWriteOneByte := by
  intro s m hc i r v hi
  have hexec : exec i s = .next (motorWrite r v s).advance := by
    rcases hi with ⟨rfl, rfl, rfl⟩ | ⟨rfl, rfl, rfl⟩ <;> exact whenBusConfigured_of_configured s _ _ hc
  rw [hexec, motorWrite_eq]
  rfl

/-- Settles O54: each command is a spin pair on a configured bus. -/
theorem scenarioCLog : Obligations.ScenarioCLog := by
  intro s hc hstop
  obtain ⟨e, k, k', -, hspun⟩ := spinPair_eq s .left 200
  have hspin := execMotSpin_of_configured s .left 200 hc
  rw [hspun] at hspin
  obtain ⟨u, hu⟩ : ∃ u, u = ({ s with
    busLog := s.busLog ++ [.write s.cfg.motorBus s.cfg.motorAddr [s.cfg.regMode, spinMode s.cfg .left] k,
      .write s.cfg.motorBus s.cfg.motorAddr [spinReg s.cfg .left, 200] k']
    env := e
    envClock := s.envClock + 2 } : State).advance := ⟨_, rfl⟩
  have hcu : (u.bus u.cfg.motorBus).configured = true := by
    rw [hu]
    exact hc
  obtain ⟨e', j, j', -, hstopped⟩ := spinPair_eq u .left u.cfg.stopSpeed
  refine ⟨(spinPair .left u.cfg.stopSpeed u).advance, k, k', j, j', ?_, ?_⟩
  · rw [hspin, ← hu]
    exact execMotSpin_of_configured u .left u.cfg.stopSpeed hcu
  · rw [hstopped, hu]
    simp [State.advance, hstop, spinMode, spinReg]

/-- R102: on a silent bus a scan finds nothing and leaves the environment. -/
theorem scanOver_of_silent {b : BusId} (as : List Addr7) {s : State} (hok : s.cfg.busOk b = false) :
    (scanOver b as s).1 = [] ∧ (scanOver b as s).2.env = s.env := by
  induction as generalizing s with
  | nil => exact ⟨rfl, rfl⟩
  | cons a as ih =>
    have hwrite : s.envWrite b a [] = (false, s.env) := envWrite_of_silent [] hok
    obtain ⟨hnone, henv⟩ := ih (s := (busWrite b a [] s).2) hok
    refine ⟨?_, henv.trans (congrArg Prod.snd hwrite)⟩
    show (if (s.envWrite b a []).1 then _ else (scanOver b as (busWrite b a [] s).2).1) = []
    rw [hwrite]
    exact hnone

/-- Settles O46: the environment has no part in any transaction of such a bus. -/
theorem nonfunctionalBusIsSilent : Obligations.NonfunctionalBusIsSilent := by
  refine fun s b hc hok => ⟨fun a r n v h1 hmax hfit => ?write, fun a r n h1 hmax => ?read, ?scan⟩
  case write =>
    refine ⟨_, r :: beBytes v.toNat n.toNat, execBusWr_eq h1 hmax hfit hc, ?_, ?_⟩
    · exact congrArg Prod.snd (envWrite_of_silent _ hok)
    · rw [envWrite_of_silent _ hok]
      rfl
  case read =>
    have hnone : (busWrite b a [r] s).2.envRead b a n.toNat = (none, (busWrite b a [r] s).2.env) :=
      envRead_of_silent n.toNat hok
    have henv : (busWrite b a [r] s).2.env = s.env := congrArg Prod.snd (envWrite_of_silent [r] hok)
    refine ⟨_, (execBusRd_of_legal h1 hmax).trans (read_hangs s b a r n.toNat _ hc (congrArg Prod.fst hnone)), ?_, ?_⟩
    · simp
    · rw [State.markBusy_env, hnone]
      exact henv
  case scan =>
    obtain ⟨hnone, henv⟩ := scanOver_of_silent (scanAddrs s.cfg) hok
    refine ⟨_, whenBusConfigured_of_configured s b _ hc, ?_, ?_, ?_⟩
    · simp [hnone]
    · simp [hnone, zext64]
    · simp [henv]

end Sys2Proof.Machine
end

/-! ## BUS.SCAN (R102) -/
section
namespace Sys2Proof.Machine

section Scan

variable {s : State} {b : BusId}

/-- The address a scan probes after `k` others (R102). -/
def probeAddr (cfg : Config) (k : Nat) : Addr7 := BitVec.ofNat 7 (cfg.scanFirst + k)

/-- The acknowledge of that probe, in the state it is issued in. -/
def probeAck (b : BusId) (s : State) (k : Nat) : Bool := ((afterProbes b k s).envWrite b (probeAddr s.cfg k) []).1

/-- The records of the probes at these places that were acknowledged. -/
def probesFound (b : BusId) (s : State) (ks : List Nat) : List DevRecord :=
  (ks.filter (probeAck b s)).map fun k => ⟨probeAddr s.cfg k, label s.cfg (probeAddr s.cfg k)⟩

theorem afterProbes_succ (k : Nat) :
    afterProbes b (k + 1) s = (busWrite b (probeAddr s.cfg k) [] (afterProbes b k s)).2 := by
  rw [afterProbes, List.range_succ, List.foldl_append]
  rfl

/-- A record appended to a state that differs from `s` in what transactions leave. -/
theorem State.logged_of_frame {u : State} {l : List Transaction} {c : Nat}
    (h : u = { s with busLog := l, env := u.env, envClock := c }) (t : Transaction) (e : Env) :
    u.logged t e = { s with busLog := l ++ [t], env := e, envClock := c + 1 } := by
  rw [h]
  rfl

/-- R102: each probe leaves one record. -/
theorem afterProbes_frame (k : Nat) :
    afterProbes b k s = { s with
      busLog := s.busLog ++ (List.range k).map fun j => Transaction.write b (probeAddr s.cfg j) [] (probeAck b s j)
      env := (afterProbes b k s).env
      envClock := s.envClock + k } := by
  induction k with
  | zero => simp [afterProbes]
  | succ k ih =>
    rw [afterProbes_succ]
    refine (State.logged_of_frame ih _ _).trans ?_
    rw [List.range_succ, List.map_append, ← List.append_assoc]
    rfl

theorem scanAddrs_eq_map (cfg : Config) :
    scanAddrs cfg = (List.range' 0 (cfg.scanLast + 1 - cfg.scanFirst)).map (probeAddr cfg) := by
  rw [scanAddrs, List.range'_eq_map_range, List.range'_eq_map_range, List.map_map, List.map_map]
  simp [Function.comp_def, probeAddr]

/-- R102: a scan from its place `j` on. -/
theorem scanOver_from (m j : Nat) :
    scanOver b ((List.range' j m).map (probeAddr s.cfg)) (afterProbes b j s) =
      (probesFound b s (List.range' j m), afterProbes b (j + m) s) := by
  induction m generalizing j with
  | zero => rfl
  | succ m ih =>
    have hcfg : (afterProbes b j s).cfg = s.cfg := by rw [afterProbes_frame]
    have hrest := ih (j + 1)
    rw [afterProbes_succ] at hrest
    rw [List.range'_succ, List.map_cons, scanOver, hrest, hcfg, show j + 1 + m = j + (m + 1) by omega]
    refine Prod.ext ?_ rfl
    show (if probeAck b s j = true then _ else _) = _
    simp only [probesFound, List.filter_cons]
    split <;> rfl

/-- R102: everything a scan leaves. -/
theorem execBusScan_eq (hc : (s.bus b).configured = true) :
    exec (.busScan b) s = .next (State.setBus { s with
      cp := s.cp + 1
      res := some (BitVec.ofNat 64 (probesFound b s (List.range (s.cfg.scanLast + 1 - s.cfg.scanFirst))).length)
      busLog := s.busLog ++ (List.range (s.cfg.scanLast + 1 - s.cfg.scanFirst)).map fun k =>
        Transaction.write b (probeAddr s.cfg k) [] (probeAck b s k)
      env := (afterProbes b (s.cfg.scanLast + 1 - s.cfg.scanFirst) s).env
      envClock := s.envClock + (s.cfg.scanLast + 1 - s.cfg.scanFirst) } b
      { s.bus b with dev := probesFound b s (List.range (s.cfg.scanLast + 1 - s.cfg.scanFirst)) }) := by
  have hscan := scanOver_from (s := s) (b := b) (s.cfg.scanLast + 1 - s.cfg.scanFirst) 0
  rw [← scanAddrs_eq_map, Nat.zero_add, ← List.range_eq_range'] at hscan
  have hstart : scanOver b (scanAddrs s.cfg) s = _ := hscan
  refine (whenBusConfigured_of_configured s b _ hc).trans ?_
  dsimp only
  rw [hstart, afterProbes_frame]
  cases b <;> rfl

end Scan

/-- Settles O44. -/
theorem busScanRebuildsTheTable : Obligations.BusScanRebuildsTheTable :=
  ⟨fun _ _ hc => execBusScan_eq hc, rfl, rfl⟩

section ReferenceScan

variable {s : State} {b : BusId} {devs : List RefDevice}

/-- R66: a write of no bytes leaves reference devices as they were. -/
theorem envWrite_nil_of_reference {a : Addr7} (hok : s.cfg.busOk b = true) (he : s.env = .reference devs) :
    s.envWrite b a [] = (devs.any fun d => d.at b a, s.env) := by
  have hsame : (devs.map fun d => if d.at b a then d.receive s.cfg [] else d) = devs := by
    have hid : ∀ d : RefDevice, (if d.at b a then d.receive s.cfg [] else d) = d := fun d => by split <;> rfl
    simp [hid]
  rw [envWrite_of_reference [] hok he, hsame, he]

theorem afterProbes_env_of_reference (hok : s.cfg.busOk b = true) (he : s.env = .reference devs) (k : Nat) :
    (afterProbes b k s).env = s.env := by
  induction k with
  | zero => rfl
  | succ k ih =>
    have hcfg : (afterProbes b k s).cfg = s.cfg := by rw [afterProbes_frame]
    rw [afterProbes_succ, ← ih]
    exact congrArg Prod.snd (envWrite_nil_of_reference (hcfg ▸ hok) (ih.trans he))

theorem probeAck_of_reference (hok : s.cfg.busOk b = true) (he : s.env = .reference devs) (k : Nat) :
    probeAck b s k = devs.any fun d => d.at b (probeAddr s.cfg k) := by
  have hcfg : (afterProbes b k s).cfg = s.cfg := by rw [afterProbes_frame]
  exact congrArg Prod.fst (envWrite_nil_of_reference (hcfg ▸ hok) ((afterProbes_env_of_reference hok he k).trans he))

/-- R66, R102: a scan of reference devices lists their addresses in the range and leaves them. -/
theorem execBusScan_of_reference (hc : (s.bus b).configured = true) (hok : s.cfg.busOk b = true)
    (he : s.env = .reference devs) :
    ∃ t, exec (.busScan b) s = .next t ∧ (t.bus b).configured = true ∧ t.cfg = s.cfg ∧ t.env = s.env ∧
      (t.bus b).dev = ((List.range (s.cfg.scanLast + 1 - s.cfg.scanFirst)).filter fun k =>
        devs.any fun d => d.at b (probeAddr s.cfg k)).map
          fun k => ⟨probeAddr s.cfg k, label s.cfg (probeAddr s.cfg k)⟩ := by
  refine ⟨_, execBusScan_eq hc, ?_, by simp, ?_, ?_⟩
  · rw [State.bus_setBus_same]
    exact hc
  · rw [State.setBus_env]
    exact afterProbes_env_of_reference hok he _
  · rw [State.bus_setBus_same]
    show probesFound b s _ = _
    rw [probesFound, show probeAck b s = _ from funext (probeAck_of_reference hok he)]

end ReferenceScan

/-- Settles O45: the second scan meets the devices the first met. -/
theorem scanListsTheDevicesAndRepeats : Obligations.ScanListsTheDevicesAndRepeats := by
  intro s b devs hc hok he
  obtain ⟨t, hst, hct, hcfg, het, hdev⟩ := execBusScan_of_reference hc hok he
  obtain ⟨u, htu, -, -, heu, hdev'⟩ := execBusScan_of_reference hct (hcfg ▸ hok) (het.trans he)
  rw [hcfg] at hdev'
  exact ⟨t, u, hst, htu, hdev, hdev'.trans hdev.symm, het, heu.trans het⟩

end Sys2Proof.Machine
end

/-! ## What a write leaves in reference devices, read back (R56, R66, R99, R113) -/
section
namespace Sys2Proof.Machine

/-- What a write transaction makes of one of the reference devices (R66). -/
def RefDevice.written (cfg : Config) (b : BusId) (a : Addr7) (bs : List Byte) (d : RefDevice) : RefDevice :=
  if d.at b a then d.receive cfg bs else d

section ReferenceWrites

variable {cfg : Config} {b : BusId} {a : Addr7} {r : Byte} {d : RefDevice}

theorem RefDevice.receive_place (vs : List Byte) (d : RefDevice) :
    (vs.foldl (RefDevice.store cfg) d).bus = d.bus ∧ (vs.foldl (RefDevice.store cfg) d).addr = d.addr := by
  induction vs generalizing d with
  | nil => exact ⟨rfl, rfl⟩
  | cons v vs ih => exact ih (d.store cfg v)

theorem RefDevice.at_receive (bs : List Byte) : (d.receive cfg bs).at b a = d.at b a := by
  cases bs with
  | nil => rfl
  | cons r vs =>
    obtain ⟨hbus, haddr⟩ := RefDevice.receive_place (cfg := cfg) vs { d with ptr := r }
    show ((vs.foldl (RefDevice.store cfg) { d with ptr := r }).bus == b &&
      (vs.foldl (RefDevice.store cfg) { d with ptr := r }).addr == a) = _
    rw [hbus, haddr]
    rfl

/-- The first device at an address is the one that took the write. -/
theorem find?_written (devs : List RefDevice) (bs : List Byte) :
    ((devs.map (RefDevice.written cfg b a bs)).find? fun d => d.at b a) =
      (devs.find? fun d => d.at b a).map fun d => d.receive cfg bs := by
  have hat : ∀ d : RefDevice, (RefDevice.written cfg b a bs d).at b a = d.at b a := by
    intro d
    rw [RefDevice.written]
    split
    · exact RefDevice.at_receive bs
    · rfl
  rw [List.find?_map]
  simp only [Function.comp_def, hat]
  refine Option.map_congr fun d hd => ?_
  rw [RefDevice.written, if_pos (List.find?_some hd)]

/-- R66: what a write of a register's selector and at most 256 bytes leaves in the device. -/
theorem RefDevice.receive_run (vs : List Byte) (hw : Memory.wf d.regs) (hl : vs.length ≤ 256) :
    (let t := d.receive cfg (r :: vs)
     let place := fun k => (r.toNat + k) % 256
     let resets := fun k => d.Resets cfg (place k) (vs.getD k 0)
     t = { d with ptr := r + BitVec.ofNat 8 vs.length, regs := t.regs } ∧ Memory.wf t.regs ∧
     (∀ k < vs.length,
       (encoderByte cfg (place k) ∧ (∃ j < vs.length, k ≤ j ∧ resets j) → Memory.read t.regs (place k) = 0) ∧
       (¬ (encoderByte cfg (place k) ∧ ∃ j < vs.length, k ≤ j ∧ resets j) →
         Memory.read t.regs (place k) = vs.getD k 0)) ∧
     ∀ x, (∀ k < vs.length, x ≠ place k) →
       (encoderByte cfg x ∧ (∃ j < vs.length, resets j) → Memory.read t.regs x = 0) ∧
       (¬ (encoderByte cfg x ∧ ∃ j < vs.length, resets j) → Memory.read t.regs x = Memory.read d.regs x)) :=
  RefDevice.store_run cfg vs { d with ptr := r } hw hl

/-- R56, R66: a write that stores no encoder reset is read back. -/
theorem RefDevice.answer_receive (vs : List Byte) (hw : Memory.wf d.regs) (hl : vs.length ≤ 256)
    (hno : ∀ k < vs.length, ¬ d.Resets cfg ((r.toNat + k) % 256) (vs.getD k 0)) :
    (d.receive cfg (r :: vs)).answer r vs.length = vs := by
  obtain ⟨-, -, hbytes, -⟩ := RefDevice.receive_run (cfg := cfg) (r := r) vs hw hl
  refine List.ext_getElem (by simp [RefDevice.answer]) fun k hk hk' => ?_
  have hbyte := (hbytes k hk').2 fun ⟨_, j, hj, _, hres⟩ => hno j hj hres
  rw [List.getD_eq_getElem _ _ hk'] at hbyte
  simpa [RefDevice.answer] using hbyte

/-- R66, R113: after the encoder reset both encoders of the motor device answer 0. -/
theorem RefDevice.answer_after_reset (hmotor : d.motor = true) (hw : Memory.wf d.regs) {base : Byte}
    (hbase : base = cfg.regEnc1 ∨ base = cfg.regEnc2) (hfits : base.toNat + 3 ≤ 255) :
    (d.receive cfg [cfg.regCommand, cfg.cmdResetEnc]).answer base 4 = [0, 0, 0, 0] := by
  have hzero : ∀ k < 4, Memory.read (d.receive cfg [cfg.regCommand, cfg.cmdResetEnc]).regs ((base.toNat + k) % 256) = 0 := by
    intro k hk
    have henc : encoderByte cfg (base.toNat + k) := by
      rcases hbase with rfl | rfl
      · exact .inl ⟨by omega, by omega⟩
      · exact .inr ⟨by omega, by omega⟩
    rw [Nat.mod_eq_of_lt (by omega)]
    exact (RefDevice.store_read cfg { d with ptr := cfg.regCommand } cfg.cmdResetEnc hw _).1 ⟨henc, hmotor, rfl, rfl⟩
  have hlist : (d.receive cfg [cfg.regCommand, cfg.cmdResetEnc]).answer base 4 = List.replicate 4 0 := by
    refine List.eq_replicate_iff.2 ⟨by simp [RefDevice.answer], fun x hx => ?_⟩
    obtain ⟨k, hk, rfl⟩ := List.mem_map.1 hx
    exact hzero k (List.mem_range.1 hk)
  exact hlist

/-- R15: a byte of the value, by place. -/
theorem getD_beBytes {v n k : Nat} (hk : k < n) : (beBytes v n).getD k 0 = BitVec.ofNat 8 (v / 256 ^ (n - 1 - k)) := by
  rw [List.getD_eq_getElem _ _ (by simpa using hk)]
  simp [beBytes_eq_map]

end ReferenceWrites

/-- Settles O47: the addressed device takes the run of stores of the value's bytes, every other is left. -/
theorem referenceWriteStoresItsBytes : Obligations.ReferenceWriteStoresItsBytes := by
  intro s b a r n v devs h1 hmax hfit hc hok he hcanonical
  have henv := envWrite_of_reference (a := a) (r :: beBytes v.toNat n.toNat) hok he
  refine ⟨_, devs.map (RefDevice.written s.cfg b a (r :: beBytes v.toNat n.toNat)), execBusWr_eq h1 hmax hfit hc,
    congrArg Prod.snd henv, List.length_map _, fun i d d' hd hd' => ?_⟩
  rw [List.getElem?_map, hd, Option.map_some, Option.some_inj] at hd'
  refine ⟨fun hnot => ?_, fun hbus haddr => ?_⟩
  · rw [← hd', RefDevice.written, if_neg fun hat => hnot (RefDevice.at_iff.1 hat)]
  · rw [RefDevice.written, if_pos (RefDevice.at_iff.2 ⟨hbus, haddr⟩)] at hd'
    have hn : n.toNat < 8 := n.isLt
    have hrun := RefDevice.receive_run (cfg := s.cfg) (r := r) (beBytes v.toNat n.toNat)
      (hcanonical d (List.mem_of_getElem? hd)) (by rw [length_beBytes]; omega)
    rw [hd', length_beBytes] at hrun
    obtain ⟨hframe, hwf, hin, hout⟩ := hrun
    have hres : ∀ m, (∃ j < n.toNat, m ≤ j ∧ d.Resets s.cfg ((r.toNat + j) % 256) ((beBytes v.toNat n.toNat).getD j 0)) ↔
        ∃ j < n.toNat, m ≤ j ∧ d.Resets s.cfg ((r.toNat + j) % 256) (BitVec.ofNat 8 (v.toNat / 256 ^ (n.toNat - 1 - j))) := by
      intro m
      refine exists_congr fun j => and_congr_right fun hj => ?_
      rw [getD_beBytes hj]
    have hres0 := hres 0
    simp only [Nat.zero_le, true_and] at hres0
    refine ⟨hframe.trans ?_, hwf, fun k hk => ?_, fun x hx => ?_⟩
    · rw [BitVec.ofNat_toNat]
    · have hk' := hin k hk
      rw [hres, getD_beBytes hk] at hk'
      exact hk'
    · have hx' := hout x hx
      rw [hres0] at hx'
      exact hx'

/-- Settles O48: the first device at the address took the write and answers the read. -/
theorem multiByteWriteReadsBack : Obligations.MultiByteWriteReadsBack := by
  intro s b a r n v devs d h1 hmax hfit hc hok he hfind hno hw
  obtain ⟨t, ht⟩ : ∃ t, exec (.busWr b a r n v) s = .next t ∧ t = _ := ⟨_, execBusWr_eq h1 hmax hfit hc, rfl⟩
  obtain ⟨hexec, heq⟩ := ht
  have henv : t.env = .reference (devs.map (RefDevice.written s.cfg b a (r :: beBytes v.toNat n.toNat))) := by
    rw [heq]
    exact congrArg Prod.snd (envWrite_of_reference (a := a) (r :: beBytes v.toNat n.toNat) hok he)
  have hcfg : t.cfg = s.cfg := by rw [heq]; rfl
  have hct : (t.bus b).configured = true := by rw [heq, State.bus_advance]; exact hc
  have hn : n.toNat < 8 := n.isLt
  have hback : (d.receive s.cfg (r :: beBytes v.toNat n.toNat)).answer r n.toNat = beBytes v.toNat n.toNat := by
    have hanswer := RefDevice.answer_receive (cfg := s.cfg) (r := r) (beBytes v.toNat n.toNat) hw
      (by rw [length_beBytes]; omega) fun k hk ⟨hmotor, hplace, hbyte⟩ => by
        rw [length_beBytes] at hk
        rw [getD_beBytes hk] at hbyte
        exact hno hmotor k hk hplace hbyte
    rwa [length_beBytes] at hanswer
  have hread := envRead_of_reference (a := a) (r := r) n.toNat (hcfg ▸ hok : t.cfg.busOk b = true) henv
  rw [find?_written] at hread
  have hfind' : (devs.find? fun x => x.at b a) = some d := hfind
  rw [hfind', Option.map_some, Option.map_some, hback] at hread
  have hvalue : zext64 (beVal (beBytes v.toNat n.toNat)) = v.setWidth 64 := by
    rw [beVal_beBytes_of_lt _ _ (by rwa [show 256 = 2 ^ 8 by norm_num, ← pow_mul]), zext64_toNat]
  refine ⟨t, _, hexec, execBusRd_eq h1 (hcfg ▸ hmax) hct (congrArg Prod.fst hread), ?_⟩
  exact congrArg some hvalue

/-- Settles O58: the motor device takes the reset, and answers the read with zeros. -/
theorem encodersReadZeroAfterReset : Obligations.EncodersReadZeroAfterReset := by
  intro s side devs d hvalid hc hok he hfind hmotor hw
  obtain ⟨-, -, -, -, -, -, -, -, -, -, -, henc1, henc2, -⟩ := hvalid.1
  obtain ⟨t, ht⟩ : ∃ t, t = (motorWrite s.cfg.regCommand s.cfg.cmdResetEnc s).advance := ⟨_, rfl⟩
  have hexec : exec .motRstenc s = .next t := ht ▸ whenBusConfigured_of_configured s _ _ hc
  rw [motorWrite_eq] at ht
  have henv : t.env = .reference (devs.map
      (RefDevice.written s.cfg s.cfg.motorBus s.cfg.motorAddr [s.cfg.regCommand, s.cfg.cmdResetEnc])) := by
    rw [ht]
    exact congrArg Prod.snd (envWrite_of_reference (a := s.cfg.motorAddr) [s.cfg.regCommand, s.cfg.cmdResetEnc] hok he)
  have hcfg : t.cfg = s.cfg := by rw [ht]; rfl
  have hct : (t.bus s.cfg.motorBus).configured = true := by rw [ht, State.bus_advance]; exact hc
  have hbase : encReg s.cfg side = s.cfg.regEnc1 ∨ encReg s.cfg side = s.cfg.regEnc2 := by
    cases side
    · exact .inl rfl
    · exact .inr rfl
  have hfits : (encReg s.cfg side).toNat + 3 ≤ 255 := by
    rcases hbase with h | h <;> rw [h] <;> assumption
  have hread := envRead_of_reference (a := s.cfg.motorAddr) (r := encReg s.cfg side) 4
    (hcfg ▸ hok : t.cfg.busOk s.cfg.motorBus = true) henv
  have hfind' : (devs.find? fun x => x.at s.cfg.motorBus s.cfg.motorAddr) = some d := hfind
  rw [find?_written, hfind', Option.map_some, Option.map_some,
    RefDevice.answer_after_reset hmotor hw hbase hfits, ← hcfg] at hread
  refine ⟨t, _, hexec, execMotEnc_done (hcfg ▸ hct) (congrArg Prod.fst hread), ?_⟩
  exact congrArg some (by decide)

end Sys2Proof.Machine
end

/-! ## Unanswered reads, and the outcomes of MOT.SPIND (R54, R118) -/
section
namespace Sys2Proof.Machine

/-- A state with these records more in its log, and the environment after them (R50). -/
def State.recorded (s : State) (l : List Transaction) (e : Env) : State :=
  { s with busLog := s.busLog ++ l, env := e, envClock := s.envClock + l.length }

/-- The state a blocking spin polls from first: the encoder reset and the spin pair are written (R118). -/
def State.spun (s : State) (sel : Selector) (speed : Byte) : State :=
  spinPair sel speed (motorWrite s.cfg.regCommand s.cfg.cmdResetEnc s)

section SpinOutcomes

variable {s : State} {sel : Selector} {speed : Byte} {dist : BitVec 32}

theorem State.recorded_recorded (s : State) (l l' : List Transaction) (e e' : Env) :
    (s.recorded l e).recorded l' e' = s.recorded (l ++ l') e' := by
  simp [State.recorded, Nat.add_assoc]

theorem State.recorded_nil {e : Env} (h : s.env = e) : s.recorded [] e = s := by
  rw [← h]
  simp [State.recorded]

/-- The records by their number. -/
theorem State.recorded_eq {l : List Transaction} {n : Nat} (h : l.length = n) (s : State) (e : Env) :
    s.recorded l e = { s with busLog := s.busLog ++ l, env := e, envClock := s.envClock + n } := by
  rw [← h]
  rfl

theorem State.spun_eq (s : State) (sel : Selector) (speed : Byte) :
    ∃ e a₁ a₂ a₃, s.spun sel speed = s.recorded (spinStartRecords s.cfg sel speed a₁ a₂ a₃) e := by
  obtain ⟨e, a₁, a₂, a₃, -, h⟩ := spinStart_eq s sel speed
  exact ⟨e, a₁, a₂, a₃, h⟩

theorem State.polled_eq (s : State) (sel : Selector) (x : Option (List Byte)) :
    s.polled sel x = s.recorded (pollRecords s.cfg sel (s.pollAck sel) x) (s.polled sel x).env := rfl

theorem execMotSpind_spun (speed : Byte) (dist : BitVec 32) (hc : (s.bus s.cfg.motorBus).configured = true) :
    exec (.motSpind sel speed dist) s = spinPolls sel dist (s.spun sel speed).pollsBeforeHang (s.spun sel speed) :=
  execMotSpind_eq s sel speed dist hc

theorem hang_markBusy (s : State) (b : BusId) :
    hang (s.markBusy b) = .next (State.markBusy { s with phase := .hung } b) :=
  congrArg Host.Outcome.next (s.markBusy_phase_comm b .hung).symm

/-- R54, R118: a blocking spin whose first poll is never answered. -/
theorem execMotSpind_of_silence (hc : (s.bus s.cfg.motorBus).configured = true)
    (h : (s.spun sel speed).pollAnswer sel = none) :
    ∃ a₁ a₂ a₃ k, exec (.motSpind sel speed dist) s = .next (State.markBusy { s with
      phase := .hung
      busLog := s.busLog ++ spinStartRecords s.cfg sel speed a₁ a₂ a₃ ++ pollRecords s.cfg sel k none
      env := ((s.spun sel speed).polled sel none).env
      envClock := s.envClock + 5 } s.cfg.motorBus) := by
  obtain ⟨e, a₁, a₂, a₃, hspun⟩ := s.spun_eq sel speed
  refine ⟨a₁, a₂, a₃, (s.spun sel speed).pollAck sel, ?_⟩
  rw [execMotSpind_spun speed dist hc, spinPolls_of_silence _ _ _ _ h, hang_markBusy, hspun]
  rfl

theorem hostStep_of_polling (hp : s.phase = .polling sel dist) : hostStep s = pollAgain sel dist s := by
  rw [hostStep, hp]

/-- R54, R118: a further poll that is never answered. -/
theorem hostStep_of_silence (hp : s.phase = .polling sel dist) (h : s.pollAnswer sel = none) :
    hostStep s = .next (State.markBusy { s.polled sel none with phase := .hung } s.cfg.motorBus) := by
  rw [hostStep_of_polling hp]
  rcases pollAgain_next s sel dist with ⟨x, hx, -⟩ | ⟨-, he⟩
  · rw [h] at hx
    cases hx
  · exact he.trans (hang_markBusy _ _)

/-- R118: a further poll that is answered short of the distance. -/
theorem hostStep_of_short {x : List Byte} (hp : s.phase = .polling sel dist) (h : s.pollAnswer sel = some x)
    (hx : ShortAnswer dist x) : hostStep s = .next (s.polled sel (some x)) := by
  rw [hostStep_of_polling hp]
  rcases pollAgain_next s sel dist with ⟨y, hy, -, he⟩ | ⟨hlong, -⟩
  · rw [h, Option.some_inj] at hy
    rw [he, hy]
  · have hreached := hlong x h
    omega

/-- What a poll that is answered short of the distance leaves of the polls to come (R118). -/
theorem spinPolls_of_short {x : List Byte} (n : Nat) (h : s.pollAnswer sel = some x) (hx : ShortAnswer dist x) :
    spinPolls sel dist (n + 1) s = spinPolls sel dist n (s.polled sel (some x)) := by
  rw [spinPolls_of_answer s sel dist (n + 1) x h, if_neg (by omega)]

/-- What a poll at the distance leaves: the stop pair, and the end of the command (R118). -/
theorem spinPolls_of_reaching {x : List Byte} (n : Nat) (h : s.pollAnswer sel = some x)
    (hx : dist.toNat ≤ (BitVec.ofNat 32 (beVal x)).toInt.natAbs) :
    spinPolls sel dist n s = .next (spinPair sel s.cfg.stopSpeed (s.polled sel (some x))).advance := by
  rw [spinPolls_of_answer s sel dist n x h, if_pos hx]
  rfl

/-- The log the polls of a blocking spin leave: when the command is done its first poll was answered (R118). -/
theorem PollsOutcome.log {most : Nat} {t : State} (h : PollsOutcome sel dist most s t) :
    ∃ l, t.busLog = s.busLog ++ l ∧
      (t.cp = s.cp + 1 → ∃ k y l', l = pollRecords s.cfg sel k (some y) ++ l') := by
  obtain ⟨polls, e, -, -, ⟨k, x, k', k'', -, -, rfl⟩ | ⟨k, rfl⟩ | ⟨-, rfl⟩⟩ := h
  · refine ⟨pollsRecords s.cfg sel polls ++ pollRecords s.cfg sel k (some x) ++ stopRecords s.cfg sel k' k'',
      by simp, fun _ => ?_⟩
    cases polls with
    | nil => exact ⟨k, x, _, rfl⟩
    | cons p polls =>
      refine ⟨p.1, p.2, pollsRecords s.cfg sel polls ++ pollRecords s.cfg sel k (some x) ++ stopRecords s.cfg sel k' k'', ?_⟩
      simp [pollsRecords]
  · exact ⟨pollsRecords s.cfg sel polls ++ pollRecords s.cfg sel k none, by simp, fun h => by simp at h⟩
  · exact ⟨pollsRecords s.cfg sel polls, by simp, fun h => by simp at h⟩

end SpinOutcomes

/-- Settles O59: the outcomes of the polls, from the state the spin is started in. -/
theorem blockingSpinOutcomes : Obligations.BlockingSpinOutcomes := by
  intro s sel speed dist hc
  obtain ⟨e, a₁, a₂, a₃, hspun⟩ := s.spun_eq sel speed
  obtain ⟨t, ht, polls, e', hshort, -, houtcome⟩ :=
    spinPolls_next (s.spun sel speed) sel dist (s.spun sel speed).pollsBeforeHang
  rw [← execMotSpind_spun speed dist hc] at ht
  rw [hspun] at houtcome
  refine ⟨t, a₁, a₂, a₃, polls, ht, hshort, ?_⟩
  have hclock : ∀ m, s.envClock + 3 + (m + 2 * polls.length) = s.envClock + (3 + m + 2 * polls.length) := by omega
  rcases houtcome with ⟨k, x, a₄, a₅, hlen, hreached, rfl⟩ | ⟨k, rfl⟩ | ⟨hcount, rfl⟩
  · refine .inl ⟨k, x, a₄, a₅, hlen, hreached, ?_⟩
    simp [State.recorded, spinStartRecords, hclock]
  · refine .inr (.inl ⟨k, ?_⟩)
    simp [State.recorded, spinStartRecords, hclock]
  · refine .inr (.inr ⟨List.ne_nil_of_length_eq_add_one hcount, ?_⟩)
    simp [State.recorded, spinStartRecords, Nat.add_assoc]

/-- Settles O57: at the distance the stop pair follows; short of it either the command hangs in its polls, or the polls
go on. -/
theorem blockingSpinFirstPoll : Obligations.BlockingSpinFirstPoll := by
  intro s sel speed dist x hc spun asked h
  have hanswer : (s.spun sel speed).pollAnswer sel = some x := h
  obtain ⟨e, a₁, a₂, a₃, hspun⟩ := s.spun_eq sel speed
  obtain ⟨u, hu⟩ : ∃ u, u = (s.spun sel speed).polled sel (some x) := ⟨_, rfl⟩
  have hpolled : ∃ k, u = s.recorded (spinStartRecords s.cfg sel speed a₁ a₂ a₃ ++ pollRecords s.cfg sel k (some x)) u.env := by
    refine ⟨(s.spun sel speed).pollAck sel, hu.trans ((State.polled_eq _ _ _).trans ?_)⟩
    rw [← hu, hspun]
    exact State.recorded_recorded s _ _ _ _
  obtain ⟨k, hpolled⟩ := hpolled
  have hlog : u.busLog = s.busLog ++ spinStartRecords s.cfg sel speed a₁ a₂ a₃ ++ pollRecords s.cfg sel k (some x) := by
    rw [hpolled, List.append_assoc]
    rfl
  have hcfg : u.cfg = s.cfg := by rw [hpolled]; rfl
  have hcp : u.cp = s.cp := by rw [hpolled]; rfl
  by_cases hx : dist.toNat ≤ (BitVec.ofNat 32 (beVal x)).toInt.natAbs
  · obtain ⟨e', a₄, a₅, -, hstop⟩ := stopPair_eq u sel
    rw [hcfg] at hstop
    refine ⟨(spinPair sel s.cfg.stopSpeed u).advance, a₁, a₂, a₃, k, stopRecords s.cfg sel a₄ a₅, ?_, ?_,
      fun _ => ⟨⟨a₄, a₅, rfl⟩, ?_⟩, fun hshort => by omega⟩
    · rw [execMotSpind_spun speed dist hc, spinPolls_of_reaching _ hanswer hx, ← hu, hspun]
      rfl
    · rw [hstop, ← hlog]
      rfl
    · rw [hstop, hpolled]
      rfl
  · have hshort : ShortAnswer dist x := ⟨pollAnswer_length _ _ _ hanswer, by omega⟩
    have hrest : ∃ t l, exec (.motSpind sel speed dist) s = .next t ∧ t.busLog = u.busLog ++ l ∧
        (t.cp = u.cp + 1 → ∃ k y l', l = pollRecords u.cfg sel k (some y) ++ l') := by
      rw [execMotSpind_spun speed dist hc]
      cases (s.spun sel speed).pollsBeforeHang with
      | zero =>
        refine ⟨u.stall sel dist, [], ?_, ?_, fun hdone => ?_⟩
        · rw [spinPolls_of_answer _ _ _ _ x hanswer, if_neg hx, hu]
        · simp [State.stall]
        · simp [State.stall] at hdone
      | succ n =>
        obtain ⟨t, ht, houtcome⟩ := spinPolls_next u sel dist n
        obtain ⟨l, hl⟩ := houtcome.log
        exact ⟨t, l, by rw [spinPolls_of_short n hanswer hshort, ← hu, ht], hl⟩
    obtain ⟨t, l, ht, hl, hdone⟩ := hrest
    rw [hcfg, hcp] at hdone
    exact ⟨t, a₁, a₂, a₃, k, l, ht, hlog ▸ hl, fun hreached => absurd hreached hx, fun _ => hdone⟩

section WrittenOutAnswers

/-! A written-out environment answers the transactions of a spin one by one (R52). -/

variable {s : State} {sel : Selector} {dist : BitVec 32} {acks : List Bool} {reads : List (Option (List Byte))}

theorem motorWrite_of_answers (r v : Byte) (hok : s.cfg.busOk s.cfg.motorBus = true) (he : s.env = .answers acks reads) :
    ∃ k, motorWrite r v s =
      s.recorded [.write s.cfg.motorBus s.cfg.motorAddr [r, v] k] (.answers (acks.drop 1) reads) := by
  refine ⟨(s.envWrite s.cfg.motorBus s.cfg.motorAddr [r, v]).1, ?_⟩
  rw [motorWrite_eq, envWrite_answers s _ _ _ acks reads hok he]
  rfl

theorem spinPair_of_answers (speed : Byte) (hok : s.cfg.busOk s.cfg.motorBus = true) (he : s.env = .answers acks reads) :
    ∃ k k', spinPair sel speed s =
      s.recorded [.write s.cfg.motorBus s.cfg.motorAddr [s.cfg.regMode, spinMode s.cfg sel] k,
        .write s.cfg.motorBus s.cfg.motorAddr [spinReg s.cfg sel, speed] k'] (.answers (acks.drop 2) reads) := by
  obtain ⟨k, hk⟩ := motorWrite_of_answers s.cfg.regMode (spinMode s.cfg sel) hok he
  obtain ⟨k', hk'⟩ := motorWrite_of_answers (s := motorWrite s.cfg.regMode (spinMode s.cfg sel) s)
    (spinReg s.cfg sel) speed hok (congrArg State.env hk)
  refine ⟨k, k', ?_⟩
  rw [spinPair, hk', hk, State.recorded_recorded, List.drop_drop]
  rfl

theorem spun_of_answers (speed : Byte) (hok : s.cfg.busOk s.cfg.motorBus = true) (he : s.env = .answers acks reads) :
    ∃ a₁ a₂ a₃, s.spun sel speed =
      s.recorded (spinStartRecords s.cfg sel speed a₁ a₂ a₃) (.answers (acks.drop 3) reads) := by
  obtain ⟨a₁, h₁⟩ := motorWrite_of_answers s.cfg.regCommand s.cfg.cmdResetEnc hok he
  obtain ⟨a₂, a₃, h₂⟩ := spinPair_of_answers (s := motorWrite s.cfg.regCommand s.cfg.cmdResetEnc s) (sel := sel) speed hok
    (congrArg State.env h₁)
  refine ⟨a₁, a₂, a₃, ?_⟩
  rw [State.spun, h₂, h₁, State.recorded_recorded, List.drop_drop]
  rfl

theorem envRead_of_answers {b : BusId} (a : Addr7) (n : Nat) {y : Option (List Byte)} (hok : s.cfg.busOk b = true)
    (he : s.env = .answers acks (y :: reads)) : s.envRead b a n = (exactly n y, .answers acks reads) := by
  rw [State.envRead, if_pos hok, he]
  rfl

/-- R52, R118: a poll takes one acknowledge and one answer. -/
theorem poll_of_answers {y : Option (List Byte)} (hok : s.cfg.busOk s.cfg.motorBus = true)
    (he : s.env = .answers acks (y :: reads)) :
    s.pollAnswer sel = exactly 4 y ∧ ∃ k, ∀ x, s.polled sel x =
      s.recorded (pollRecords s.cfg sel k x) (.answers (acks.drop 1) reads) := by
  have hread := envRead_of_answers (s := (busWrite s.cfg.motorBus s.cfg.motorAddr [polledEncoder s.cfg sel] s).2)
    s.cfg.motorAddr 4 hok (envWrite_answers s _ s.cfg.motorAddr [polledEncoder s.cfg sel] acks _ hok he)
  refine ⟨congrArg Prod.fst hread, s.pollAck sel, fun x => ?_⟩
  exact congrArg (s.recorded _) (congrArg Prod.snd hread)

theorem exactly_of_length {n : Nat} {x : List Byte} (h : x.length = n) : exactly n (some x) = some x :=
  if_pos h

/-- R118: the polls of a blocking spin past the written-out answers that fall short. -/
theorem spinPolls_of_answers (m : Nat) (xs : List (List Byte)) (hshort : ∀ y ∈ xs, ShortAnswer dist y)
    (hok : s.cfg.busOk s.cfg.motorBus = true) (he : s.env = .answers acks (xs.map some ++ reads)) :
    ∃ ks : List Bool, ks.length = xs.length ∧ spinPolls sel dist (m + xs.length) s = spinPolls sel dist m
      (s.recorded (pollsRecords s.cfg sel (ks.zip xs)) (.answers (acks.drop xs.length) reads)) := by
  induction xs generalizing s acks with
  | nil => exact ⟨[], rfl, congrArg (spinPolls sel dist m) (State.recorded_nil he).symm⟩
  | cons x xs ih =>
    obtain ⟨hx, hxs⟩ := List.forall_mem_cons.1 hshort
    obtain ⟨hanswer, k, hpolled⟩ := poll_of_answers (sel := sel) hok he
    rw [exactly_of_length hx.1] at hanswer
    obtain ⟨ks, hks, hrest⟩ := ih hxs (s := s.polled sel (some x)) hok (congrArg State.env (hpolled (some x)))
    refine ⟨k :: ks, congrArg (· + 1) hks, ?_⟩
    rw [List.length_cons, ← Nat.add_assoc, spinPolls_of_short _ hanswer hx, hrest, hpolled, State.recorded_recorded,
      List.drop_drop, Nat.add_comm 1]
    rfl

/-- R118: the Host's turns over written-out answers that fall short. -/
theorem hostSteps_of_answers (xs : List (List Byte)) (hp : s.phase = .polling sel dist)
    (hshort : ∀ y ∈ xs, ShortAnswer dist y) (hok : s.cfg.busOk s.cfg.motorBus = true)
    (he : s.env = .answers acks (xs.map some ++ reads)) :
    ∃ ks : List Bool, ks.length = xs.length ∧ hostSteps xs.length s =
      .next (s.recorded (pollsRecords s.cfg sel (ks.zip xs)) (.answers (acks.drop xs.length) reads)) := by
  induction xs generalizing s acks with
  | nil => exact ⟨[], rfl, congrArg Host.Outcome.next (State.recorded_nil he).symm⟩
  | cons x xs ih =>
    obtain ⟨hx, hxs⟩ := List.forall_mem_cons.1 hshort
    obtain ⟨hanswer, k, hpolled⟩ := poll_of_answers (sel := sel) hok he
    rw [exactly_of_length hx.1] at hanswer
    obtain ⟨ks, hks, hrest⟩ := ih hp hxs (s := s.polled sel (some x)) hok (congrArg State.env (hpolled (some x)))
    refine ⟨k :: ks, congrArg (· + 1) hks, ?_⟩
    rw [hpolled, State.recorded_recorded, List.drop_drop, Nat.add_comm 1] at hrest
    rw [List.length_cons, hostSteps, hostStep_of_short hp hanswer hx, hpolled]
    exact hrest

theorem pollsBeforeHang_of_answers (he : s.env = .answers acks reads) :
    ∃ m, s.pollsBeforeHang = m + reads.length := by
  rw [State.pollsBeforeHang, he]
  exact ⟨_, rfl⟩

/-- R118: a blocking spin over written-out answers that fall short comes to the poll that takes the next answer. -/
theorem execMotSpind_of_answers {speed : Byte} {xs : List (List Byte)} {y : Option (List Byte)}
    (hc : (s.bus s.cfg.motorBus).configured = true) (hok : s.cfg.busOk s.cfg.motorBus = true)
    (he : s.env = .answers acks (xs.map some ++ y :: reads)) (hshort : ∀ y ∈ xs, ShortAnswer dist y) :
    ∃ a₁ a₂ a₃ k, ∃ ks : List Bool, ∃ m u, ks.length = xs.length ∧ exec (.motSpind sel speed dist) s = spinPolls sel dist m u ∧
      u.cfg = s.cfg ∧ u.pollAnswer sel = exactly 4 y ∧ ∀ x, u.polled sel x = s.recorded
        (spinStartRecords s.cfg sel speed a₁ a₂ a₃ ++ pollsRecords s.cfg sel (ks.zip xs) ++ pollRecords s.cfg sel k x)
        (.answers (acks.drop (xs.length + 4)) reads) := by
  obtain ⟨a₁, a₂, a₃, hspun⟩ := spun_of_answers (sel := sel) speed hok he
  obtain ⟨m, hm⟩ := pollsBeforeHang_of_answers (congrArg State.env hspun)
  obtain ⟨ks, hks, hpolls⟩ := spinPolls_of_answers (s := s.spun sel speed) (sel := sel) (m + (y :: reads).length) xs hshort hok
    (congrArg State.env hspun)
  rw [List.length_append, List.length_map, ← Nat.add_assoc, Nat.add_right_comm] at hm
  rw [hspun, State.recorded_recorded, List.drop_drop, Nat.add_comm 3] at hpolls
  obtain ⟨u, hu⟩ : ∃ u, u = s.recorded (spinStartRecords s.cfg sel speed a₁ a₂ a₃ ++ pollsRecords s.cfg sel (ks.zip xs))
    (.answers (acks.drop (xs.length + 3)) (y :: reads)) := ⟨_, rfl⟩
  have hcfg : u.cfg = s.cfg := by rw [hu]; rfl
  obtain ⟨hanswer, k, hpolled⟩ := poll_of_answers (s := u) (sel := sel) (by rwa [hcfg]) (congrArg State.env hu)
  refine ⟨a₁, a₂, a₃, k, ks, m + (y :: reads).length, u, hks, ?_, hcfg, hanswer, fun x => ?_⟩
  · rw [execMotSpind_spun speed dist hc, hm, hspun, hpolls, hu]
    rfl
  · rw [hpolled, hcfg, hu, State.recorded_recorded, List.drop_drop]

end WrittenOutAnswers

theorem length_pollsRecords (cfg : Config) (sel : Selector) (polls : List (Bool × List Byte)) :
    (pollsRecords cfg sel polls).length = 2 * polls.length := by
  simp [pollsRecords, pollRecords, List.length_flatMap, Nat.mul_comm]

/-- Settles O42: each command is a read of one register that is never answered; before a blocking spin's come the start and the
polls that fall short. -/
theorem unansweredReadsHang : Obligations.UnansweredReadsHang := by
  refine ⟨fun s b a r n h1 hmax hc h => ?busRd, fun s i r n hi hc h => ?motRead, fun s sel speed dist hc h => ?spind,
    fun s sel speed dist acks xs rest hc hok he hshort => ?spindAnswered, fun s sel dist hp h => ?again⟩
  case busRd =>
    refine ⟨_, (execBusRd_of_legal h1 hmax).trans (read_hangs s b a r n.toNat _ hc h), by simp,
      fun b' hb' => State.bus_markBusy_other _ b b' hb', ?_⟩
    cases b <;> rfl
  case motRead =>
    rcases hi with ⟨rfl, rfl, rfl⟩ | ⟨rfl, rfl, rfl⟩ | ⟨rfl, rfl, rfl⟩ <;> exact read_hangs s _ _ _ _ _ hc h
  case spind => exact execMotSpind_of_silence hc h
  case spindAnswered =>
    obtain ⟨a₁, a₂, a₃, k, ks, m, u, hks, hexec, hcfg, hanswer, hpolled⟩ :=
      execMotSpind_of_answers (sel := sel) (speed := speed) hc hok he hshort
    refine ⟨a₁, a₂, a₃, k, ks, hks, ?_⟩
    rw [hexec, spinPolls_of_silence u sel dist m hanswer, hang_markBusy, hpolled, hcfg,
      State.recorded_eq (n := 5 + 2 * xs.length)]
    · simp only [List.append_assoc]
    · simp [length_pollsRecords, hks, spinStartRecords, pollRecords]
      omega
  case again => exact hostStep_of_silence hp h

/-- Settles O55: the poll after the short ones reaches the distance, and the stop pair takes two acknowledges more. -/
theorem blockingSpinCompletesAfterItsPolls : Obligations.BlockingSpinCompletesAfterItsPolls := by
  intro s sel speed dist acks xs x rest hc hok he hshort hlen hreached
  obtain ⟨a₁, a₂, a₃, k, ks, m, u, hks, hexec, hcfg, hanswer, hpolled⟩ :=
    execMotSpind_of_answers (sel := sel) (speed := speed) hc hok he hshort
  rw [exactly_of_length hlen] at hanswer
  obtain ⟨a₄, a₅, hstop⟩ := spinPair_of_answers (s := u.polled sel (some x)) (sel := sel) u.cfg.stopSpeed
    (show u.cfg.busOk u.cfg.motorBus = true by rwa [hcfg]) (congrArg State.env (hpolled (some x)))
  refine ⟨a₁, a₂, a₃, k, a₄, a₅, ks, hks, ?_⟩
  rw [hexec, spinPolls_of_reaching m hanswer hreached, hstop, hpolled, hcfg, List.drop_drop,
    State.recorded_recorded, State.recorded_eq (n := 7 + 2 * xs.length)]
  · simp only [List.append_assoc]
    rfl
  · simp [length_pollsRecords, hks, spinStartRecords, pollRecords]
    omega

section UnmovedDevices

/-! Reference devices acknowledge every write of a spin, and its polls soon no longer change them (R66). -/

variable {s : State} {sel : Selector} {dist : BitVec 32} {devs : List RefDevice}

theorem any_written (cfg : Config) (b : BusId) (a : Addr7) (bs : List Byte) :
    ((devs.map (RefDevice.written cfg b a bs)).any fun d => d.at b a) = devs.any fun d => d.at b a := by
  rw [← List.isSome_find?, ← List.isSome_find?, find?_written, Option.isSome_map]

/-- The motor device is there (R66). -/
def motorPresent (cfg : Config) (devs : List RefDevice) : Bool := devs.any fun d => d.at cfg.motorBus cfg.motorAddr

/-- R66: a write is acknowledged if the device is there, and leaves it there. -/
theorem motorWrite_of_reference (r v : Byte) {p : Bool} (hok : s.cfg.busOk s.cfg.motorBus = true)
    (he : s.env = .reference devs) (hp : motorPresent s.cfg devs = p) :
    ∃ devs', motorPresent s.cfg devs' = p ∧ motorWrite r v s =
      s.recorded [.write s.cfg.motorBus s.cfg.motorAddr [r, v] p] (.reference devs') := by
  refine ⟨devs.map (RefDevice.written s.cfg s.cfg.motorBus s.cfg.motorAddr [r, v]), (any_written _ _ _ _).trans hp, ?_⟩
  rw [motorWrite_eq, envWrite_of_reference _ hok he, ← hp]
  rfl

theorem spun_of_reference (speed : Byte) {p : Bool} (hok : s.cfg.busOk s.cfg.motorBus = true)
    (he : s.env = .reference devs) (hp : motorPresent s.cfg devs = p) :
    ∃ devs', motorPresent s.cfg devs' = p ∧
      s.spun sel speed = s.recorded (spinStartRecords s.cfg sel speed p p p) (.reference devs') := by
  obtain ⟨devs₁, hp₁, h₁⟩ := motorWrite_of_reference s.cfg.regCommand s.cfg.cmdResetEnc hok he hp
  obtain ⟨devs₂, hp₂, h₂⟩ := motorWrite_of_reference (s := motorWrite s.cfg.regCommand s.cfg.cmdResetEnc s)
    s.cfg.regMode (spinMode s.cfg sel) hok (congrArg State.env h₁) hp₁
  obtain ⟨devs₃, hp₃, h₃⟩ := motorWrite_of_reference
    (s := motorWrite s.cfg.regMode (spinMode s.cfg sel) (motorWrite s.cfg.regCommand s.cfg.cmdResetEnc s))
    (spinReg s.cfg sel) speed hok (congrArg State.env h₂) hp₂
  refine ⟨devs₃, hp₃, h₃.trans ?_⟩
  rw [h₂, State.recorded_recorded, h₁, State.recorded_recorded]
  rfl

/-- R66: a poll of a device that is there. -/
theorem poll_of_reference {d : RefDevice} (hok : s.cfg.busOk s.cfg.motorBus = true) (he : s.env = .reference devs)
    (hfind : (devs.find? fun d => d.at s.cfg.motorBus s.cfg.motorAddr) = some d) :
    s.pollAnswer sel = some (d.answer (polledEncoder s.cfg sel) 4) ∧ ∀ x, s.polled sel x =
      s.recorded (pollRecords s.cfg sel true x)
        (.reference (pointersAfterRead s.cfg.motorBus s.cfg.motorAddr (polledEncoder s.cfg sel) 4 devs)) := by
  have hread := envRead_of_reference (a := s.cfg.motorAddr) (r := polledEncoder s.cfg sel) 4 hok he
  rw [hfind, Option.map_some] at hread
  have hack : s.pollAck sel = true := by
    rw [State.pollAck, envWrite_of_reference _ hok he, ← List.isSome_find?, hfind, Option.isSome_some]
  refine ⟨congrArg Prod.fst hread, fun x => ?_⟩
  rw [State.polled_eq, hack]
  exact congrArg (s.recorded _) (congrArg Prod.snd hread)

/-- On these devices every poll is acknowledged and answered alike, and leaves them as they are. -/
def PollsUnmoved (s : State) (sel : Selector) (y : List Byte) : Prop :=
  s.cfg.busOk s.cfg.motorBus = true ∧ ∃ devs d, s.env = .reference devs ∧
    (devs.find? fun d => d.at s.cfg.motorBus s.cfg.motorAddr) = some d ∧ d.answer (polledEncoder s.cfg sel) 4 = y ∧
    pointersAfterRead s.cfg.motorBus s.cfg.motorAddr (polledEncoder s.cfg sel) 4 devs = devs

theorem PollsUnmoved.congr {t : State} {y : List Byte} (h : PollsUnmoved s sel y) (hcfg : t.cfg = s.cfg)
    (henv : t.env = s.env) : PollsUnmoved t sel y := by
  rw [PollsUnmoved, hcfg, henv]
  exact h

theorem State.stall_recorded (l : List Transaction) (e : Env) :
    (s.stall sel dist).recorded l e = (s.recorded l e).stall sel dist := by
  unfold State.stall State.recorded
  cases s.cfg.motorBus <;> rfl

theorem PollsUnmoved.poll {y : List Byte} (h : PollsUnmoved s sel y) :
    s.pollAnswer sel = some y ∧ s.polled sel (some y) = s.recorded (pollRecords s.cfg sel true (some y)) s.env := by
  obtain ⟨hok, devs, d, he, hfind, rfl, hfixed⟩ := h
  obtain ⟨hanswer, hpolled⟩ := poll_of_reference (sel := sel) hok he hfind
  exact ⟨hanswer, by rw [hpolled, hfixed, he]⟩

/-- What a poll makes of one of the reference devices (R66). -/
def RefDevice.pointed (cfg : Config) (sel : Selector) (d : RefDevice) : RefDevice :=
  if d.bus = cfg.motorBus ∧ d.addr = cfg.motorAddr then { d with ptr := polledEncoder cfg sel + BitVec.ofNat 8 4 } else d

/-- R66: after one poll the further ones no longer change the devices. -/
theorem pollsUnmoved_of_polled {t : State} {d : RefDevice} (hcfg : t.cfg = s.cfg) (hok : s.cfg.busOk s.cfg.motorBus = true)
    (hfind : (devs.find? fun d => d.at s.cfg.motorBus s.cfg.motorAddr) = some d)
    (he : t.env = .reference (pointersAfterRead s.cfg.motorBus s.cfg.motorAddr (polledEncoder s.cfg sel) 4 devs)) :
    PollsUnmoved t sel (d.answer (polledEncoder s.cfg sel) 4) := by
  have hat : ∀ d : RefDevice, (d.pointed s.cfg sel).at s.cfg.motorBus s.cfg.motorAddr =
      d.at s.cfg.motorBus s.cfg.motorAddr := by
    intro d
    rw [RefDevice.pointed]
    split <;> rfl
  rw [PollsUnmoved, hcfg]
  refine ⟨hok, _, d.pointed s.cfg sel, he, ?_, ?_, ?_⟩
  · show (devs.map (RefDevice.pointed s.cfg sel)).find? _ = _
    rw [List.find?_map]
    simp only [Function.comp_def, hat]
    rw [hfind]
    rfl
  · rw [RefDevice.pointed]
    split <;> rfl
  · show (devs.map (RefDevice.pointed s.cfg sel)).map (RefDevice.pointed s.cfg sel) = devs.map (RefDevice.pointed s.cfg sel)
    rw [List.map_map]
    refine List.map_congr_left fun d _ => ?_
    simp only [Function.comp_apply, RefDevice.pointed]
    split <;> simp_all

/-- R118: the Host's turns while the devices do not move. -/
theorem PollsUnmoved.hostSteps {y : List Byte} (k : Nat) (h : PollsUnmoved s sel y) (hp : s.phase = .polling sel dist)
    (hy : ShortAnswer dist y) :
    hostSteps k s = .next (s.recorded (pollsRecords s.cfg sel (List.replicate k (true, y))) s.env) := by
  induction k generalizing s with
  | zero => exact congrArg Host.Outcome.next (State.recorded_nil rfl).symm
  | succ k ih =>
    obtain ⟨hanswer, hpolled⟩ := h.poll
    have hrest := ih (s := s.recorded (pollRecords s.cfg sel true (some y)) s.env) h hp
    rw [State.recorded_recorded] at hrest
    rw [Machine.hostSteps, hostStep_of_short hp hanswer hy, hpolled]
    exact hrest

end UnmovedDevices

/-- R66, R118: what a blocking spin leaves of reference devices when its first poll falls short: one poll, and the hang in
its polls, with devices that its further polls do not change. -/
theorem execMotSpind_of_reference {s : State} {sel : Selector} {speed : Byte} {dist : BitVec 32} {devs : List RefDevice}
    {y : List Byte} (hc : (s.bus s.cfg.motorBus).configured = true) (hok : s.cfg.busOk s.cfg.motorBus = true)
    (he : s.env = .reference devs) (hanswer : (s.spun sel speed).pollAnswer sel = some y) (hy : ShortAnswer dist y) :
    exec (.motSpind sel speed dist) s = .next (State.stall (s.recorded
      (spinStartRecords s.cfg sel speed true true true ++ pollRecords s.cfg sel true (some y))
      ((s.spun sel speed).polled sel (some y)).env) sel dist) ∧
    PollsUnmoved ((s.spun sel speed).polled sel (some y)) sel y := by
  obtain ⟨devs', hpresent, hspun⟩ := spun_of_reference (sel := sel) speed hok he rfl
  have hu : (s.spun sel speed).env = .reference devs' := congrArg State.env hspun
  have hread := envRead_of_reference (s := s.spun sel speed) (a := s.cfg.motorAddr) (r := polledEncoder s.cfg sel) 4 hok hu
  obtain ⟨d, hfind, hdy⟩ := Option.map_eq_some_iff.1 ((congrArg Prod.fst hread).symm.trans hanswer)
  obtain ⟨-, hpolled⟩ := poll_of_reference (s := s.spun sel speed) (sel := sel) hok hu hfind
  have hthere : motorPresent s.cfg devs = true := by
    rw [← hpresent, motorPresent, ← List.isSome_find?, hfind, Option.isSome_some]
  have hrecorded : (s.spun sel speed).polled sel (some y) = s.recorded
      (spinStartRecords s.cfg sel speed true true true ++ pollRecords s.cfg sel true (some y))
      ((s.spun sel speed).polled sel (some y)).env := by
    rw [hpolled, hspun, hthere]
    exact State.recorded_recorded s _ _ _ _
  have hcfg : ((s.spun sel speed).polled sel (some y)).cfg = s.cfg := by
    rw [hrecorded]
    rfl
  refine ⟨?_, hdy ▸ pollsUnmoved_of_polled hcfg hok hfind (congrArg State.env (hpolled (some y)))⟩
  have hnone : (s.spun sel speed).pollsBeforeHang = 0 := by rw [State.pollsBeforeHang, hu]
  rw [execMotSpind_spun speed dist hc, hnone, spinPolls_of_answer _ _ _ _ y hanswer, if_neg (by omega)]
  exact congrArg (fun u : State => Host.Outcome.next (u.stall sel dist)) hrecorded

/-- Settles O56: the first poll of reference devices is the last one that changes them; written-out answers are polled one by
one. -/
theorem stalledSpinPollsForEver : Obligations.StalledSpinPollsForEver := by
  refine ⟨fun s sel speed dist devs y k hc hok he hanswer hy => ?unmoved,
    fun s sel dist acks xs rest hp hok he hshort => ?answers⟩
  case unmoved =>
    obtain ⟨hexec, hunmoved⟩ := execMotSpind_of_reference (sel := sel) (speed := speed) (dist := dist) hc hok he hanswer hy
    obtain ⟨v, hv⟩ : ∃ v, v = s.recorded (spinStartRecords s.cfg sel speed true true true ++
      pollRecords s.cfg sel true (some y)) ((s.spun sel speed).polled sel (some y)).env := ⟨_, rfl⟩
    rw [← hv] at hexec
    have hstalled : PollsUnmoved (v.stall sel dist) sel y := by
      refine hunmoved.congr ?_ ?_
      · rw [State.stall_cfg, hv]
        rfl
      · rw [State.stall_env, hv]
        rfl
    rw [hexec, Result.andThen, hstalled.hostSteps k rfl hy, State.stall_cfg, State.stall_env, State.stall_recorded, hv,
      State.recorded_recorded, State.recorded_eq (n := 5 + 2 * k)]
    · rw [State.stall, ← State.markBusy_phase_comm, List.append_assoc, List.append_assoc]
      rfl
    · simp only [List.length_append, length_pollsRecords, List.length_replicate]
      rfl
  case answers =>
    obtain ⟨ks, hks, hsteps⟩ := hostSteps_of_answers xs hp hshort hok he
    refine ⟨ks, hks, ?_⟩
    rw [hsteps, State.recorded_eq (n := 2 * xs.length)]
    simp [length_pollsRecords, hks]

end Sys2Proof.Machine
end
